-- ==== Sys2Proof/Word.lean ====
section
/-! DEFINITION. The word types of 00_scope.md R10 and R11: bytes and unsigned words of 16, 32 and 64 bits. -/

namespace Sys2Proof

/-- A byte (R10). -/
abbrev Byte := BitVec 8

/-- `u16` (R11). -/
abbrev U16 := BitVec 16

/-- `u32` (R11), the width of every host access (R63). -/
abbrev U32 := BitVec 32

/-- `u64` (R11). -/
abbrev U64 := BitVec 64

end Sys2Proof
end

