-- ==== Sys2Proof/Config.lean ====
section
/-! DEFINITION. The implementation parameters of 00_scope.md R9: the fixed ones as constants, the open ones
(and the free values of 93_implementation_defined.md) as opaque constants, so that no proof can see their value. -/

namespace Sys2Proof

/-- `PORT_FIELD_LAYOUT`, the readings of the 4-byte port field listed by 93_implementation_defined.md I-PORT. -/
inductive PortLayout where
  /-- `00 00 Phi Plo`, the spec's value (R202). -/
  | be32Zext
  /-- `Phi Plo 00 00`. -/
  | wirePad
  /-- `Plo Phi 00 00`. -/
  | le32Zext
deriving DecidableEq, Repr

namespace Config

/-- `SEED_LEN` (R9). -/
def seedLen : Nat := 60

/-- `DIGEST_LEN` (R9). -/
def digestLen : Nat := 64

/-- `IN_BUF_SIZE` (R9, R38). -/
def inBufSize : Nat := 512

/-- `OUT_BUF_SIZE` (R9, R39). -/
def outBufSize : Nat := 256

/-- `CLIENT_HDR_LEN` (R9, R100). -/
def clientHdrLen : Nat := 18

/-- `SERVER_HDR_LEN` (R9, R101). -/
def serverHdrLen : Nat := 14

/-- `C_ROUNDS` (R9, R2). -/
def cRounds : Nat := 2

/-- `D_ROUNDS` (R9, R2). -/
def dRounds : Nat := 4

/-- The offset of `IN_BUF` in the register space (R21). -/
def inBufBase : Nat := 0x200

/-- The offset of `OUT_BUF` in the register space (R21). -/
def outBufBase : Nat := 0x400

/-- The size of one register space (R60). -/
def registerSpaceSize : Nat := 4096

/-- `PORT_FIELD_LAYOUT` is fixed at `BE32_ZEXT` (R9, R202). Log 8. -/
def portFieldLayout : PortLayout := .be32Zext

/-- FREE VALUE, DESIGN CHOICE (log 4). What a buffer byte at this register-space offset holds before anything
has written it, one arbitrary draw per instance, per reset and per byte (R331, I-BUF). -/
opaque unwrittenByte : (unit epoch offset : Nat) → Byte

/-- FREE VALUE, DESIGN CHOICE (log 3). Byte `i` of the draw with this number that this instance takes from `RNG`
(R263, I-RNG). -/
opaque rngByte : (unit draw i : Nat) → Byte

/-- FREE VALUE, DESIGN CHOICE (log 2). How many steps the command that this instance accepts with this number spends
before its completion step (`LATENCY`, R347, I-LAT). -/
opaque latency : (unit accepted : Nat) → Nat

/-- OPEN PARAMETER (log 5): the byte string `RESET_PAYLOAD` is cut from (R269, I-RESET). -/
opaque resetPayloadSource : List Byte

/-- The greatest `RESET_PAYLOAD_LEN` (R269). -/
def resetPayloadMax : Nat := 242

/-- `RESET_PAYLOAD`: any byte string of length 0 to 242 (R269). -/
def resetPayload : List Byte := resetPayloadSource.take resetPayloadMax

/-- `RESET_PUZZLE_BYTE`, an OPEN PARAMETER (R270, log 5). -/
opaque resetPuzzleByte : Byte

/-- OPEN PARAMETER (log 16): the number of instances beside the first. -/
opaque otherInstances : Nat

/-- `NUM_INSTANCES`, at least 1 (R9, R312). -/
def numInstances : Nat := otherInstances + 1

/-- OPEN PARAMETER (log 16): the 4 KiB page of instance `i`; `INSTANCE_BASE[i]` is 4096 times it (R60). -/
opaque instancePage : (i : Nat) → Nat

end Config

end Sys2Proof
end

