-- ==== Sys2Proof/Machine/Bytes.lean ====
section
/-! DEFINITION. Byte strings and byte order (00_scope.md R10, R12). -/

namespace Sys2Proof

/-- `B[a..b)` (R10). -/
def slice (B : List Byte) (a b : Nat) : List Byte := (B.take b).drop a

/-- The little-endian value of a byte string of any length: the sum of `B[i]·2^(8i)`. -/
def leNat : List Byte → Nat
  | [] => 0
  | b :: bs => b.toNat + 256 * leNat bs

/-- The big-endian value of a byte string of any length. -/
def beNat (B : List Byte) : Nat := B.foldl (fun n b => n * 256 + b.toNat) 0

/-- `LE64` (R12); of fewer than 8 bytes, `LE64'` of R135 (missing high bytes 0). -/
def le64 (B : List Byte) : U64 := BitVec.ofNat 64 (leNat B)

/-- `BE16` (R12). -/
def be16 (B : List Byte) : U16 := BitVec.ofNat 16 (beNat B)

/-- `BE32` (R12). -/
def be32 (B : List Byte) : U32 := BitVec.ofNat 32 (beNat B)

/-- Byte `i` of a word, bits `[8i+7:8i]` (R64). -/
def byteOf (v : BitVec w) (i : Nat) : Byte := v.extractLsb' (8 * i) 8

/-- `le32bytes` (R12). -/
def le32bytes (v : U32) : List Byte := [byteOf v 0, byteOf v 1, byteOf v 2, byteOf v 3]

/-- `le64bytes` (R12). -/
def le64bytes (v : U64) : List Byte :=
  [byteOf v 0, byteOf v 1, byteOf v 2, byteOf v 3, byteOf v 4, byteOf v 5, byteOf v 6, byteOf v 7]

/-- `be16bytes` (R12). -/
def be16bytes (v : U16) : List Byte := [byteOf v 1, byteOf v 0]

/-- `be32bytes` (R12). -/
def be32bytes (v : U32) : List Byte := [byteOf v 3, byteOf v 2, byteOf v 1, byteOf v 0]

/-- The 8 bytes of a word, most significant first (the byte order of FIPS 180-4, R14). -/
def be64bytes (v : U64) : List Byte :=
  [byteOf v 7, byteOf v 6, byteOf v 5, byteOf v 4, byteOf v 3, byteOf v 2, byteOf v 1, byteOf v 0]

/-- The word whose byte lanes are four bytes, the first in bits [7:0] (R64). -/
def wordOfBytes (b0 b1 b2 b3 : Byte) : U32 := b3 ++ b2 ++ b1 ++ b0

end Sys2Proof
end

