-- ==== Sys2Proof/Syntax.lean ====
section
/-! DEFINITION. The syntax of everything the engine decodes: engine commands and wire commands
(30_encoding.md), the register names of 10_state.md R21, and the host's accesses (20_memory.md). -/

namespace Sys2Proof

/-- The wire command codes of 30_encoding.md R103. -/
inductive WireCommand where
  | getCookie
  | setCookie
  | getPuzzle
  | setPuzzle
  | solvePuzzle
  | resetPuzzle
  | reset
deriving DecidableEq, Repr

/-- A client packet after the header checks (R100): command, client version and payload. -/
structure ClientPacket where
  command : WireCommand
  version : U32
  payload : List Byte
deriving DecidableEq, Repr

/-- One constructor per row of spec/opcode_table.json: the twelve engine commands of R92, whose operands are fixed
registers (R94), and the seven wire commands of R103, whose operands are the packet's version and payload. -/
inductive Instr where
  | sipSetup
  | sipUpdate
  | sipFinalize
  | sipOneshot
  | getSecret
  | getCurrentSecret
  | computeCookie
  | validate
  | buildGetCookie
  | buildSetCookie
  | buildReset
  | buildResetPuzzle
  | wireGetCookie (version : U32) (payload : List Byte)
  | wireSetCookie (version : U32) (payload : List Byte)
  | wireGetPuzzle (version : U32) (payload : List Byte)
  | wireSetPuzzle (version : U32) (payload : List Byte)
  | wireSolvePuzzle (version : U32) (payload : List Byte)
  | wireResetPuzzle (version : U32) (payload : List Byte)
  | wireReset (version : U32) (payload : List Byte)
deriving DecidableEq, Repr

/-- The two kinds of encoded input (30_encoding.md): a word written to `CMD`, and the bytes of a client packet. -/
inductive Encoded where
  | command (word : U32)
  | packet (bytes : List Byte)
deriving DecidableEq, Repr

/-- The registers of R21, by name. -/
inductive Reg where
  | cmd
  | status
  | statusClr
  | cfg
  | minClientVersion
  | maxUtcOffset
  | nowLo
  | nowHi
  | af
  | srcPort
  | pktIndex
  | inLen
  | updOff
  | updLen
  | refreshCount
  | srcAddr (i : Fin 4)
  | dstAddr (i : Fin 4)
  | key0Lo
  | key0Hi
  | key1Lo
  | key1Hi
  | resultLo
  | resultHi
  | resIndex
  | outLen
  | resKey0Lo
  | resKey0Hi
  | resKey1Lo
  | resKey1Hi
  | masterSeed (i : Fin 15)
  | inBuf (i : Fin 128)
  | outBuf (i : Fin 64)
deriving DecidableEq, Repr

/-- How a host may access a register (R21). -/
inductive Access where
  /-- RW, read and write. -/
  | readWrite
  /-- RO, writes ignored. -/
  | readOnly
  /-- WO, reads return 0. -/
  | writeOnly
  /-- W1C, write one to clear; reads return 0. -/
  | writeOneToClear
deriving DecidableEq, Repr

/-- What the host can do to an instance: a read or a write of `width` bytes at a register-space offset (R63, R118),
or the reset input (R330). -/
inductive HostAccess where
  | read (off width : Nat)
  | write (off width : Nat) (value : U32)
  | reset
deriving DecidableEq, Repr

end Sys2Proof
end

