-- ==== Sys2Proof/Decode.lean ====
section
/-! DEFINITION. Decoding and encoding of engine commands, client packets (30_encoding.md) and register offsets
(10_state.md R21). Every decoder is total and refuses by name. -/

namespace Sys2Proof

/-- Why a word written to `CMD` is the illegal command (R93). -/
inductive CommandReject where
  /-- `RSVD` (bits [31:8]) is not 0. -/
  | reservedBits
  /-- `OP` (bits [7:0]) is not in the opcode map. -/
  | unassignedOpcode
deriving DecidableEq, Repr

/-- Why bytes are no client packet, in the order of the checks of 43_validator.md R221. -/
inductive PacketReject where
  /-- Fewer than 18 bytes (R230). -/
  | shortHeader
  /-- The tag is not `"TS3INIT1"` (R224). -/
  | badTag
  /-- `packet_id` is not 101 (R225). -/
  | badPacketId
  /-- `client_id` is not 0 (R226). -/
  | badClientId
  /-- `flags` is not 0x88 (R227). -/
  | badFlags
  /-- The command byte is not in R103 (R110, R228). -/
  | unassignedCommand
deriving DecidableEq, Repr

/-- The two ways a decode is refused. -/
inductive DecodeReject where
  | command (r : CommandReject)
  | packet (r : PacketReject)
deriving DecidableEq, Repr

/-- The opcode map of R92. -/
def opcodeMap : List (Byte × Instr) :=
  [(0x01, .sipSetup), (0x02, .sipUpdate), (0x03, .sipFinalize), (0x04, .sipOneshot),
   (0x10, .getSecret), (0x11, .getCurrentSecret), (0x20, .computeCookie), (0x30, .validate),
   (0x40, .buildGetCookie), (0x41, .buildSetCookie), (0x42, .buildReset), (0x43, .buildResetPuzzle)]

/-- The command word's decoder (R90 to R93): `OP` in bits [7:0], bits [31:8] must be 0. -/
def decodeCommand (w : U32) : Except CommandReject Instr :=
  if w.extractLsb' 8 24 ≠ 0 then .error .reservedBits
  else match opcodeMap.lookup (w.extractLsb' 0 8) with
    | some i => .ok i
    | none => .error .unassignedOpcode

/-- The wire command code (R103). -/
def WireCommand.code : WireCommand → Byte
  | .getCookie => 0
  | .setCookie => 1
  | .getPuzzle => 2
  | .setPuzzle => 3
  | .solvePuzzle => 4
  | .resetPuzzle => 5
  | .reset => 127

/-- The wire command a code names, if any (R103, R110). -/
def wireCommandOf (b : Byte) : Option WireCommand :=
  if b = 0 then some .getCookie
  else if b = 1 then some .setCookie
  else if b = 2 then some .getPuzzle
  else if b = 3 then some .setPuzzle
  else if b = 4 then some .solvePuzzle
  else if b = 5 then some .resetPuzzle
  else if b = 127 then some .reset
  else none

/-- The payload size of a wire command, where the size table has an entry (R103). -/
def WireCommand.size : WireCommand → Option Nat
  | .getCookie => some 16
  | .setCookie => some 20
  | .getPuzzle => some 20
  | .setPuzzle => some 244
  | .solvePuzzle => none
  | .resetPuzzle => some 1
  | .reset => none

/-- The 8 bytes of `"TS3INIT1"` (R102). -/
def tagBytes : List Byte := [0x54, 0x53, 0x33, 0x49, 0x4E, 0x49, 0x54, 0x31]

/-- The header constant `packet_id` (R102). -/
def packetId : U16 := 101

/-- The header constant `client_id` (R102). -/
def clientId : U16 := 0

/-- The header constant `flags` (R102). -/
def flagsByte : Byte := 0x88

/-- The 13 constant bytes that open both headers (R100 to R102). -/
def headerConstants : List Byte :=
  tagBytes ++ be16bytes packetId ++ be16bytes clientId ++ [flagsByte]

/-- The client packet in a byte string (R100, R109), with the header checks in the order of 43_validator.md R221. -/
def decodePacket (P : List Byte) : Except PacketReject ClientPacket :=
  if P.length < Config.clientHdrLen then .error .shortHeader
  else if slice P 0 8 ≠ tagBytes then .error .badTag
  else if be16 (slice P 8 10) ≠ packetId then .error .badPacketId
  else if be16 (slice P 10 12) ≠ clientId then .error .badClientId
  else if P.getD 12 0 ≠ flagsByte then .error .badFlags
  else match wireCommandOf (P.getD 17 0) with
    | none => .error .unassignedCommand
    | some c => .ok ⟨c, be32 (slice P 13 17), P.drop 18⟩

/-- The instruction a client packet is. -/
def ClientPacket.toInstr (p : ClientPacket) : Instr :=
  match p.command with
  | .getCookie => .wireGetCookie p.version p.payload
  | .setCookie => .wireSetCookie p.version p.payload
  | .getPuzzle => .wireGetPuzzle p.version p.payload
  | .setPuzzle => .wireSetPuzzle p.version p.payload
  | .solvePuzzle => .wireSolvePuzzle p.version p.payload
  | .resetPuzzle => .wireResetPuzzle p.version p.payload
  | .reset => .wireReset p.version p.payload

/-- Decoding, total on both kinds of encoded input. -/
def decode : Encoded → Except DecodeReject Instr
  | .command w =>
    match decodeCommand w with
    | .ok i => .ok i
    | .error r => .error (.command r)
  | .packet P =>
    match decodePacket P with
    | .ok p => .ok p.toInstr
    | .error r => .error (.packet r)

/-- The word of an engine command: `OP` with `RSVD = 0` (R90, R92). -/
def commandWord (op : Byte) : U32 := op.setWidth 32

/-- The bytes of a client packet (R100). -/
def encodePacket (p : ClientPacket) : List Byte :=
  headerConstants ++ be32bytes p.version ++ [p.command.code] ++ p.payload

/-- The encoder, written from the tables of R92, R100 and R103. -/
def encode : Instr → Encoded
  | .sipSetup => .command (commandWord 0x01)
  | .sipUpdate => .command (commandWord 0x02)
  | .sipFinalize => .command (commandWord 0x03)
  | .sipOneshot => .command (commandWord 0x04)
  | .getSecret => .command (commandWord 0x10)
  | .getCurrentSecret => .command (commandWord 0x11)
  | .computeCookie => .command (commandWord 0x20)
  | .validate => .command (commandWord 0x30)
  | .buildGetCookie => .command (commandWord 0x40)
  | .buildSetCookie => .command (commandWord 0x41)
  | .buildReset => .command (commandWord 0x42)
  | .buildResetPuzzle => .command (commandWord 0x43)
  | .wireGetCookie v p => .packet (encodePacket ⟨.getCookie, v, p⟩)
  | .wireSetCookie v p => .packet (encodePacket ⟨.setCookie, v, p⟩)
  | .wireGetPuzzle v p => .packet (encodePacket ⟨.getPuzzle, v, p⟩)
  | .wireSetPuzzle v p => .packet (encodePacket ⟨.setPuzzle, v, p⟩)
  | .wireSolvePuzzle v p => .packet (encodePacket ⟨.solvePuzzle, v, p⟩)
  | .wireResetPuzzle v p => .packet (encodePacket ⟨.resetPuzzle, v, p⟩)
  | .wireReset v p => .packet (encodePacket ⟨.reset, v, p⟩)

/-- The client packet an opcode-table row of format `TS3INIT_CLIENT` describes: the header constants, version 0, the
command byte in the low byte of `w`, and the payload bytes from the next bits of `w`, as many as the command's
size (none where the size table has no entry). Log 14. -/
def tablePacketBytes (w : Nat) : List Byte :=
  let b : Byte := BitVec.ofNat 8 w
  let size := ((wireCommandOf b).bind WireCommand.size).getD 0
  headerConstants ++ be32bytes 0 ++ [b] ++
    (List.range size).map fun j => BitVec.ofNat 8 (w >>> (8 * (j + 1)))

/-- The encoded input of an opcode-table row: a 32-bit row is a command word (format `CMD`), a shorter one a client
packet given from its command byte on (format `TS3INIT_CLIENT`). Log 14. -/
def tableEncoded (nbits w : Nat) : Encoded :=
  if nbits = 32 then .command (BitVec.ofNat 32 w) else .packet (tablePacketBytes w)

/-- The instruction the decoder reads from an opcode-table row's bits. -/
def decodeTableWord (nbits w : Nat) : Option Instr :=
  match decode (tableEncoded nbits w) with
  | .ok i => some i
  | .error _ => none

/-- The registers of R21 with one offset each. -/
def scalarRegs : List (Nat × Reg) :=
  [(0x000, .cmd), (0x004, .status), (0x008, .statusClr), (0x00C, .cfg),
   (0x010, .minClientVersion), (0x014, .maxUtcOffset), (0x018, .nowLo), (0x01C, .nowHi),
   (0x020, .af), (0x024, .srcPort), (0x028, .pktIndex), (0x02C, .inLen),
   (0x030, .updOff), (0x034, .updLen), (0x038, .refreshCount)] ++
  [(0x060, .key0Lo), (0x064, .key0Hi), (0x068, .key1Lo), (0x06C, .key1Hi),
   (0x070, .resultLo), (0x074, .resultHi), (0x078, .resIndex), (0x07C, .outLen),
   (0x080, .resKey0Lo), (0x084, .resKey0Hi), (0x088, .resKey1Lo), (0x08C, .resKey1Hi)]

/-- The register at a word-aligned offset; none at a reserved one (R21, R61). -/
def regAt (off : Nat) : Option Reg :=
  if off % 4 ≠ 0 then none
  else if off < 0x040 then scalarRegs.lookup off
  else if h : off / 4 - 0x10 < 4 then some (.srcAddr ⟨off / 4 - 0x10, h⟩)
  else if h : off / 4 - 0x14 < 4 then some (.dstAddr ⟨off / 4 - 0x14, h⟩)
  else if off < 0x100 then scalarRegs.lookup off
  else if h : off / 4 - 0x40 < 15 then some (.masterSeed ⟨off / 4 - 0x40, h⟩)
  else if off < 0x200 then none
  else if h : off / 4 - 0x80 < 128 then some (.inBuf ⟨off / 4 - 0x80, h⟩)
  else if h : off / 4 - 0x100 < 64 then some (.outBuf ⟨off / 4 - 0x100, h⟩)
  else none

/-- The offset of a register (R21). -/
def Reg.offset : Reg → Nat
  | .cmd => 0x000
  | .status => 0x004
  | .statusClr => 0x008
  | .cfg => 0x00C
  | .minClientVersion => 0x010
  | .maxUtcOffset => 0x014
  | .nowLo => 0x018
  | .nowHi => 0x01C
  | .af => 0x020
  | .srcPort => 0x024
  | .pktIndex => 0x028
  | .inLen => 0x02C
  | .updOff => 0x030
  | .updLen => 0x034
  | .refreshCount => 0x038
  | .srcAddr i => 0x040 + 4 * i.val
  | .dstAddr i => 0x050 + 4 * i.val
  | .key0Lo => 0x060
  | .key0Hi => 0x064
  | .key1Lo => 0x068
  | .key1Hi => 0x06C
  | .resultLo => 0x070
  | .resultHi => 0x074
  | .resIndex => 0x078
  | .outLen => 0x07C
  | .resKey0Lo => 0x080
  | .resKey0Hi => 0x084
  | .resKey1Lo => 0x088
  | .resKey1Hi => 0x08C
  | .masterSeed i => 0x100 + 4 * i.val
  | .inBuf i => 0x200 + 4 * i.val
  | .outBuf i => 0x400 + 4 * i.val

/-- The access of a register (R21). -/
def Reg.access : Reg → Access
  | .cmd => .writeOnly
  | .status => .readOnly
  | .statusClr => .writeOneToClear
  | .refreshCount => .readOnly
  | .resultLo => .readOnly
  | .resultHi => .readOnly
  | .resIndex => .readOnly
  | .outLen => .readOnly
  | .resKey0Lo => .readOnly
  | .resKey0Hi => .readOnly
  | .resKey1Lo => .readOnly
  | .resKey1Hi => .readOnly
  | .masterSeed _ => .writeOnly
  | .outBuf _ => .readOnly
  | _ => .readWrite

/-- The bits of a register that are not reserved (R21 to R25). Every bit of a word written to `CMD` counts (R93). -/
def Reg.implemented : Reg → U32
  | .status => 0xFFFF010F
  | .statusClr => 0x00000100
  | .cfg => 0x0000000F
  | .af => 0x000000FF
  | .srcPort => 0x0000FFFF
  | .pktIndex => 0x000000FF
  | .inLen => 0x0000FFFF
  | .updOff => 0x0000FFFF
  | .updLen => 0x0000FFFF
  | .resIndex => 0x000000FF
  | .outLen => 0x0000FFFF
  | _ => 0xFFFFFFFF

end Sys2Proof
end

