-- ==== Sys2Proof/Machine/State.lean ====
section
/-! DEFINITION. The state of one instance (10_state.md), the reasons a step stops, and the state after reset
(70_reset_and_hazards.md R330). State is plain data, grouped as the spec groups it. -/

namespace Sys2Proof.Machine

/-- The command errors of 60_exceptions.md R301, each the cause of one `ERR` code. -/
inductive CmdError where
  | badOpcode
  | sipNotActive
  | range
  | badIndex
  | afUnsupported
  | shortTrigger
deriving DecidableEq, Repr

/-- The reject reasons of 43_validator.md R223 (code 0x00, `ACCEPT`, is no rejection). -/
inductive RejectReason where
  | shortHeader
  | badTag
  | badPacketId
  | badClientId
  | badFlags
  | unknownCommand
  | badLength
  | oldVersion
  | timeOffset
  | badIndex
  | afUnsupported
  | badCookie
  | lenRange
deriving DecidableEq, Repr

/-- The fields of `STATUS` (R22) but `SIP_ACTIVE`, whose one home is `Sip.active`. -/
structure Status where
  /-- `BUSY`. -/
  busy : Bool
  /-- `DONE`. -/
  done : Bool
  /-- `MATCH`. -/
  matched : Bool
  /-- `WERR`. -/
  werr : Bool
  /-- `ERR`. -/
  err : Byte
  /-- `REASON`. -/
  reason : Byte
deriving DecidableEq, Repr

/-- The operand registers the host writes (R25 to R32). -/
structure Regs where
  /-- `CFG[3:0]` (R25). -/
  cfg : BitVec 4
  /-- `MIN_CLIENT_VERSION` (R26). -/
  minClientVersion : U32
  /-- `MAX_UTC_OFFSET` (R26). -/
  maxUtcOffset : U32
  /-- `NOW` (R27). -/
  now : U64
  /-- `AF` (R28). -/
  af : Byte
  /-- `SRC_PORT` (R28). -/
  srcPort : U16
  /-- `PKT_INDEX` (R30). -/
  pktIndex : Byte
  /-- `IN_LEN` (R31). -/
  inLen : U16
  /-- `UPD_OFF` (R31). -/
  updOff : U16
  /-- `UPD_LEN` (R31). -/
  updLen : U16
  /-- `SRC_ADDR0` to `SRC_ADDR3` (R28). -/
  srcAddr : Vector U32 4
  /-- `DST_ADDR0` to `DST_ADDR3` (R28). -/
  dstAddr : Vector U32 4
  /-- `KEY0` (R32). -/
  key0 : U64
  /-- `KEY1` (R32). -/
  key1 : U64
  /-- `MASTER_SEED0` to `MASTER_SEED14` (R29). -/
  masterSeed : Vector U32 15
deriving DecidableEq, Repr

/-- The result registers (R33 to R36). -/
structure Results where
  /-- `RESULT` (R33). -/
  result : U64
  /-- `RES_INDEX` (R34). -/
  resIndex : Byte
  /-- `RES_KEY0` (R35). -/
  resKey0 : U64
  /-- `RES_KEY1` (R35). -/
  resKey1 : U64
  /-- `OUT_LEN` (R36). -/
  outLen : U16
deriving DecidableEq, Repr

/-- One seed cache slot (R40). -/
structure Slot where
  /-- `VALID`. -/
  valid : Bool
  /-- `TAG`, the window the digest was computed for. -/
  tag : U64
  /-- `DIGEST`, 64 bytes. -/
  digest : Vector Byte 64
deriving DecidableEq, Repr

/-- The seed cache: two slots (R40) and `REFRESH_COUNT` (R37). -/
structure Cache where
  slot0 : Slot
  slot1 : Slot
  refreshCount : U32
deriving DecidableEq, Repr

/-- The four working words of SipHash, `v0` to `v3`. -/
structure SipV where
  v0 : U64
  v1 : U64
  v2 : U64
  v3 : U64
deriving DecidableEq, Repr

/-- The incremental SipHash state (R50). -/
structure Sip where
  /-- `SIP_V0` to `SIP_V3`. -/
  v : SipV
  /-- `SIP_TAIL`. -/
  tail : U64
  /-- `SIP_NTAIL`. -/
  ntail : BitVec 3
  /-- `SIP_COUNT`. -/
  count : U64
  /-- `SIP_ACTIVE`. -/
  active : Bool
deriving DecidableEq, Repr

/-- A SipKey (R16): two 64-bit words. -/
structure SipKey where
  key0 : U64
  key1 : U64
deriving DecidableEq, Repr

/-- The bytes of `IN_BUF` and `OUT_BUF` that something has written since reset, by register-space offset, with the
offsets strictly rising. An offset not listed holds no known byte (R331); see `bufByte`. -/
abbrev Memory := List Host.Cell

/-- The model's own fields (logs 1 to 4, 16): the environment's side of the instance. -/
structure Env where
  /-- Which instance of its system this is: it tells the free values of two instances apart (log 16). -/
  unit : Nat
  /-- Host accesses issued and not yet performed, oldest first (R70). -/
  pending : List HostAccess
  /-- Values returned by host reads, newest first (R18). -/
  observed : List U32
  /-- Steps left before the command in flight completes (R347). -/
  wait : Nat
  /-- Commands accepted so far: the index of the next `LATENCY` draw. -/
  accepted : Nat
  /-- `RNG` draws taken so far: the index of the next (R263). -/
  draws : Nat
  /-- Resets seen so far: the index of the unspecified buffer contents (R331). -/
  epoch : Nat
deriving DecidableEq, Repr

/-- The state of one instance (R55). -/
structure State where
  /-- `STATUS`. -/
  status : Status
  /-- The command word latched at acceptance (R71), `CMD`. The spec says what it holds only while a command is in
  flight (R53, R71), and that an illegal word is not kept (R301); that a legal word stays after its completion, and that an
  illegal one leaves 0, is the model's DESIGN CHOICE (log 19). -/
  cmd : U32
  /-- The operand registers. -/
  regs : Regs
  /-- The result registers. -/
  res : Results
  /-- The seed cache. -/
  cache : Cache
  /-- The incremental SipHash state. -/
  sip : Sip
  /-- `IN_BUF` and `OUT_BUF`. -/
  mem : Memory
  /-- The model's own fields. -/
  env : Env
deriving DecidableEq, Repr

/-- Why the machine stops with a fault. -/
inductive Fault where
  /-- Raised by a host access at an offset at or past 0x1000, outside the register space (R60). Safe: the model
  stops where the spec gives no register space to answer. -/
  | outsideRegisterSpace (off : Nat)
deriving DecidableEq, Repr

/-- Why the machine refuses to go on. -/
inductive Refusal where
  /-- Raised by an arm of `exec` whose instruction has no meaning yet. Safe: nothing can be proved of it. -/
  | notModelled (mnemonic : String)
  /-- Raised by a host access that is not an aligned 32-bit access (R63, I-BUS). Safe: the spec says a model
  refuses it. -/
  | badBusAccess (off width : Nat)
deriving DecidableEq, Repr

/-- `STATUS` after reset (R330). -/
def Status.afterReset : Status :=
  { busy := false, done := false, matched := false, werr := false, err := 0, reason := 0 }

/-- The operand registers after reset (R330). -/
def Regs.afterReset : Regs :=
  { cfg := 0, minClientVersion := 0, maxUtcOffset := 0, now := 0, af := 0, srcPort := 0, pktIndex := 0,
    inLen := 0, updOff := 0, updLen := 0, srcAddr := .replicate 4 0, dstAddr := .replicate 4 0,
    key0 := 0, key1 := 0, masterSeed := .replicate 15 0 }

/-- The result registers after reset (R330). -/
def Results.afterReset : Results :=
  { result := 0, resIndex := 0, resKey0 := 0, resKey1 := 0, outLen := 0 }

/-- A slot after reset: `VALID = 0` (R44, R330); `TAG` and `DIGEST` are unspecified, zero by DESIGN CHOICE (log 9). -/
def Slot.afterReset : Slot := { valid := false, tag := 0, digest := .replicate 64 0 }

/-- The seed cache after reset (R330). -/
def Cache.afterReset : Cache :=
  { slot0 := .afterReset, slot1 := .afterReset, refreshCount := 0 }

/-- The SipHash state after reset: `SIP_ACTIVE = 0` (R330); the rest is unspecified, zero by DESIGN CHOICE (log 10). -/
def Sip.afterReset : Sip := { v := ⟨0, 0, 0, 0⟩, tail := 0, ntail := 0, count := 0, active := false }

/-- The model's own fields at the start (logs 1 to 4); an instance by itself is instance 0 (log 16). -/
def Env.start : Env := { unit := 0, pending := [], observed := [], wait := 0, accepted := 0, draws := 0, epoch := 0 }

/-- The machine right after reset (R330): idle, every register at its reset value, no buffer byte written. -/
def State.reset : State :=
  { status := .afterReset, cmd := 0, regs := .afterReset, res := .afterReset, cache := .afterReset,
    sip := .afterReset, mem := [], env := .start }

end Sys2Proof.Machine
end

