-- ==== Sys2Proof/Machine/Flags.lean ====
section
/-! DEFINITION. The `STATUS` flags (10_state.md R22, R54): the codes of `ERR` and `REASON`, and the word a host
reads. -/

namespace Sys2Proof.Machine

/-- The `ERR` codes (R301). -/
def CmdError.code : CmdError → Byte
  | .badOpcode => 0x01
  | .sipNotActive => 0x02
  | .range => 0x03
  | .badIndex => 0x04
  | .afUnsupported => 0x05
  | .shortTrigger => 0x06

/-- The `REASON` codes (R223). -/
def RejectReason.code : RejectReason → Byte
  | .shortHeader => 0x01
  | .badTag => 0x02
  | .badPacketId => 0x03
  | .badClientId => 0x04
  | .badFlags => 0x05
  | .unknownCommand => 0x06
  | .badLength => 0x07
  | .oldVersion => 0x08
  | .timeOffset => 0x09
  | .badIndex => 0x0A
  | .afUnsupported => 0x0B
  | .badCookie => 0x0C
  | .lenRange => 0x0D

/-- The reject reason of a header check the decoder makes (R224 to R228, R230). -/
def rejectReasonOf : PacketReject → RejectReason
  | .shortHeader => .shortHeader
  | .badTag => .badTag
  | .badPacketId => .badPacketId
  | .badClientId => .badClientId
  | .badFlags => .badFlags
  | .unassignedCommand => .unknownCommand

/-- The word a host reads from `STATUS` (R22): `REASON`, `ERR`, seven reserved bits, `WERR`, four reserved bits,
`SIP_ACTIVE`, `MATCH`, `DONE`, `BUSY`, from bit 31 down. -/
def statusWord (s : State) : U32 :=
  s.status.reason ++ s.status.err ++ (0 : BitVec 7) ++ BitVec.ofBool s.status.werr ++ (0 : BitVec 4) ++
    BitVec.ofBool s.sip.active ++ BitVec.ofBool s.status.matched ++ BitVec.ofBool s.status.done ++
    BitVec.ofBool s.status.busy

end Sys2Proof.Machine
end

