-- ==== Sys2Proof/Machine/Ops.lean ====
section
/-! DEFINITION. The named operations over the state: the buffer memory, acceptance and completion of a command
(20_memory.md R71, R72), ending a command with an error (60_exceptions.md R300), and the reset input. -/

namespace Sys2Proof.Machine

/-- The byte listed at an offset, if one is. -/
def Memory.read? : Memory → Nat → Option Byte
  | [], _ => none
  | (x, b) :: rest, a => if a = x then some b else if a < x then none else Memory.read? rest a

/-- Store one byte, keeping the offsets strictly rising. -/
def Memory.write : Memory → Nat → Byte → Memory
  | [], a, v => [(a, v)]
  | (x, b) :: rest, a, v =>
    if a = x then (a, v) :: rest
    else if a < x then (a, v) :: (x, b) :: rest
    else (x, b) :: Memory.write rest a v

/-- Store a byte string from an offset up. -/
def Memory.writeBytes (m : Memory) (a : Nat) : List Byte → Memory
  | [] => m
  | b :: bs => Memory.write (Memory.writeBytes m (a + 1) bs) a b

/-- The canonical form: offsets strictly rising. An unlisted offset holds no known byte, so no entry can equal
what an unlisted offset reads as (log 4). -/
abbrev Memory.wf (m : Memory) : Prop := m.Pairwise fun x y => x.1 < y.1

/-- The buffer byte at a register-space offset: what was last written there since reset, else an unspecified byte
(R331): a free value of this instance and this reset, fixed until the byte is written (I-BUF, log 4). -/
def bufByte (s : State) (off : Nat) : Byte :=
  (Memory.read? s.mem off).getD (Config.unwrittenByte s.env.unit s.env.epoch off)

/-- Command acceptance (R71): in one step `BUSY <- 1`, `DONE <- 0`, `MATCH <- 0`, `ERR <- 0`, and the word is
latched. How long the command takes is drawn here, for this instance and this command alone (R347, log 2). -/
def accept (w : U32) (s : State) : State :=
  { s with
    status := { s.status with busy := true, done := false, matched := false, err := 0 }
    cmd := w
    env := { s.env with wait := Config.latency s.env.unit s.env.accepted, accepted := s.env.accepted + 1 } }

/-- Completion with an `ERR` code (R300): `BUSY <- 0`, `DONE <- 1`, `ERR <- code`. What the latched word of a legal command
holds after completion is open (R53 and R71 speak of the command in flight only): the model leaves the old word in
`cmd`, which nothing reads while idle. DESIGN CHOICE, log 19. For an illegal word see `completeIllegal`. -/
def completeWith (code : Byte) (s : State) : State :=
  { s with status := { s.status with busy := false, done := true, err := code } }

/-- Completion without error. -/
def complete (s : State) : State := completeWith 0 s

/-- `raise <Error>` (R13, R300): end the command with the error's code and no other change. It stands where another
machine takes an exception: there is no trap entry and no return from one (R305, R306). -/
def raise (e : CmdError) (s : State) : State := completeWith e.code s

/-- The latched command word is not kept: `cmd` takes its reset value (R21). That it is this value that stands in place of
the word is a DESIGN CHOICE (log 19). -/
def dropCommand (s : State) : State := { s with cmd := 0 }

/-- The illegal command (R93, R301): it changes no state and completes with `ERR_BAD_OPCODE`, and its word is not kept. -/
def completeIllegal (s : State) : State := raise .badOpcode (dropCommand s)

/-- `reject(r)` of R221: `MATCH <- 0`, `REASON <- r`, and the command ends with `ERR = 0`. -/
def reject (r : RejectReason) (s : State) : State :=
  complete { s with status := { s.status with matched := false, reason := r.code } }

/-- Acceptance of a packet (R238): `MATCH <- 1`, `REASON <- 0x00`. -/
def acceptPacket (s : State) : State :=
  complete { s with status := { s.status with matched := true, reason := 0 } }

/-- `VALIDATE`'s range error (R230): `REASON <- 0x0D`, `MATCH = 0`, `ERR_RANGE` (log 18). -/
def raiseLenRange (s : State) : State :=
  raise .range { s with status := { s.status with matched := false, reason := RejectReason.lenRange.code } }

/-- `Draw(4)` (R13, R263): four free bytes, drawn by this instance for this command alone (I-RNG, log 3), and the draw
is used up. -/
def draw4 (s : State) : List Byte × State :=
  ((List.range 4).map (Config.rngByte s.env.unit s.env.draws),
    { s with env := { s.env with draws := s.env.draws + 1 } })

/-- Write a reply (R261): exactly `OUT_BUF[0 .. OUT_LEN)` and `OUT_LEN`. -/
def writeReply (bytes : List Byte) (s : State) : State :=
  { s with
    mem := Memory.writeBytes s.mem Config.outBufBase bytes
    res := { s.res with outLen := BitVec.ofNat 16 bytes.length } }

/-- The reset input (R330): every piece of state takes its reset value and a command in flight is abandoned. What
is the environment's stays: its accesses, what it has read, which instance this is, and the numbers of the draws; the
unspecified buffer contents are new ones (R331, log 15). -/
def resetInput (s : State) : State :=
  { State.reset with env := { s.env with wait := 0, epoch := s.env.epoch + 1 } }

/-- Latch a command word so that it completes in the very next step. -/
def placeCommand (w : U32) (s : State) : State :=
  let t := accept w s
  { t with env := { t.env with wait := 0 } }

/-- Put a packet into `IN_BUF` with its length in `IN_LEN`. -/
def placePacket (P : List Byte) (s : State) : State :=
  { s with
    mem := Memory.writeBytes s.mem Config.inBufBase P
    regs := { s.regs with inLen := BitVec.ofNat 16 P.length } }

/-- Put an encoded instruction where the next step finds it: an engine command in flight, or a packet in `IN_BUF`
under a `VALIDATE` in flight (log 14). -/
def placeEncoded (e : Encoded) (s : State) : State :=
  match e with
  | .command w => placeCommand w s
  | .packet P => placeCommand (commandWord 0x30) (placePacket P s)

end Sys2Proof.Machine
end

