-- ==== Sys2Proof/Machine/Operands.lean ====
section
/-! DEFINITION. The operands of the commands (30_encoding.md R94) as views of the registers and buffers. -/

namespace Sys2Proof.Machine

/-- `CFG.ZRS` (R25). -/
def zrs (s : State) : Bool := s.regs.cfg.getLsbD 0

/-- `CFG.MINVER_EN` (R25). -/
def minverEn (s : State) : Bool := s.regs.cfg.getLsbD 1

/-- `CFG.UTC_EN` (R25). -/
def utcEn (s : State) : Bool := s.regs.cfg.getLsbD 2

/-- `CFG.COOKIE_EN` (R25). -/
def cookieEn (s : State) : Bool := s.regs.cfg.getLsbD 3

/-- The byte string held by an array of 32-bit registers, low byte first (R28, R29, R64). -/
def registerBytes (ws : Vector U32 n) : List Byte := ws.toList.flatMap le32bytes

/-- `SRC_ADDR`, 16 bytes (R28). -/
def srcAddrBytes (s : State) : List Byte := registerBytes s.regs.srcAddr

/-- `DST_ADDR`, 16 bytes (R28). -/
def dstAddrBytes (s : State) : List Byte := registerBytes s.regs.dstAddr

/-- `MASTER_SEED`, 60 bytes (R29). -/
def masterSeedBytes (s : State) : List Byte := registerBytes s.regs.masterSeed

/-- `IN_BUF[a]` (R38). -/
def inByte (s : State) (a : Nat) : Byte := bufByte s (Config.inBufBase + a)

/-- `OUT_BUF[a]` (R39). -/
def outByte (s : State) (a : Nat) : Byte := bufByte s (Config.outBufBase + a)

/-- `IN_BUF[off .. off + len)`. -/
def inBytes (s : State) (off len : Nat) : List Byte := (List.range len).map fun i => inByte s (off + i)

/-- `OUT_BUF[off .. off + len)`. -/
def outBytes (s : State) (off len : Nat) : List Byte := (List.range len).map fun i => outByte s (off + i)

/-- The hash input `IN_BUF[UPD_OFF .. UPD_OFF + UPD_LEN)`, if it lies in the buffer; the sum is exact (R31, R143). -/
def hashInput (s : State) : Option (List Byte) :=
  if s.regs.updOff.toNat + s.regs.updLen.toNat ≤ Config.inBufSize then
    some (inBytes s s.regs.updOff.toNat s.regs.updLen.toNat)
  else none

/-- The SipHash key operand `(KEY0, KEY1)` (R32). -/
def keyOperand (s : State) : SipKey := ⟨s.regs.key0, s.regs.key1⟩

end Sys2Proof.Machine
end

