-- ==== Sys2Proof/Machine/SipHash.lean ====
section
/-! DEFINITION. The SipHash-2-4 engine (40_siphash.md): the hash, its incremental form, and the commands
`SIP_SETUP`, `SIP_UPDATE`, `SIP_FINALIZE`, `SIP_ONESHOT`. -/

namespace Sys2Proof.Machine

/-- `rotl64` (00_scope.md R11). -/
def rotl64 (x : U64) (r : Nat) : U64 := (x <<< r) ||| (x >>> (64 - r))

/-- `C0` (R130). -/
def sipC0 : U64 := 0x736f6d6570736575

/-- `C1` (R130). -/
def sipC1 : U64 := 0x646f72616e646f6d

/-- `C2` (R130). -/
def sipC2 : U64 := 0x6c7967656e657261

/-- `C3` (R130). -/
def sipC3 : U64 := 0x7465646279746573

/-- `SIPROUND` (R131), one line of the rule per block. -/
def sipRound (v : SipV) : SipV :=
  let v0 := v.v0 + v.v1
  let v1 := rotl64 v.v1 13 ^^^ v0
  let v0 := rotl64 v0 32
  let v2 := v.v2 + v.v3
  let v3 := rotl64 v.v3 16 ^^^ v2
  let v0 := v0 + v3
  let v3 := rotl64 v3 21 ^^^ v0
  let v2 := v2 + v1
  let v1 := rotl64 v1 17 ^^^ v2
  let v2 := rotl64 v2 32
  ⟨v0, v1, v2, v3⟩

/-- `SIPROUND` a number of times. -/
def sipRounds : Nat → SipV → SipV
  | 0, v => v
  | n + 1, v => sipRounds n (sipRound v)

/-- `SipInit` (R132). -/
def sipInit (k : SipKey) : SipV :=
  ⟨k.key0 ^^^ sipC0, k.key1 ^^^ sipC1, k.key0 ^^^ sipC2, k.key1 ^^^ sipC3⟩

/-- `SipCompress` (R133). -/
def sipCompress (v : SipV) (m : U64) : SipV :=
  let r := sipRounds Config.cRounds { v with v3 := v.v3 ^^^ m }
  { r with v0 := r.v0 ^^^ m }

/-- The final length-tagged block of R134: `count mod 256` in the top byte, the tail bytes below. -/
def sipLastBlock (tail count : U64) : U64 := ((count % 256) <<< 56) ||| tail

/-- `SipFinal` (R134). -/
def sipFinal (v : SipV) (tail count : U64) : U64 :=
  let c := sipCompress v (sipLastBlock tail count)
  let f := sipRounds Config.dRounds { c with v2 := c.v2 ^^^ 0xff }
  f.v0 ^^^ f.v1 ^^^ f.v2 ^^^ f.v3

/-- Absorb the first `n` 8-byte blocks of a message (R135). -/
def sipBlocks : Nat → List Byte → SipV → SipV
  | 0, _, v => v
  | n + 1, M, v => sipBlocks n (M.drop 8) (sipCompress v (le64 (M.take 8)))

/-- `SipHash` (R135). -/
def sipHash (k : SipKey) (M : List Byte) : U64 :=
  sipFinal (sipBlocks (M.length / 8) M (sipInit k)) (le64 (M.drop (8 * (M.length / 8))))
    (BitVec.ofNat 64 M.length)

/-- The state `SIP_SETUP` makes (R140). -/
def sipStart (k : SipKey) : Sip := { v := sipInit k, tail := 0, ntail := 0, count := 0, active := true }

/-- `SipAbsorbByte` (R137). -/
def sipAbsorbByte (st : Sip) (x : Byte) : Sip :=
  let tail := st.tail ||| (x.setWidth 64 <<< (8 * st.ntail.toNat))
  let count := st.count + 1
  if st.ntail.toNat + 1 = 8 then
    { st with v := sipCompress st.v tail, tail := 0, ntail := 0, count := count }
  else { st with tail := tail, ntail := st.ntail + 1, count := count }

/-- `SipAbsorb` (R137). -/
def sipAbsorb (st : Sip) (B : List Byte) : Sip := B.foldl sipAbsorbByte st

/-- `SIP_SETUP` (R140). -/
def execSipSetup (s : State) : Host.Outcome State Fault Refusal :=
  .next (complete { s with sip := sipStart (keyOperand s) })

/-- `SIP_UPDATE` (R142): activity is checked before range. -/
def execSipUpdate (s : State) : Host.Outcome State Fault Refusal :=
  if s.sip.active = false then .next (raise .sipNotActive s)
  else match hashInput s with
    | none => .next (raise .range s)
    | some B => .next (complete { s with sip := sipAbsorb s.sip B })

/-- `SIP_FINALIZE` (R144): `SipFinal` runs on a copy; only `SIP_ACTIVE` is cleared. -/
def execSipFinalize (s : State) : Host.Outcome State Fault Refusal :=
  if s.sip.active = false then .next (raise .sipNotActive s)
  else .next (complete
    { s with
      res := { s.res with result := sipFinal s.sip.v s.sip.tail s.sip.count }
      sip := { s.sip with active := false } })

/-- `SIP_ONESHOT` (R146): the incremental state is untouched (R52). -/
def execSipOneshot (s : State) : Host.Outcome State Fault Refusal :=
  match hashInput s with
  | none => .next (raise .range s)
  | some B => .next (complete { s with res := { s.res with result := sipHash (keyOperand s) B } })

end Sys2Proof.Machine
end

