-- ==== Sys2Proof/Machine/Cookie.lean ====
section
/-! DEFINITION. The cookie derivation mixer (42_cookie.md) and the command `COMPUTE_COOKIE`. -/

namespace Sys2Proof.Machine

/-- The address length `L` of a family (R201, R204): 4 for IPv4, 16 for IPv6, none for any other `AF`. -/
def addressLength (af : Byte) : Option Nat :=
  if af = 4 then some 4 else if af = 6 then some 16 else none

/-- The 4-byte port field under each layout (R202, I-PORT). -/
def portFieldOf (layout : PortLayout) (port : U16) : List Byte :=
  match layout with
  | .be32Zext => [0, 0, byteOf port 1, byteOf port 0]
  | .wirePad => [byteOf port 1, byteOf port 0, 0, 0]
  | .le32Zext => [byteOf port 0, byteOf port 1, 0, 0]

/-- `PortField(PORT)` (R202). -/
def portField (port : U16) : List Byte := portFieldOf Config.portFieldLayout port

/-- `CookieMsg` (R201) for addresses of length `L`. -/
def cookieMsg (L : Nat) (src dst : List Byte) (port : U16) : List Byte :=
  src.take L ++ dst.take L ++ portField port

/-- `Cookie` (R204); none where it returns Unsupported. -/
def cookie (af : Byte) (src dst : List Byte) (port : U16) (k : SipKey) : Option U64 :=
  (addressLength af).map fun L => sipHash k (cookieMsg L src dst port)

/-- The cookie of the client identity operands (R28) under a key. -/
def cookieOperand (s : State) (k : SipKey) : Option U64 :=
  cookie s.regs.af (srcAddrBytes s) (dstAddrBytes s) s.regs.srcPort k

/-- `COMPUTE_COOKIE` (R205). -/
def execComputeCookie (s : State) : Host.Outcome State Fault Refusal :=
  match cookieOperand s (keyOperand s) with
  | none => .next (raise .afUnsupported s)
  | some c => .next (complete { s with res := { s.res with result := c } })

end Sys2Proof.Machine
end

