-- ==== Sys2Proof/Machine/Sha512.lean ====
section
/-! DEFINITION. `SHA512` (00_scope.md R14): the SHA-512 of FIPS 180-4. The spec names the standard and gives known
answers (95_test_vectors.md W10); the definition itself is PRESUMED from the standard (log 6). -/

namespace Sys2Proof.Machine

/-- The whole part of the `k`-th root of `N`, for `N` below `2 ^ (k * n)`: one binary digit per step. -/
def wholeRoot (k : Nat) : (n N : Nat) → Nat
  | 0, _ => 0
  | n + 1, N =>
    let r := 2 * wholeRoot k n (N / 2 ^ k)
    if (r + 1) ^ k ≤ N then r + 1 else r

/-- The first 64 fraction bits of the `k`-th root of `p`, for `p < 2 ^ (4 * k)`: the root of `p * 2 ^ (64 * k)` is
`2 ^ 64` times the root of `p`. -/
def rootFraction (k p : Nat) : U64 := BitVec.ofNat 64 (wholeRoot k 68 (p * 2 ^ (64 * k)))

/-- The first 80 primes, 2 to 409: below 23 * 23, the numbers above 1 that no other prime below 23 divides. -/
def shaPrimes : List Nat :=
  (List.range 410).filter fun n => decide (1 < n) && [2, 3, 5, 7, 11, 13, 17, 19].all fun d => n == d || n % d != 0

/-- The round constants: FIPS 180-4 defines them as the first 64 fraction bits of the primes' cube roots. -/
def shaConstants : List U64 := shaPrimes.map (rootFraction 3)

/-- The eight working words. -/
structure ShaWords where
  a : U64
  b : U64
  c : U64
  d : U64
  e : U64
  f : U64
  g : U64
  h : U64
deriving DecidableEq, Repr

/-- The working words in order. -/
def ShaWords.words (v : ShaWords) : List U64 := [v.a, v.b, v.c, v.d, v.e, v.f, v.g, v.h]

/-- The working words from a list in order. -/
def ShaWords.ofWords (ws : List U64) : ShaWords :=
  let word (i : Nat) := ws.getD i 0
  { a := word 0, b := word 1, c := word 2, d := word 3, e := word 4, f := word 5, g := word 6, h := word 7 }

/-- The initial hash value: the first 64 fraction bits of the square roots of the first eight primes. -/
def shaInit : ShaWords := .ofWords ((shaPrimes.take 8).map (rootFraction 2))

/-- The exclusive or of a word's right rotations by these amounts. -/
def mixRotations (amounts : List Nat) (x : U64) : U64 :=
  amounts.foldl (fun acc r => acc ^^^ x.rotateRight r) 0

/-- The schedule word 16 places after the first of a window: the words 0, 1, 9 and 14 of the window make it. -/
def shaNextWord (window : List U64) : U64 :=
  let early := window.getD 1 0
  let late := window.getD 14 0
  window.getD 0 0 + window.getD 9 0 + (mixRotations [1, 8] early ^^^ early >>> 7) +
    (mixRotations [19, 61] late ^^^ late >>> 6)

/-- One round. `kw` is the round constant plus the schedule word; `g ^^^ (e &&& (f ^^^ g))` is the choice of `f` or `g`
by the bits of `e`, and `(a &&& (b ||| c)) ||| (b &&& c)` the majority of `a`, `b` and `c`. -/
def shaRound (v : ShaWords) (kw : U64) : ShaWords :=
  let carried := kw + v.h + (v.g ^^^ (v.e &&& (v.f ^^^ v.g))) + mixRotations [14, 18, 41] v.e
  { h := v.g, g := v.f, f := v.e, e := v.d + carried, d := v.c, c := v.b, b := v.a
    a := carried + ((v.a &&& (v.b ||| v.c)) ||| (v.b &&& v.c)) + mixRotations [28, 34, 39] v.a }

/-- One round for each round constant, with the window of the next 16 schedule words sliding along. -/
def shaRounds : (constants window : List U64) → ShaWords → ShaWords
  | [], _, v => v
  | k :: ks, window, v =>
    shaRounds ks (window.tail ++ [shaNextWord window]) (shaRound v (k + window.headD 0))

/-- The first `n` big-endian 64-bit words of a byte string. -/
def shaBlockWords : Nat → List Byte → List U64
  | 0, _ => []
  | n + 1, B => BitVec.ofNat 64 (beNat (B.take 8)) :: shaBlockWords n (B.drop 8)

/-- The compression of one 128-byte block: the words after the rounds are added to those before. -/
def shaBlock (s : ShaWords) (B : List Byte) : ShaWords :=
  .ofWords (List.zipWith (· + ·) s.words (shaRounds shaConstants (shaBlockWords 16 B) s).words)

/-- The compression of `n` blocks in order. -/
def shaBlocks : Nat → List Byte → ShaWords → ShaWords
  | 0, _, s => s
  | n + 1, B, s => shaBlocks n (B.drop 128) (shaBlock s (B.take 128))

/-- The padded message: a 1 bit, zeros, and the length in bits as a 128-bit big-endian number. -/
def shaPad (M : List Byte) : List Byte :=
  M ++ [0x80] ++ List.replicate ((239 - M.length % 128) % 128) 0 ++
    be64bytes (BitVec.ofNat 64 (8 * M.length / 2 ^ 64)) ++ be64bytes (BitVec.ofNat 64 (8 * M.length))

/-- The 64 bytes of the final hash value. -/
def shaDigest (s : ShaWords) : Vector Byte 64 := ⟨⟨s.words.flatMap be64bytes⟩, rfl⟩

/-- `SHA512` (R14). No proof unfolds it. -/
@[irreducible] def sha512 (M : List Byte) : Vector Byte 64 :=
  shaDigest (shaBlocks ((shaPad M).length / 128) (shaPad M) shaInit)

end Sys2Proof.Machine
end

