-- ==== Sys2Proof/Machine/SeedCache.lean ====
section
/-! DEFINITION. The seed cache (41_seed_cache.md): `GetSecret` with its SHA-512 refresh, and the commands
`GET_SECRET` and `GET_CURRENT_SECRET`. -/

namespace Sys2Proof.Machine

/-- `now & ~3`, the start of the 4-second window (R16 `floor4`, R171). -/
def floor4 (t : U64) : U64 := t &&& ~~~3

/-- `current_cache_index` (R171). -/
def currentCacheIndex (now : U64) : U64 := (now % 8) / 4

/-- `packet_cache_index` (R171). -/
def packetCacheIndex (p : Byte) : U64 := p.setWidth 64 / 4

/-- `packet_cache_time` (R171), modulo 2^64. -/
def packetCacheTime (now : U64) (p : Byte) : U64 :=
  floor4 now - (currentCacheIndex now ^^^ packetCacheIndex p) * 4

/-- The SHA-512 input of a refresh (R174, R176): the seed and the low 32 bits of the window time, little-endian. -/
def deriveInput (seed : List Byte) (t : U64) : List Byte := seed ++ le32bytes (t.setWidth 32)

/-- `DerivedSecret` for a window (R174). -/
def derivedSecret (seed : List Byte) (t : U64) : Vector Byte 64 := sha512 (deriveInput seed t)

/-- `KeyOf(D, j)` (R175, R177): the two little-endian words of the 16-byte slice at `16·j`. -/
def keyOf (D : Vector Byte 64) (j : Nat) : SipKey :=
  ⟨le64 (slice D.toList (16 * j) (16 * j + 8)), le64 (slice D.toList (16 * j + 8) (16 * j + 16))⟩

/-- The slot that serves a packet index: 0 to 3 slot 0, 4 to 7 slot 1 (R172). -/
def slotOf (c : Cache) (p : Byte) : Slot := if p < 4 then c.slot0 else c.slot1

/-- Replace the slot that serves a packet index, leaving the other (R174). -/
def setSlotOf (c : Cache) (p : Byte) (sl : Slot) : Cache :=
  if p < 4 then { c with slot0 := sl } else { c with slot1 := sl }

/-- The hit condition (R173): valid, and all 64 bits of the tag equal. -/
def slotHits (sl : Slot) (t : U64) : Bool := sl.valid && sl.tag == t

/-- The refresh of a slot on a miss (R174). -/
def refreshSlot (seed : List Byte) (p : Byte) (t : U64) (c : Cache) : Cache :=
  { setSlotOf c p ⟨true, t, derivedSecret seed t⟩ with refreshCount := c.refreshCount + 1 }

/-- The cache after a lookup: refreshed if the slot misses (R173, R174). -/
def lookupCache (now : U64) (p : Byte) (s : State) : Cache :=
  let t := packetCacheTime now p
  if slotHits (slotOf s.cache p) t then s.cache else refreshSlot (masterSeedBytes s) p t s.cache

/-- The body of `GetSecret` (R178) for `p < 8`: the key at `p mod 4` in the slot after the lookup, and the state with
the cache the lookup left. -/
def lookupSecret (now : U64) (p : Byte) (s : State) : SipKey × State :=
  let c := lookupCache now p s
  (keyOf (slotOf c p).digest (p.toNat % 4), { s with cache := c })

/-- `GetSecret(now, p)` (R178): `None` only if `p >= 8`. -/
def getSecret (now : U64) (p : Byte) (s : State) : Option (SipKey × State) :=
  if p ≥ 8 then none else some (lookupSecret now p s)

/-- `NOW mod 8`, the packet index of issuance (R182). -/
def currentIndex (now : U64) : Byte := (now % 8).setWidth 8

/-- Write `RES_KEY0`, `RES_KEY1` and `RES_INDEX`. -/
def writeKeyResult (k : SipKey) (p : Byte) (s : State) : State :=
  { s with res := { s.res with resKey0 := k.key0, resKey1 := k.key1, resIndex := p } }

/-- `GET_SECRET` (R180). -/
def execGetSecret (s : State) : Host.Outcome State Fault Refusal :=
  match getSecret s.regs.now s.regs.pktIndex s with
  | none => .next (raise .badIndex s)
  | some (k, t) => .next (complete (writeKeyResult k s.regs.pktIndex t))

/-- `GET_CURRENT_SECRET` (R182). -/
def execGetCurrentSecret (s : State) : Host.Outcome State Fault Refusal :=
  let p := currentIndex s.regs.now
  let (k, t) := lookupSecret s.regs.now p s
  .next (complete (writeKeyResult k p t))

end Sys2Proof.Machine
end

