-- ==== Sys2Proof/Machine/ReplyBuilder.lean ====
section
/-! DEFINITION. The reply formatter (44_reply_builder.md): `BUILD_GET_COOKIE`, `BUILD_SET_COOKIE`, `BUILD_RESET`,
`BUILD_RESET_PUZZLE`. -/

namespace Sys2Proof.Machine

/-- `Hdr(cmd)`, the 14-byte server header (R101, R260). -/
def serverHeader (c : WireCommand) : List Byte := headerConstants ++ [c.code]

/-- The GET_COOKIE packet (R104, R262) with the random field `r`. -/
def getCookieReply (now : U64) (r : List Byte) : List Byte :=
  serverHeader .getCookie ++ be32bytes (now.setWidth 32) ++ r ++ List.replicate 8 0

/-- The last 11 payload bytes of the SET_COOKIE packet (R266): zeros, or seven zeros and the trigger's random field
`IN_BUF[22..26)` reversed (R267). -/
def setCookieTrailer (s : State) : List Byte :=
  if zrs s then List.replicate 11 0 else List.replicate 7 0 ++ (inBytes s 22 4).reverse

/-- The SET_COOKIE packet (R105, R264). -/
def setCookieReply (c : U64) (p : Byte) (trailer : List Byte) : List Byte :=
  serverHeader .setCookie ++ le64bytes c ++ [p] ++ trailer

/-- `BUILD_GET_COOKIE` (R262). -/
def execBuildGetCookie (s : State) : Host.Outcome State Fault Refusal :=
  let (r, t) := draw4 s
  .next (complete (writeReply (getCookieReply s.regs.now r) t))

/-- The trigger's length checks of `BUILD_SET_COOKIE` (R264), made only with `ZRS = 0`. -/
def triggerError (s : State) : Option CmdError :=
  if zrs s then none
  else if s.regs.inLen.toNat > Config.inBufSize then some .range
  else if s.regs.inLen.toNat < 26 then some .shortTrigger
  else none

/-- Write `RESULT` and `RES_INDEX`. -/
def writeCookieResult (c : U64) (p : Byte) (s : State) : State :=
  { s with res := { s.res with result := c, resIndex := p } }

/-- `BUILD_SET_COOKIE` (R264): address family, then the trigger's length, then the key of issuance, the cookie and the
packet. -/
def execBuildSetCookie (s : State) : Host.Outcome State Fault Refusal :=
  let p := currentIndex s.regs.now
  let (k, t) := lookupSecret s.regs.now p s
  match cookieOperand s k with
  | none => .next (raise .afUnsupported s)
  | some c =>
    match triggerError s with
    | some e => .next (raise e s)
    | none => .next (complete (writeCookieResult c p (writeReply (setCookieReply c p (setCookieTrailer s)) t)))

/-- `BUILD_RESET` (R268). -/
def execBuildReset (s : State) : Host.Outcome State Fault Refusal :=
  .next (complete (writeReply (serverHeader .reset ++ Config.resetPayload) s))

/-- `BUILD_RESET_PUZZLE` (R270). -/
def execBuildResetPuzzle (s : State) : Host.Outcome State Fault Refusal :=
  .next (complete (writeReply (serverHeader .resetPuzzle ++ [Config.resetPuzzleByte]) s))

end Sys2Proof.Machine
end

