-- ==== Sys2Proof/Machine/Validator.lean ====
section
/-! DEFINITION. The packet validator (43_validator.md): the treatment of each wire command, and the command
`VALIDATE`. A wire command's meaning is what `VALIDATE` does with a packet of that command once the header checks
have passed: dispatch, length, version, its own check, verdict (log 14). -/

namespace Sys2Proof.Machine

/-- The optional minimum-client-version check fails (R231): enabled, and the version is below the floor. -/
def versionTooOld (version : U32) (s : State) : Bool :=
  minverEn s && decide (version < s.regs.minClientVersion)

/-- `abs(NOW - ts) > MAX_UTC_OFFSET` in exact arithmetic (R234). -/
def timeOffsetTooBig (s : State) (ts : U32) : Bool :=
  decide (((s.regs.now.toNat : Int) - (ts.toNat : Int)).natAbs > s.regs.maxUtcOffset.toNat)

/-- The checks every dispatched packet meets, in order: length (R229), version (R231), then the command's own. -/
def afterDispatch (size : Nat) (version : U32) (payload : List Byte) (own : State → State) (s : State) : State :=
  if payload.length ≠ size then reject .badLength s
  else if versionTooOld version s then reject .oldVersion s
  else own s

/-- The GET_COOKIE timestamp check (R233): `ts = BE32(Q[0..4))`. -/
def checkTimestamp (payload : List Byte) (s : State) : State :=
  if utcEn s && timeOffsetTooBig s (be32 (slice payload 0 4)) then reject .timeOffset s else acceptPacket s

/-- The comparison that ends the GET_PUZZLE check (R235): `Q[0..8)` against `le64bytes(c)`. -/
def compareCookie (payload : List Byte) (c : U64) (s : State) : State :=
  if slice payload 0 8 ≠ le64bytes c then reject .badCookie s else acceptPacket s

/-- The GET_PUZZLE cookie check (R235): packet index, address family, key lookup (which may refresh a slot, R236),
cookie, comparison. -/
def checkCookie (payload : List Byte) (s : State) : State :=
  if cookieEn s = false then acceptPacket s
  else
    let p := payload.getD 8 0
    match getSecret s.regs.now p s with
    | none => reject .badIndex s
    | some (k, t) =>
      match cookieOperand s k with
      | none => reject .afUnsupported s
      | some c => compareCookie payload c t

/-- WIRE_GET_COOKIE: 16-byte payload, timestamp check (R103, R233). -/
def execWireGetCookie (version : U32) (payload : List Byte) (s : State) : Host.Outcome State Fault Refusal :=
  .next (afterDispatch 16 version payload (checkTimestamp payload) s)

/-- WIRE_SET_COOKIE: 20-byte payload, length only (R103, R237). -/
def execWireSetCookie (version : U32) (payload : List Byte) (s : State) : Host.Outcome State Fault Refusal :=
  .next (afterDispatch 20 version payload acceptPacket s)

/-- WIRE_GET_PUZZLE: 20-byte payload, cookie check (R103, R235). -/
def execWireGetPuzzle (version : U32) (payload : List Byte) (s : State) : Host.Outcome State Fault Refusal :=
  .next (afterDispatch 20 version payload (checkCookie payload) s)

/-- WIRE_SET_PUZZLE: 244-byte payload, length only (R103, R237). -/
def execWireSetPuzzle (version : U32) (payload : List Byte) (s : State) : Host.Outcome State Fault Refusal :=
  .next (afterDispatch 244 version payload acceptPacket s)

/-- WIRE_SOLVE_PUZZLE: no payload size, rejected at dispatch (R103, R228). -/
def execWireSolvePuzzle (_version : U32) (_payload : List Byte) (s : State) : Host.Outcome State Fault Refusal :=
  .next (reject .unknownCommand s)

/-- WIRE_RESET_PUZZLE: 1-byte payload, length only (R103, R237). -/
def execWireResetPuzzle (version : U32) (payload : List Byte) (s : State) : Host.Outcome State Fault Refusal :=
  .next (afterDispatch 1 version payload acceptPacket s)

/-- WIRE_RESET: no entry in the size table, rejected at dispatch (R103, R228). -/
def execWireReset (_version : U32) (_payload : List Byte) (s : State) : Host.Outcome State Fault Refusal :=
  .next (reject .unknownCommand s)

/-- Command dispatch of a packet whose header passed (R228). -/
def dispatchPacket (p : ClientPacket) (s : State) : Host.Outcome State Fault Refusal :=
  match p.command with
  | .getCookie => execWireGetCookie p.version p.payload s
  | .setCookie => execWireSetCookie p.version p.payload s
  | .getPuzzle => execWireGetPuzzle p.version p.payload s
  | .setPuzzle => execWireSetPuzzle p.version p.payload s
  | .solvePuzzle => execWireSolvePuzzle p.version p.payload s
  | .resetPuzzle => execWireResetPuzzle p.version p.payload s
  | .reset => execWireReset p.version p.payload s

/-- The packet under validation, `P = IN_BUF[0 .. IN_LEN)` (R109). -/
def packetOperand (s : State) : List Byte := inBytes s 0 s.regs.inLen.toNat

/-- `VALIDATE` (R221): range, header checks, then the wire command's treatment. -/
def execValidate (s : State) : Host.Outcome State Fault Refusal :=
  if s.regs.inLen.toNat > Config.inBufSize then .next (raiseLenRange s)
  else match decodePacket (packetOperand s) with
    | .error r => .next (reject (rejectReasonOf r) s)
    | .ok p => dispatchPacket p s

end Sys2Proof.Machine
end

