-- ==== Sys2Proof/Machine/Dispatch.lean ====
section
/-! DEFINITION. Every instruction to its meaning, one arm per constructor. -/

namespace Sys2Proof.Machine

/-- The whole effect of an instruction from the state at its acceptance to its completion (R72, R300). -/
def exec (i : Instr) (s : State) : Host.Outcome State Fault Refusal :=
  match i with
  | .sipSetup => Sys2Proof.Machine.execSipSetup s
  | .sipUpdate => Sys2Proof.Machine.execSipUpdate s
  | .sipFinalize => Sys2Proof.Machine.execSipFinalize s
  | .sipOneshot => Sys2Proof.Machine.execSipOneshot s
  | .getSecret => Sys2Proof.Machine.execGetSecret s
  | .getCurrentSecret => Sys2Proof.Machine.execGetCurrentSecret s
  | .computeCookie => Sys2Proof.Machine.execComputeCookie s
  | .validate => Sys2Proof.Machine.execValidate s
  | .buildGetCookie => Sys2Proof.Machine.execBuildGetCookie s
  | .buildSetCookie => Sys2Proof.Machine.execBuildSetCookie s
  | .buildReset => Sys2Proof.Machine.execBuildReset s
  | .buildResetPuzzle => Sys2Proof.Machine.execBuildResetPuzzle s
  | .wireGetCookie version payload => Sys2Proof.Machine.execWireGetCookie version payload s
  | .wireSetCookie version payload => Sys2Proof.Machine.execWireSetCookie version payload s
  | .wireGetPuzzle version payload => Sys2Proof.Machine.execWireGetPuzzle version payload s
  | .wireSetPuzzle version payload => Sys2Proof.Machine.execWireSetPuzzle version payload s
  | .wireSolvePuzzle version payload => Sys2Proof.Machine.execWireSolvePuzzle version payload s
  | .wireResetPuzzle version payload => Sys2Proof.Machine.execWireResetPuzzle version payload s
  | .wireReset version payload => Sys2Proof.Machine.execWireReset version payload s

end Sys2Proof.Machine
end

