-- ==== Sys2Proof/WellFormed.lean ====
section
/-! DEFINITION. Which terms of Syntax are well formed. -/

namespace Sys2Proof

/-- A client packet is well formed when its payload has the size its command's table entry gives (R103, R108); for a
command without an entry, when the packet fits `IN_BUF` (log 14). -/
def ClientPacket.wf (p : ClientPacket) : Bool :=
  match p.command.size with
  | some n => p.payload.length == n
  | none => decide (Config.clientHdrLen + p.payload.length ≤ Config.inBufSize)

/-- Engine commands have no operand field (R90), so each is well formed; a wire command is as its packet is. -/
def Instr.wf : Instr → Bool
  | .sipSetup => true
  | .sipUpdate => true
  | .sipFinalize => true
  | .sipOneshot => true
  | .getSecret => true
  | .getCurrentSecret => true
  | .computeCookie => true
  | .validate => true
  | .buildGetCookie => true
  | .buildSetCookie => true
  | .buildReset => true
  | .buildResetPuzzle => true
  | .wireGetCookie v p => ClientPacket.wf ⟨.getCookie, v, p⟩
  | .wireSetCookie v p => ClientPacket.wf ⟨.setCookie, v, p⟩
  | .wireGetPuzzle v p => ClientPacket.wf ⟨.getPuzzle, v, p⟩
  | .wireSetPuzzle v p => ClientPacket.wf ⟨.setPuzzle, v, p⟩
  | .wireSolvePuzzle v p => ClientPacket.wf ⟨.solvePuzzle, v, p⟩
  | .wireResetPuzzle v p => ClientPacket.wf ⟨.resetPuzzle, v, p⟩
  | .wireReset v p => ClientPacket.wf ⟨.reset, v, p⟩

/-- A word access the bus has: 4 bytes wide, at an aligned offset (R63). -/
def wordAccess (off width : Nat) : Bool := width == 4 && off % 4 == 0

/-- A host access is well formed when it is an aligned 32-bit access inside the register space (R60, R63). -/
def HostAccess.wf : HostAccess → Bool
  | .read off width => wordAccess off width && decide (off < Config.registerSpaceSize)
  | .write off width _ => wordAccess off width && decide (off < Config.registerSpaceSize)
  | .reset => true

end Sys2Proof
end

