-- ==== Sys2Proof/Machine/HostBus.lean ====
section
/-! DEFINITION. Host accesses to the register space (20_memory.md) and the turn of the host in a step. -/

namespace Sys2Proof.Machine

/-- The low word of a 64-bit register (R64). -/
def loWord (v : U64) : U32 := v.extractLsb' 0 32

/-- The high word of a 64-bit register (R64). -/
def hiWord (v : U64) : U32 := v.extractLsb' 32 32

/-- A 64-bit register with its low word replaced. -/
def withLo (v : U64) (w : U32) : U64 := hiWord v ++ w

/-- A 64-bit register with its high word replaced. -/
def withHi (v : U64) (w : U32) : U64 := w ++ loWord v

/-- The buffer word at a register-space offset (R64). -/
def bufWord (s : State) (off : Nat) : U32 :=
  wordOfBytes (bufByte s off) (bufByte s (off + 1)) (bufByte s (off + 2)) (bufByte s (off + 3))

/-- The value a host read of a register returns (R21, R68): its implemented bits, reserved bits 0, and 0 for a
write-only register. -/
def readReg (r : Reg) (s : State) : U32 :=
  match r with
  | .cmd => 0
  | .status => statusWord s
  | .statusClr => 0
  | .cfg => s.regs.cfg.setWidth 32
  | .minClientVersion => s.regs.minClientVersion
  | .maxUtcOffset => s.regs.maxUtcOffset
  | .nowLo => loWord s.regs.now
  | .nowHi => hiWord s.regs.now
  | .af => s.regs.af.setWidth 32
  | .srcPort => s.regs.srcPort.setWidth 32
  | .pktIndex => s.regs.pktIndex.setWidth 32
  | .inLen => s.regs.inLen.setWidth 32
  | .updOff => s.regs.updOff.setWidth 32
  | .updLen => s.regs.updLen.setWidth 32
  | .refreshCount => s.cache.refreshCount
  | .srcAddr i => s.regs.srcAddr[i]
  | .dstAddr i => s.regs.dstAddr[i]
  | .key0Lo => loWord s.regs.key0
  | .key0Hi => hiWord s.regs.key0
  | .key1Lo => loWord s.regs.key1
  | .key1Hi => hiWord s.regs.key1
  | .resultLo => loWord s.res.result
  | .resultHi => hiWord s.res.result
  | .resIndex => s.res.resIndex.setWidth 32
  | .outLen => s.res.outLen.setWidth 32
  | .resKey0Lo => loWord s.res.resKey0
  | .resKey0Hi => hiWord s.res.resKey0
  | .resKey1Lo => loWord s.res.resKey1
  | .resKey1Hi => hiWord s.res.resKey1
  | .masterSeed _ => 0
  | .inBuf i => bufWord s (Config.inBufBase + 4 * i.val)
  | .outBuf i => bufWord s (Config.outBufBase + 4 * i.val)

/-- The value a host read of an offset returns: 0 at a reserved offset (R61). -/
def readOffset (off : Nat) (s : State) : U32 :=
  match regAt off with
  | some r => readReg r s
  | none => 0

/-- Write both slots' `VALID <- 0` (R42). -/
def invalidateSlots (c : Cache) : Cache :=
  { c with slot0 := { c.slot0 with valid := false }, slot1 := { c.slot1 with valid := false } }

/-- A write of a `MASTER_SEED` register that takes effect: it also invalidates both slots (R29, R42). -/
def writeSeedWord (i : Fin 15) (v : U32) (s : State) : State :=
  { s with
    regs := { s.regs with masterSeed := s.regs.masterSeed.set i v }
    cache := invalidateSlots s.cache }

/-- `STATUS.WERR <- 1` (R342). -/
def setWerr (s : State) : State := { s with status := { s.status with werr := true } }

/-- `STATUS.WERR <- 0`. -/
def clearWerr (s : State) : State := { s with status := { s.status with werr := false } }

/-- A write of `STATUS_CLR` (R23): bit 8 clears `WERR`, the other bits are ignored. -/
def writeStatusClr (v : U32) (s : State) : State := if v.getLsbD 8 then clearWerr s else s

/-- A write of a register while the engine is idle (R21, R68): the implemented bits are stored, a `CMD` write is
accepted (R71), a write of a read-only register is ignored (R73). -/
def writeRegIdle (r : Reg) (v : U32) (s : State) : State :=
  match r with
  | .cmd => accept v s
  | .status => s
  | .statusClr => writeStatusClr v s
  | .cfg => { s with regs := { s.regs with cfg := v.setWidth 4 } }
  | .minClientVersion => { s with regs := { s.regs with minClientVersion := v } }
  | .maxUtcOffset => { s with regs := { s.regs with maxUtcOffset := v } }
  | .nowLo => { s with regs := { s.regs with now := withLo s.regs.now v } }
  | .nowHi => { s with regs := { s.regs with now := withHi s.regs.now v } }
  | .af => { s with regs := { s.regs with af := v.setWidth 8 } }
  | .srcPort => { s with regs := { s.regs with srcPort := v.setWidth 16 } }
  | .pktIndex => { s with regs := { s.regs with pktIndex := v.setWidth 8 } }
  | .inLen => { s with regs := { s.regs with inLen := v.setWidth 16 } }
  | .updOff => { s with regs := { s.regs with updOff := v.setWidth 16 } }
  | .updLen => { s with regs := { s.regs with updLen := v.setWidth 16 } }
  | .refreshCount => s
  | .srcAddr i => { s with regs := { s.regs with srcAddr := s.regs.srcAddr.set i v } }
  | .dstAddr i => { s with regs := { s.regs with dstAddr := s.regs.dstAddr.set i v } }
  | .key0Lo => { s with regs := { s.regs with key0 := withLo s.regs.key0 v } }
  | .key0Hi => { s with regs := { s.regs with key0 := withHi s.regs.key0 v } }
  | .key1Lo => { s with regs := { s.regs with key1 := withLo s.regs.key1 v } }
  | .key1Hi => { s with regs := { s.regs with key1 := withHi s.regs.key1 v } }
  | .resultLo => s
  | .resultHi => s
  | .resIndex => s
  | .outLen => s
  | .resKey0Lo => s
  | .resKey0Hi => s
  | .resKey1Lo => s
  | .resKey1Hi => s
  | .masterSeed i => writeSeedWord i v s
  | .inBuf i => { s with mem := Memory.writeBytes s.mem (Config.inBufBase + 4 * i.val) (le32bytes v) }
  | .outBuf _ => s

/-- A write of a register while a command is in flight (R73): only `STATUS_CLR` takes effect; any other write is
dropped and sets `WERR`. -/
def writeRegBusy (r : Reg) (v : U32) (s : State) : State :=
  match r with
  | .statusClr => writeStatusClr v s
  | _ => setWerr s

/-- A host write at an offset: ignored at a reserved one, even while busy (R61). -/
def writeOffset (off : Nat) (v : U32) (s : State) : State :=
  match regAt off with
  | none => s
  | some r => if s.status.busy then writeRegBusy r v s else writeRegIdle r v s

/-- Record the value a host read returned (R18). -/
def observe (v : U32) (s : State) : State := { s with env := { s.env with observed := v :: s.env.observed } }

/-- Why an access is not performed: not an aligned 32-bit access (R63, I-BUS), or outside the register space (R60).
Log 13. -/
def guardAccess (off width : Nat) (act : State → State) (s : State) : Host.Outcome State Fault Refusal :=
  if wordAccess off width = false then .refused (.badBusAccess off width)
  else if off < Config.registerSpaceSize then .next (act s)
  else .fault (.outsideRegisterSpace off)

/-- Perform one host access (R68, R70), or take the reset input (R330). -/
def perform (a : HostAccess) (s : State) : Host.Outcome State Fault Refusal :=
  match a with
  | .read off width => guardAccess off width (fun t => observe (readOffset off t) t) s
  | .write off width v => guardAccess off width (writeOffset off v) s
  | .reset => .next (resetInput s)

/-- One step of time for a command in flight (R347). -/
def tick (s : State) : State := { s with env := { s.env with wait := s.env.wait - 1 } }

/-- The host's turn: time passes for a command in flight, and the oldest pending access, if any, is performed
(R70). -/
def hostTurn (s : State) : Host.Outcome State Fault Refusal :=
  let t := if s.status.busy then tick s else s
  match t.env.pending with
  | [] => .next t
  | a :: rest => perform a { t with env := { t.env with pending := rest } }

/-- The command in flight completes in this step: it is busy and its time is up. -/
def completesNow (s : State) : Bool := s.status.busy && s.env.wait == 0

end Sys2Proof.Machine
end

