-- ==== Sys2Proof/Machine/Step.lean ====
section
/-! DEFINITION. One step of an instance: the completion of the command in flight when its time is up, else the
host's turn. -/

namespace Sys2Proof.Machine

/-- One step. A command in flight whose time is up runs as one atomic step on the state that stood at its acceptance
(R72): its word is decoded (R91), and a word that is no command completes with `ERR_BAD_OPCODE` (R93). Otherwise the
host has the step: time passes and the oldest pending access is performed (R70, R74). -/
def step (s : State) : Host.Outcome State Fault Refusal :=
  if completesNow s then
    match decodeCommand s.cmd with
    | .ok i => exec i s
    | .error _ => .next (completeIllegal s)
  else hostTurn s

/-- `s` with an opcode-table row's instruction where the next step finds it (log 14). -/
def State.withFetchWord (s : State) (nbits w : Nat) : State := placeEncoded (tableEncoded nbits w) s

end Sys2Proof.Machine
end

