-- ==== Sys2Proof/Machine/System.lean ====
section
/-! DEFINITION. Several instances side by side (60_exceptions.md R312, 20_memory.md R60): each has its own state and
its own page of the host's physical address map; they share nothing. Log 16. -/

namespace Sys2Proof.Machine

/-- An instance in the system: its 4 KiB page (`INSTANCE_BASE[i]` is 4096 times it) and its state. -/
structure Node where
  page : Nat
  engine : State
deriving DecidableEq, Repr

/-- The instances of a system, by number. -/
abbrev System := List Node

/-- At least one instance, on distinct pages (R312, I-INST), each drawing free values of its own (log 16). -/
abbrev System.wf (sys : System) : Prop :=
  1 ≤ sys.length ∧ (sys.map Node.page).Nodup ∧ (sys.map fun n => n.engine.env.unit).Nodup

/-- Issue a host access to an instance: it is performed after those already issued (R70). -/
def post (a : HostAccess) (s : State) : State := { s with env := { s.env with pending := s.env.pending ++ [a] } }

/-- Deliver an access at a physical address to the instance whose register space holds it (R60). -/
def deliver (addr : Nat) (access : (off : Nat) → HostAccess) (sys : System) : System :=
  sys.map fun n =>
    if n.page = addr / Config.registerSpaceSize then
      { n with engine := post (access (addr % Config.registerSpaceSize)) n.engine }
    else n

/-- Assert the reset input of one instance (R312: independently, as the platform decides). -/
def deliverReset (k : Nat) (sys : System) : System :=
  sys.modify k fun n => { n with engine := post .reset n.engine }

/-- One step of instance `k`; nothing orders the steps of two instances (R75). -/
def stepNode (k : Nat) (sys : System) : Host.Outcome System Fault Refusal :=
  match sys[k]? with
  | none => .next sys
  | some n =>
    match step n.engine with
    | .next t => .next (sys.set k { n with engine := t })
    | .fault f => .fault f
    | .refused r => .refused r

/-- The state of instance `i` of a system right after reset (R330). Its random bytes, its unwritten bytes and its
latencies are draws of its own: no rule relates them to another instance's (I-RNG, I-BUF, I-LAT; log 16). -/
def State.resetAt (i : Nat) : State := { State.reset with env := { Env.start with unit := i } }

/-- The system after reset: `NUM_INSTANCES` instances, each at its base (R9, R312, R330). -/
def System.reset : System :=
  (List.range Config.numInstances).map fun i => ⟨Config.instancePage i, State.resetAt i⟩

end Sys2Proof.Machine
end

