-- ==== Sys2Proof/Safety.lean ====
section
/-! DEFINITION. What the spec promises of every state of a run: the invariants of 10_state.md R22, R34, R36, R41,
R51, of 41_seed_cache.md R179 and of the code tables R223 and R301, in the terms the statements use. -/

namespace Sys2Proof.Machine

/-- `STATUS` (R22, R71): while busy, `DONE`, `MATCH` and `ERR` are 0; `MATCH = 1` only with `ERR = 0` and
`REASON = 0` (R304, R238); no code outside the tables (R223, R301). -/
def StatusOk (st : Status) : Prop :=
  (st.busy = true → st.done = false ∧ st.matched = false ∧ st.err = 0) ∧
  (st.matched = true → st.err = 0 ∧ st.reason = 0) ∧
  st.err ≤ 0x06 ∧ st.reason ≤ 0x0D

/-- The results stay in range: a packet index below 8 (R34), a reply no longer than `OUT_BUF` (R36, R269). -/
def ResultsOk (r : Results) : Prop := r.resIndex < 8 ∧ r.outLen ≤ 256

/-- The buffer memory is in canonical form and lists offsets of the buffers only (R60). -/
def MemoryOk (m : Memory) : Prop := Memory.wf m ∧ ∀ c ∈ m, 0x200 ≤ c.1 ∧ c.1 < 0x500

/-- The SipHash state invariant (R51): `SIP_NTAIL = SIP_COUNT mod 8`, and the bits of `SIP_TAIL` from
`8·SIP_NTAIL` up are 0. -/
def SipOk (st : Sip) : Prop :=
  st.ntail.toNat = st.count.toNat % 8 ∧ st.tail.toNat < 2 ^ (8 * st.ntail.toNat)

/-- The cache invariant (R41) and the tag parity (R179) of one slot, numbered `i`. -/
def SlotOk (seed : List Byte) (i : Nat) (sl : Slot) : Prop :=
  sl.valid = true → sl.digest = derivedSecret seed sl.tag ∧ sl.tag.toNat / 4 % 2 = i

/-- The cache invariant (R41, R179) of both slots. -/
def CacheOk (s : State) : Prop :=
  SlotOk (masterSeedBytes s) 0 s.cache.slot0 ∧ SlotOk (masterSeedBytes s) 1 s.cache.slot1

/-- What holds of every state of a run. -/
structure Inv (s : State) : Prop where
  status : StatusOk s.status
  results : ResultsOk s.res
  memory : MemoryOk s.mem
  sip : SipOk s.sip
  cache : CacheOk s

/-- The host issues only accesses the bus has (R63), so a step cannot stop. -/
def PendingOk (s : State) : Prop := ∀ a ∈ s.env.pending, a.wf = true

/-- What every register reads as, field by field (R21, R25 to R39): the two words of a 64-bit value joined are the value
(R27, R32, R33, R35, R64), the reserved bits of a narrow field are 0 (R21), byte `a` of a byte string is the lane `a mod 4`
of its word `a div 4` (R28, R38, R39, R64), and a register that only takes writes reads 0. -/
structure RegisterFields (s : State) : Prop where
  commands : readReg .cmd s = 0 ∧ readReg .statusClr s = 0 ∧ ∀ i, readReg (.masterSeed i) s = 0
  status : readReg .status s = statusWord s
  cfg : (readReg .cfg s).getLsbD 0 = zrs s ∧ (readReg .cfg s).getLsbD 1 = minverEn s ∧
    (readReg .cfg s).getLsbD 2 = utcEn s ∧ (readReg .cfg s).getLsbD 3 = cookieEn s ∧
    (readReg .cfg s).extractLsb' 4 28 = 0
  limits : readReg .minClientVersion s = s.regs.minClientVersion ∧ readReg .maxUtcOffset s = s.regs.maxUtcOffset
  now : readReg .nowHi s ++ readReg .nowLo s = s.regs.now
  keys : readReg .key0Hi s ++ readReg .key0Lo s = s.regs.key0 ∧ readReg .key1Hi s ++ readReg .key1Lo s = s.regs.key1
  operands : (readReg .af s).toNat = s.regs.af.toNat ∧ (readReg .srcPort s).toNat = s.regs.srcPort.toNat ∧
    (readReg .pktIndex s).toNat = s.regs.pktIndex.toNat ∧ (readReg .inLen s).toNat = s.regs.inLen.toNat ∧
    (readReg .updOff s).toNat = s.regs.updOff.toNat ∧ (readReg .updLen s).toNat = s.regs.updLen.toNat
  addresses : ∀ (i : Fin 4) (j : Nat), j < 4 →
    (srcAddrBytes s)[4 * i.val + j]? = some ((readReg (.srcAddr i) s).extractLsb' (8 * j) 8) ∧
    (dstAddrBytes s)[4 * i.val + j]? = some ((readReg (.dstAddr i) s).extractLsb' (8 * j) 8)
  result : readReg .resultHi s ++ readReg .resultLo s = s.res.result
  resultKeys : readReg .resKey0Hi s ++ readReg .resKey0Lo s = s.res.resKey0 ∧
    readReg .resKey1Hi s ++ readReg .resKey1Lo s = s.res.resKey1
  lengths : (readReg .resIndex s).toNat = s.res.resIndex.toNat ∧ (readReg .outLen s).toNat = s.res.outLen.toNat ∧
    readReg .refreshCount s = s.cache.refreshCount
  inBuf : ∀ (i : Fin 128) (j : Nat), j < 4 →
    inByte s (4 * i.val + j) = (readReg (.inBuf i) s).extractLsb' (8 * j) 8
  outBuf : ∀ (i : Fin 64) (j : Nat), j < 4 →
    outByte s (4 * i.val + j) = (readReg (.outBuf i) s).extractLsb' (8 * j) 8

/-- The hash input `IN_BUF[UPD_OFF .. UPD_OFF + UPD_LEN)` written out byte by byte (R31). -/
def hashedBytes (s : State) : List Byte :=
  (List.range s.regs.updLen.toNat).map fun j => bufByte s (0x200 + (s.regs.updOff.toNat + j))

/-- The key `GetSecret` must return for a packet index at a time, whatever the cache holds (R177): cut from the
SHA-512 of the seed and the window. -/
def windowKey (s : State) (now : U64) (p : Byte) : SipKey :=
  keyOf (sha512 (masterSeedBytes s ++ le32bytes ((packetCacheTime now p).setWidth 32))) (p.toNat % 4)

/-- The message of the cookie for the client identity operands, written out (R201, R202): the two addresses cut to `L`
bytes, then `00 00 PORT[15:8] PORT[7:0]`. -/
def identityMessage (s : State) (L : Nat) : List Byte :=
  (srcAddrBytes s).take L ++ (dstAddrBytes s).take L ++
    [0, 0, s.regs.srcPort.extractLsb' 8 8, s.regs.srcPort.extractLsb' 0 8]

/-- The address length of the family operand (R204), 0 for an unsupported family. -/
def identityLength (s : State) : Nat := if s.regs.af = 4 then 4 else if s.regs.af = 6 then 16 else 0

/-- The cookie of the client identity operands under a key (R204), for a supported family. -/
def identityCookie (s : State) (k : SipKey) : U64 := sipHash k (identityMessage s (identityLength s))

/-- The address family operand is one of the two supported (R28). -/
def familySupported (s : State) : Bool := s.regs.af == 4 || s.regs.af == 6

/-- `SIZE(cmd)` of R221, by command byte. -/
def payloadSize (b : Byte) : Nat :=
  if b = 0 then 16 else if b = 1 then 20 else if b = 2 then 20 else if b = 3 then 244 else if b = 5 then 1 else 0

/-- The checks `VALIDATE` makes on the packet `P`, as one flat list in the order of R221, each with the reason it
rejects with; `true` means that the check fails. A check is only looked at when every earlier one passed. -/
def packetFailures (s : State) (P : List Byte) : List (Bool × Byte) :=
  let c := P.getD 17 0
  let p := P.getD 26 0
  let puzzle := decide (c = 2) && cookieEn s
  [(decide (P.length < 18), 0x01),
   (decide (slice P 0 8 ≠ [0x54, 0x53, 0x33, 0x49, 0x4E, 0x49, 0x54, 0x31]), 0x02),
   (decide (be16 (slice P 8 10) ≠ 101), 0x03),
   (decide (be16 (slice P 10 12) ≠ 0), 0x04),
   (decide (P.getD 12 0 ≠ 0x88), 0x05),
   (decide (c ∉ ([0, 1, 2, 3, 5] : List Byte)), 0x06),
   (decide (P.length - 18 ≠ payloadSize c), 0x07),
   (minverEn s && decide (be32 (slice P 13 17) < s.regs.minClientVersion), 0x08),
   (decide (c = 0) && utcEn s &&
      decide (s.regs.maxUtcOffset.toNat < Nat.dist s.regs.now.toNat (be32 (slice P 18 22)).toNat), 0x09),
   (puzzle && decide (8 ≤ p), 0x0A),
   (puzzle && !familySupported s, 0x0B),
   (puzzle && decide (slice P 18 26 ≠ le64bytes (identityCookie s (windowKey s s.regs.now p))), 0x0C)]

/-- The reason of the first failing check, 0x00 when none fails (R222, R223). -/
def firstFailure (checks : List (Bool × Byte)) : Byte := ((checks.find? Prod.fst).map Prod.snd).getD 0

/-- The command in flight completes in this step and is the instruction `i`. -/
def Completes (i : Instr) (s : State) : Prop := completesNow s = true ∧ decodeCommand s.cmd = .ok i

/-- The oldest pending access is the reset input. -/
def TakesReset (s : State) : Prop := completesNow s = false ∧ s.env.pending.head? = some .reset

/-- An incremental hash in progress (R136): `HashRun k M s` says that `s` is reached from a `SIP_SETUP` with key `k` by
steps, with host accesses arriving between them, in which the inputs of the `SIP_UPDATE`s concatenate to `M`, none
of them ended with an error, and no other `SIP_SETUP`, `SIP_FINALIZE` or reset came between. -/
inductive HashRun (k : SipKey) : List Byte → State → Prop where
  | setup {s t : State} : Completes .sipSetup s → keyOperand s = k → step s = .next t → HashRun k [] t
  | update {s t : State} {M B : List Byte} : HashRun k M s → Completes .sipUpdate s → hashInput s = some B →
      step s = .next t → HashRun k (M ++ B) t
  | other {s t : State} {M : List Byte} : HashRun k M s → ¬ Completes .sipSetup s → ¬ Completes .sipUpdate s →
      ¬ Completes .sipFinalize s → ¬ TakesReset s → step s = .next t → HashRun k M t
  | arrival {s : State} {M : List Byte} (a : List HostAccess) : HashRun k M s →
      HashRun k M { s with env := { s.env with pending := s.env.pending ++ a } }

end Sys2Proof.Machine
end

