-- ==== Sys2Proof/Certificates/Slice0/Obligations.lean ====
section
/-! DEFINITION. The statements about this model, from the numbered rules of spec/. Where a statement gives the state after
an instruction's completion whole, or says `t.cmd = s.cmd` of it, that the latched word is as before is the model's choice (log 19), and
no host read and no idle step can show it. -/

open Sys2Proof Sys2Proof.Machine

/-! ## Encoding -/

/-- Every instruction, with every operand, is what the decoder reads from its own encoding (R90 to R93, R100, R103). -/
def Obligations.DecodeEncodeAgree : Prop :=
  ∀ i : Instr, decode (encode i) = .ok i

/-- A command word decodes to an instruction exactly when it is that instruction's word: no other word does, and no bit
of the word is dropped (R91, R92). -/
def Obligations.CommandWordsExact : Prop :=
  ∀ (w : U32) (i : Instr), decodeCommand w = .ok i ↔ encode i = .command w

/-- A byte string decodes to a client packet exactly when it is that packet's encoding (R100, R109). -/
def Obligations.PacketDecodingExact : Prop :=
  ∀ (P : List Byte) (p : ClientPacket), decodePacket P = .ok p ↔ P = encodePacket p

/-- An offset selects a register exactly when it is that register's offset in the table of R21. -/
def Obligations.RegisterOffsetsExact : Prop :=
  ∀ (off : Nat) (r : Reg), regAt off = some r ↔ off = r.offset

/-- Words and packets written out from the spec's tables (R92, R93, V-IF-2, V-VAL-1) decode as the tables say. -/
def Obligations.SpecWordsDecode : Prop :=
  decodeCommand 0x00000001 = .ok .sipSetup ∧
  decodeCommand 0x00000011 = .ok .getCurrentSecret ∧
  decodeCommand 0x00000020 = .ok .computeCookie ∧
  decodeCommand 0x00000030 = .ok .validate ∧
  decodeCommand 0x00000043 = .ok .buildResetPuzzle ∧
  decodeCommand 0x00000110 = .error .reservedBits ∧
  decodeCommand 0x00000000 = .error .unassignedOpcode ∧
  decode (.packet [0x54, 0x53, 0x33, 0x49, 0x4E, 0x49, 0x54, 0x31, 0x00, 0x65, 0x00, 0x00, 0x88,
      0x5F, 0x5E, 0x10, 0x00, 0x00, 0x65, 0x53, 0xF1, 0x00, 0xA1, 0xB2, 0xC3, 0xD4, 0, 0, 0, 0, 0, 0, 0, 0]) =
    .ok (.wireGetCookie 0x5F5E1000 [0x65, 0x53, 0xF1, 0x00, 0xA1, 0xB2, 0xC3, 0xD4, 0, 0, 0, 0, 0, 0, 0, 0])

/-! ## The step -/

/-- A step whose command in flight completes runs the instruction its word decodes to, and nothing else (R72). -/
def Obligations.StepRunsCommand : Prop :=
  ∀ (s : State) (i : Instr), s.status.busy = true → s.env.wait = 0 → decodeCommand s.cmd = .ok i →
    step s = exec i s

/-- A step that completes a `VALIDATE` on a packet that decodes runs the wire instruction it decodes to (R221). -/
def Obligations.StepRunsPacket : Prop :=
  ∀ (s : State) (i : Instr), s.status.busy = true → s.env.wait = 0 → s.cmd = 0x00000030 →
    s.regs.inLen.toNat ≤ 512 → decode (.packet (packetOperand s)) = .ok i → step s = exec i s

/-- The illegal command (R93): a word with `RSVD` not 0 or an unassigned `OP` is no instruction's word, is accepted like
any command, and completes with `ERR = 0x01` and no other change, and the word is not kept (R301). `env` holds the model's
own fields (logs 1 and 2); that the word makes way for 0, the reset value, is the model's choice (log 19). -/
def Obligations.IllegalCommandEffect : Prop :=
  ∀ w : U32,
    (w >>> 8 ≠ 0 ∨
      w &&& 0xFF ∉ ([0x01, 0x02, 0x03, 0x04, 0x10, 0x11, 0x20, 0x30, 0x40, 0x41, 0x42, 0x43] : List U32)) →
    (∀ i, encode i ≠ .command w) ∧
    (∀ (s : State) (rest : List HostAccess), s.status.busy = false → s.env.pending = .write 0x000 4 w :: rest →
      ∃ n, step s = .next { s with
        status := { s.status with busy := true, done := false, matched := false, err := 0 }
        cmd := w
        env := { s.env with pending := rest, wait := n, accepted := s.env.accepted + 1 } }) ∧
    (∀ s : State, s.status.busy = true → s.env.wait = 0 → s.cmd = w →
      step s = .next { s with
        cmd := 0
        status := { s.status with busy := false, done := true, err := 0x01 } })

/-- Command acceptance (R71): an idle engine accepts a `CMD` write in one step, a busy one drops it and sets `WERR`. How
long the command takes is open (log 2), so the statement holds for every value of it; `env` holds the model's own fields
(logs 1 and 2). -/
def Obligations.CommandAcceptance : Prop :=
  ∀ (s : State) (w : U32) (rest : List HostAccess), s.env.pending = .write 0x000 4 w :: rest →
    (s.status.busy = false →
      ∃ n, step s = .next { s with
        status := { s.status with busy := true, done := false, matched := false, err := 0 }
        cmd := w
        env := { s.env with pending := rest, wait := n, accepted := s.env.accepted + 1 } }) ∧
    (s.status.busy = true → s.env.wait ≠ 0 →
      step s = .next { s with
        status := { s.status with werr := true }
        env := { s.env with pending := rest, wait := s.env.wait - 1 } })

/-- Writes while busy (R73): a write to any listed register but `STATUS_CLR` changes nothing but `WERR`; while idle, a
write to a read-only register is ignored and does not set `WERR`. `env` holds the model's own fields (logs 1 and 2). -/
def Obligations.BusyWritesDropped : Prop :=
  ∀ (s : State) (r : Reg) (v : U32) (rest : List HostAccess), s.env.pending = .write r.offset 4 v :: rest →
    (s.status.busy = true → s.env.wait ≠ 0 → r ≠ .statusClr →
      step s = .next { s with
        status := { s.status with werr := true }
        env := { s.env with pending := rest, wait := s.env.wait - 1 } }) ∧
    (s.status.busy = false → r.access = .readOnly →
      step s = .next { s with env := { s.env with pending := rest } })

/-- `STATUS_CLR` (R23): whether the engine is idle or busy, a write with bit 8 set clears `WERR` and one without does
nothing; it reads 0. -/
def Obligations.StatusClrClearsWerr : Prop :=
  ∀ (s : State) (v : U32) (rest : List HostAccess),
    readReg .statusClr s = 0 ∧
    (s.env.pending = .write 0x008 4 v :: rest →
      (s.status.busy = false → step s = .next { s with
        status := { s.status with werr := if v.getLsbD 8 then false else s.status.werr }
        env := { s.env with pending := rest } }) ∧
      (s.status.busy = true → s.env.wait ≠ 0 → step s = .next { s with
        status := { s.status with werr := if v.getLsbD 8 then false else s.status.werr }
        env := { s.env with pending := rest, wait := s.env.wait - 1 } }))

/-- `WERR` is sticky (R342): only a `STATUS_CLR` write with bit 8 set, or the reset input, clears it. -/
def Obligations.WerrSticky : Prop :=
  ∀ s t : State, step s = .next t → s.status.werr = true → t.status.werr = false →
    completesNow s = false ∧
    ((∃ v : U32, s.env.pending.head? = some (.write 0x008 4 v) ∧ v.getLsbD 8 = true) ∨
      s.env.pending.head? = some .reset)

/-- Reserved space (R61): a reserved offset reads 0, and a write to it does nothing, idle or busy; the reserved bits of
every listed register read 0 and ignore writes (every bit of a `CMD` word counts, R93). -/
def Obligations.ReservedSpaceInert : Prop :=
  (∀ (off : Nat) (s : State) (v : U32), off % 4 = 0 →
    (off = 0x03C ∨ (0x090 ≤ off ∧ off ≤ 0x0FC) ∨ (0x13C ≤ off ∧ off ≤ 0x1FC) ∨ (0x500 ≤ off ∧ off ≤ 0xFFC)) →
      readOffset off s = 0 ∧ writeOffset off v s = s) ∧
  (∀ (r : Reg) (s : State), readReg r s &&& ~~~ r.implemented = 0) ∧
  (∀ (r : Reg) (s : State) (v : U32), r ≠ .cmd → writeRegIdle r v s = writeRegIdle r (v &&& r.implemented) s)

/-- A host access that is not an aligned 32-bit access is refused (R63). -/
def Obligations.NonWordAccessRefused : Prop :=
  ∀ (s : State) (off width : Nat) (v : U32) (rest : List HostAccess),
    completesNow s = false → width ≠ 4 ∨ off % 4 ≠ 0 →
    s.env.pending = .read off width :: rest ∨ s.env.pending = .write off width v :: rest →
      step s = .refused (.badBusAccess off width)

/-- The model's choice (log 13; R60 gives the register space no offset at or past 0x1000): an aligned word access there
faults. -/
def Obligations.OutsideAccessFaults : Prop :=
  ∀ (s : State) (off : Nat) (v : U32) (rest : List HostAccess),
    completesNow s = false → off % 4 = 0 → 0x1000 ≤ off →
    s.env.pending = .read off 4 :: rest ∨ s.env.pending = .write off 4 v :: rest →
      step s = .fault (.outsideRegisterSpace off)

/-- Reads have no side effect (R68, R74): a host read of a register, idle or busy, returns the register's value and
changes nothing but the record of what was read and, while busy, the time left (the model's own fields, logs 1 and
2). What each register's value is of the state's fields is written out in `RegisterFields` (R21, R25, R27, R28, R32 to
R39, R64), and holds of every state. -/
def Obligations.HostReadReturns : Prop :=
  (∀ s : State, RegisterFields s) ∧
  ∀ (s : State) (r : Reg) (rest : List HostAccess), s.env.pending = .read r.offset 4 :: rest →
    (s.status.busy = false → step s = .next { s with
      env := { s.env with pending := rest, observed := readReg r s :: s.env.observed } }) ∧
    (s.status.busy = true → s.env.wait ≠ 0 → step s = .next { s with
      env := { s.env with pending := rest, observed := readReg r s :: s.env.observed, wait := s.env.wait - 1 } })

/-- A host write of a read-write register while idle is performed in one step (R21, R68): the register reads as the
implemented bits written and every other register as before; the status, the latched word, the results, the seed, the
cache, the SipHash words and every buffer byte outside the register's own four are as before. The write reaches its own
field: the `CFG` bit of each enable (R25), one word of `NOW`, `KEY0` or `KEY1` and not the other (R27, R32, R69), the byte
lanes of an address word (R28, R64), the four bytes of an `IN_BUF` word (R38, R64). -/
def Obligations.WritesAffectOneRegister : Prop :=
  ∀ (s : State) (r : Reg) (v : U32) (rest : List HostAccess), s.status.busy = false → r.access = .readWrite →
    s.env.pending = .write r.offset 4 v :: rest →
    ∃ t, step s = .next t ∧
      (∀ r', readReg r' t = if r' = r then v &&& r.implemented else readReg r' s) ∧
      t.status = s.status ∧ t.cmd = s.cmd ∧ t.res = s.res ∧ t.cache = s.cache ∧ t.sip = s.sip ∧
      t.regs.masterSeed = s.regs.masterSeed ∧ t.env = { s.env with pending := rest } ∧
      (∀ a, a < r.offset ∨ r.offset + 4 ≤ a → bufByte t a = bufByte s a) ∧
      ((∀ i, r ≠ .inBuf i) → t.mem = s.mem) ∧
      (r = .cfg → zrs t = v.getLsbD 0 ∧ minverEn t = v.getLsbD 1 ∧ utcEn t = v.getLsbD 2 ∧ cookieEn t = v.getLsbD 3) ∧
      t.regs.now = (if r = .nowHi then v else s.regs.now.extractLsb' 32 32) ++
        (if r = .nowLo then v else s.regs.now.extractLsb' 0 32) ∧
      t.regs.key0 = (if r = .key0Hi then v else s.regs.key0.extractLsb' 32 32) ++
        (if r = .key0Lo then v else s.regs.key0.extractLsb' 0 32) ∧
      t.regs.key1 = (if r = .key1Hi then v else s.regs.key1.extractLsb' 32 32) ++
        (if r = .key1Lo then v else s.regs.key1.extractLsb' 0 32) ∧
      (∀ (i : Fin 4) (j : Nat), j < 4 →
        (r = .srcAddr i → (srcAddrBytes t)[4 * i.val + j]? = some (v.extractLsb' (8 * j) 8)) ∧
        (r = .dstAddr i → (dstAddrBytes t)[4 * i.val + j]? = some (v.extractLsb' (8 * j) 8))) ∧
      (∀ (i : Fin 128) (j : Nat), j < 4 → r = .inBuf i →
        t.regs = s.regs ∧ inByte t (4 * i.val + j) = v.extractLsb' (8 * j) 8)

/-- A `MASTER_SEED` write that takes effect stores its four bytes, makes both slots invalid and changes nothing else;
the register reads 0 (R29, R42). -/
def Obligations.SeedWriteInvalidates : Prop :=
  ∀ (s : State) (i : Fin 15) (v : U32) (rest : List HostAccess), s.status.busy = false →
    s.env.pending = .write (0x100 + 4 * i.val) 4 v :: rest →
    ∃ t, step s = .next t ∧
      (∀ j, j < 60 → (masterSeedBytes t)[j]? =
        if j / 4 = i.val then some (v.extractLsb' (8 * (j % 4)) 8) else (masterSeedBytes s)[j]?) ∧
      t.cache.slot0.valid = false ∧ t.cache.slot1.valid = false ∧
      t.cache.refreshCount = s.cache.refreshCount ∧
      readReg (.masterSeed i) t = 0 ∧
      { t.regs with masterSeed := s.regs.masterSeed } = s.regs ∧
      t.status = s.status ∧ t.cmd = s.cmd ∧ t.res = s.res ∧ t.sip = s.sip ∧ t.mem = s.mem ∧
      t.env = { s.env with pending := rest }

/-- The layout of `STATUS` (R22), and what it reads as while a command is in flight. -/
def Obligations.StatusWordLayout : Prop :=
  ∀ s : State,
    (statusWord s).getLsbD 0 = s.status.busy ∧ (statusWord s).getLsbD 1 = s.status.done ∧
    (statusWord s).getLsbD 2 = s.status.matched ∧ (statusWord s).getLsbD 3 = s.sip.active ∧
    (statusWord s).extractLsb' 4 4 = 0 ∧ (statusWord s).getLsbD 8 = s.status.werr ∧
    (statusWord s).extractLsb' 9 7 = 0 ∧ (statusWord s).extractLsb' 16 8 = s.status.err ∧
    (statusWord s).extractLsb' 24 8 = s.status.reason ∧
    (StatusOk s.status → s.status.busy = true →
      (statusWord s).extractLsb' 0 3 = 0b001 ∧ (statusWord s).extractLsb' 16 8 = 0)

/-! ## SipHash -/

/-- `SIP_SETUP` (R130, R132, R140): starts a hash with the key operand and changes nothing else. That the latched word
stays is the model's choice (log 19). -/
def Obligations.SipSetupResult : Prop :=
  ∀ s : State, exec .sipSetup s = .next { s with
    sip := { v := ⟨s.regs.key0 ^^^ 0x736f6d6570736575, s.regs.key1 ^^^ 0x646f72616e646f6d,
                   s.regs.key0 ^^^ 0x6c7967656e657261, s.regs.key1 ^^^ 0x7465646279746573⟩
             tail := 0, ntail := 0, count := 0, active := true }
    status := { s.status with busy := false, done := true, err := 0 } }

/-- `SIP_UPDATE` (R142, R143): absorbs `IN_BUF[UPD_OFF .. UPD_OFF + UPD_LEN)` byte by byte; without a hash in progress
it ends with `ERR_SIP_NOT_ACTIVE`, and with an input past the buffer (exact sum) with `ERR_RANGE`. That the latched
word stays is the model's choice (log 19). -/
def Obligations.SipUpdateResult : Prop :=
  ∀ s : State,
    (s.sip.active = true → s.regs.updOff.toNat + s.regs.updLen.toNat ≤ 512 →
      exec .sipUpdate s = .next { s with
        sip := sipAbsorb s.sip (hashedBytes s)
        status := { s.status with busy := false, done := true, err := 0 } }) ∧
    (s.sip.active = false →
      exec .sipUpdate s = .next { s with status := { s.status with busy := false, done := true, err := 0x02 } }) ∧
    (s.sip.active = true → 512 < s.regs.updOff.toNat + s.regs.updLen.toNat →
      exec .sipUpdate s = .next { s with status := { s.status with busy := false, done := true, err := 0x03 } })

/-- Absorbing one byte (R137): it joins the tail above the bytes buffered; the eighth byte compresses the block. -/
def Obligations.SipAbsorbsByByte : Prop :=
  ∀ (st : Sip) (x : Byte), SipOk st →
    (st.ntail.toNat < 7 →
      (sipAbsorbByte st x).tail.toNat = st.tail.toNat + x.toNat * 2 ^ (8 * st.ntail.toNat) ∧
      (sipAbsorbByte st x).ntail.toNat = st.ntail.toNat + 1 ∧ (sipAbsorbByte st x).v = st.v) ∧
    (st.ntail.toNat = 7 →
      (sipAbsorbByte st x).v =
        sipCompress st.v (BitVec.ofNat 64 (st.tail.toNat + x.toNat * 2 ^ 56)) ∧
      (sipAbsorbByte st x).tail = 0 ∧ (sipAbsorbByte st x).ntail = 0) ∧
    (sipAbsorbByte st x).count = st.count + 1 ∧ (sipAbsorbByte st x).active = st.active

/-- `SIP_FINALIZE` (R144): the result is computed on a copy and only `SIP_ACTIVE` is cleared; without a hash in
progress it ends with `ERR_SIP_NOT_ACTIVE`. That the latched word stays is the model's choice (log 19). -/
def Obligations.SipFinalizeResult : Prop :=
  ∀ s : State,
    (s.sip.active = true → exec .sipFinalize s = .next { s with
      res := { s.res with result := sipFinal s.sip.v s.sip.tail s.sip.count }
      sip := { s.sip with active := false }
      status := { s.status with busy := false, done := true, err := 0 } }) ∧
    (s.sip.active = false →
      exec .sipFinalize s = .next { s with status := { s.status with busy := false, done := true, err := 0x02 } })

/-- `SIP_ONESHOT` (R146): hashes `IN_BUF[UPD_OFF .. UPD_OFF + UPD_LEN)` under the key operand and writes `RESULT`
alone; with an input past the buffer it ends with `ERR_RANGE`. That the latched word stays is the model's choice (log
19). -/
def Obligations.SipOneshotResult : Prop :=
  ∀ s : State,
    (s.regs.updOff.toNat + s.regs.updLen.toNat ≤ 512 →
      exec .sipOneshot s = .next { s with
        res := { s.res with result := sipHash ⟨s.regs.key0, s.regs.key1⟩ (hashedBytes s) }
        status := { s.status with busy := false, done := true, err := 0 } }) ∧
    (512 < s.regs.updOff.toNat + s.regs.updLen.toNat →
      exec .sipOneshot s = .next { s with status := { s.status with busy := false, done := true, err := 0x03 } })

/-- The equivalence lemma (R138): absorbing a message in any chunks and ending the hash gives `SipHash` of the whole. -/
def Obligations.ChunkedHashEqualsWhole : Prop :=
  ∀ (k : SipKey) (chunks : List (List Byte)),
    let st := chunks.foldl sipAbsorb (sipStart k)
    sipFinal st.v st.tail st.count = sipHash k chunks.flatten

/-- The streaming contract over the machine's steps (R136, R145): after a `SIP_SETUP` with key `k`, any `SIP_UPDATE`s
whose inputs concatenate to `M`, with any other commands and host accesses between, then a `SIP_FINALIZE`, leave
`RESULT = SipHash(k, M)`. -/
def Obligations.StreamingContract : Prop :=
  ∀ (k : SipKey) (M : List Byte) (s : State), HashRun k M s → Completes .sipFinalize s →
    ∃ t, step s = .next t ∧ t.res.result = sipHash k M ∧ t.sip.active = false ∧ t.status.err = 0

/-- Every instruction but the three incremental ones neither reads nor changes the incremental state (R52): replacing
that state by any other gives the same next state but for it. -/
def Obligations.IncrementalStatePrivate : Prop :=
  ∀ (i : Instr) (s t : State) (x : Sip), i ≠ .sipSetup → i ≠ .sipUpdate → i ≠ .sipFinalize →
    exec i s = .next t → t.sip = s.sip ∧ exec i { s with sip := x } = .next { t with sip := x }

/-! ## Seed cache -/

/-- Transparency (R177): in every state that satisfies the cache invariant, `GetSecret` for `p < 8` returns the key cut
from the SHA-512 of the seed and the window, hit or miss, and changes nothing but the cache. -/
def Obligations.CacheTransparency : Prop :=
  ∀ (s : State) (now : U64) (p : Byte), CacheOk s → p < 8 →
    ∃ t, getSecret now p s = some (windowKey s now p, t) ∧ { t with cache := s.cache } = s

/-- `GET_SECRET` (R172 to R175, R180): with a legal index, the key of the index's window; the serving slot then holds
that window; `REFRESH_COUNT` counts exactly the misses; the other slot and all else is unchanged. With an index of 8 or
more (R30), `ERR_BAD_INDEX` and no other change. That the latched word stays is the model's choice (log 19). -/
def Obligations.GetSecretResult : Prop :=
  ∀ s : State,
    (CacheOk s → s.regs.pktIndex < 8 →
      ∃ c : Cache,
        exec .getSecret s = .next { s with
          cache := c
          res := { s.res with
            resKey0 := (windowKey s s.regs.now s.regs.pktIndex).key0
            resKey1 := (windowKey s s.regs.now s.regs.pktIndex).key1
            resIndex := s.regs.pktIndex }
          status := { s.status with busy := false, done := true, err := 0 } } ∧
        (s.regs.pktIndex < 4 →
          c.slot1 = s.cache.slot1 ∧ c.slot0.valid = true ∧
          c.slot0.tag = packetCacheTime s.regs.now s.regs.pktIndex ∧
          c.refreshCount = if s.cache.slot0.valid = true ∧ s.cache.slot0.tag = c.slot0.tag
            then s.cache.refreshCount else s.cache.refreshCount + 1) ∧
        (4 ≤ s.regs.pktIndex →
          c.slot0 = s.cache.slot0 ∧ c.slot1.valid = true ∧
          c.slot1.tag = packetCacheTime s.regs.now s.regs.pktIndex ∧
          c.refreshCount = if s.cache.slot1.valid = true ∧ s.cache.slot1.tag = c.slot1.tag
            then s.cache.refreshCount else s.cache.refreshCount + 1)) ∧
    (8 ≤ s.regs.pktIndex →
      exec .getSecret s = .next { s with status := { s.status with busy := false, done := true, err := 0x04 } })

/-- `GET_CURRENT_SECRET` (R182): what `GET_SECRET` does with the index `NOW mod 8`, whose window is always `NOW & ~3`.
That the latched word stays is the model's choice (log 19). -/
def Obligations.GetCurrentSecretDelegates : Prop :=
  ∀ s : State, CacheOk s →
    ∃ t p, exec .getSecret { s with regs := { s.regs with pktIndex := p } } = .next t ∧
      exec .getCurrentSecret s = .next { t with regs := s.regs } ∧
      p.toNat = s.regs.now.toNat % 8 ∧ t.res.resIndex = p ∧ t.status.err = 0 ∧
      (packetCacheTime s.regs.now p).toNat = s.regs.now.toNat / 4 * 4

/-- Window correctness (R183): for a fixed index below 8, the window and the key are the same at all times with the same
`now & ~3`. -/
def Obligations.WindowDependsOnBucket : Prop :=
  ∀ (s : State) (now now' : U64) (p : Byte), p < 8 → now.toNat / 4 = now'.toNat / 4 →
    packetCacheTime now p = packetCacheTime now' p ∧ windowKey s now p = windowKey s now' p

/-- How long an issued index keeps its window (R171, R184): asked at `tv` with the index of `t0`, the window is that of
`t0` exactly while `t0 & ~3 <= tv < (t0 & ~3) + 8`. The premise leaves out the one corner where the modular window time
of R186 makes a time below 4 meet the last window before 2^64. -/
def Obligations.IssuedWindowLifetime : Prop :=
  ∀ t0 tv : U64, t0.toNat < 2 ^ 64 - 4 ∨ 4 ≤ tv.toNat →
    (packetCacheTime tv (currentIndex t0) = floor4 t0 ↔
      t0.toNat / 4 * 4 ≤ tv.toNat ∧ tv.toNat < t0.toNat / 4 * 4 + 8)

/-- Slot writes (R42): in one step a slot is left as it was, or takes `VALID`, a window and the digest of the current seed
and that window; or is made invalid by a `MASTER_SEED` write while idle, or by the reset input. -/
def Obligations.SlotWritesOnly : Prop :=
  ∀ (s t : State) (slot : Cache → Slot), slot = Cache.slot0 ∨ slot = Cache.slot1 → step s = .next t →
    slot t.cache = slot s.cache ∨
    (∃ w : U64, slot t.cache = ⟨true, w, sha512 (masterSeedBytes s ++ le32bytes (w.setWidth 32))⟩ ∧
      completesNow s = true) ∨
    ((slot t.cache).valid = false ∧ s.status.busy = false ∧
      ∃ (i : Fin 15) (v : U32), s.env.pending.head? = some (.write (0x100 + 4 * i.val) 4 v)) ∨
    ((slot t.cache).valid = false ∧ TakesReset s)

/-! ## Cookie -/

/-- `COMPUTE_COOKIE` (R201, R202, R205): the hash of the two addresses and the port field under the key operand, for
IPv4 and IPv6; `ERR_AF_UNSUPPORTED` and no other change for every other `AF`. That the latched word stays is the
model's choice (log 19). -/
def Obligations.ComputeCookieResult : Prop :=
  ∀ s : State,
    (s.regs.af = 4 → exec .computeCookie s = .next { s with
      res := { s.res with result := sipHash ⟨s.regs.key0, s.regs.key1⟩ (identityMessage s 4) }
      status := { s.status with busy := false, done := true, err := 0 } }) ∧
    (s.regs.af = 6 → exec .computeCookie s = .next { s with
      res := { s.res with result := sipHash ⟨s.regs.key0, s.regs.key1⟩ (identityMessage s 16) }
      status := { s.status with busy := false, done := true, err := 0 } }) ∧
    (s.regs.af ≠ 4 → s.regs.af ≠ 6 →
      exec .computeCookie s = .next { s with status := { s.status with busy := false, done := true, err := 0x05 } })

/-! ## Validator -/

/-- `VALIDATE` on a packet that fits the buffer (R221 to R223, R236, R238): the reason is that of the first failing
check of the flat list, `MATCH` is 1 exactly when none fails, and nothing else changes but, where the cookie check
reads a key, the cache. That the latched word stays is the model's choice (log 19). -/
def Obligations.ValidateReportsFirstFailure : Prop :=
  ∀ s : State, CacheOk s → s.regs.inLen.toNat ≤ 512 →
    ∃ c : Cache,
      exec .validate s = .next { s with
        cache := c
        status := { s.status with
          busy := false, done := true, err := 0
          matched := firstFailure (packetFailures s (packetOperand s)) == 0
          reason := firstFailure (packetFailures s (packetOperand s)) } } ∧
      (c = s.cache ∨
        (cookieEn s = true ∧ familySupported s = true ∧ (packetOperand s).getD 17 0 = 2 ∧
          (packetOperand s).getD 26 0 < 8 ∧ c = lookupCache s.regs.now ((packetOperand s).getD 26 0) s))

/-- `VALIDATE` with `IN_LEN` past the buffer (R230): `ERR_RANGE`, `REASON = 0x0D`, and `MATCH = 0`. R230 says that
`MATCH` stays 0; that the result is 0 on every state, also on one no run reaches whose `MATCH` is 1, is the model's
reading (log 18, R304). That the latched word stays is the model's choice (log 19). -/
def Obligations.ValidateLengthRange : Prop :=
  ∀ s : State, 512 < s.regs.inLen.toNat →
    exec .validate s = .next { s with
      status := { s.status with busy := false, done := true, matched := false, err := 0x03, reason := 0x0D } }

/-- The rejection invariants (R239): whatever else holds, a packet that matches has the tag, `packet_id` 101, `flags`
0x88, and the payload length its command declares. -/
def Obligations.MatchImpliesWellFormedPacket : Prop :=
  ∀ s t : State, exec .validate s = .next t → t.status.matched = true →
    (List.range 8).map (inByte s) = [0x54, 0x53, 0x33, 0x49, 0x4E, 0x49, 0x54, 0x31] ∧
    inByte s 8 = 0x00 ∧ inByte s 9 = 0x65 ∧ inByte s 10 = 0x00 ∧ inByte s 11 = 0x00 ∧ inByte s 12 = 0x88 ∧
    inByte s 17 ∈ ([0, 1, 2, 3, 5] : List Byte) ∧
    s.regs.inLen.toNat = 18 + payloadSize (inByte s 17)

/-- Statelessness (R240): the verdict is a function of the packet, its length, the configuration, `NOW`, the client
identity and the seed alone, not of the cache, the SipHash state, or anything else. Of a length past the 512 bytes of
`IN_BUF` only the bytes of the buffer can count; there the verdict is R230's range error, and that its `MATCH` is 0 on
every state is the model's reading (log 18). -/
def Obligations.VerdictStateless : Prop :=
  ∀ s s' t t' : State, CacheOk s → CacheOk s' →
    s'.regs.inLen = s.regs.inLen → (∀ a, a < s.regs.inLen.toNat → a < 512 → inByte s' a = inByte s a) →
    s'.regs.cfg = s.regs.cfg → s'.regs.minClientVersion = s.regs.minClientVersion →
    s'.regs.maxUtcOffset = s.regs.maxUtcOffset → s'.regs.now = s.regs.now → s'.regs.af = s.regs.af →
    s'.regs.srcAddr = s.regs.srcAddr → s'.regs.dstAddr = s.regs.dstAddr → s'.regs.srcPort = s.regs.srcPort →
    s'.regs.masterSeed = s.regs.masterSeed →
    exec .validate s = .next t → exec .validate s' = .next t' →
      t'.status.matched = t.status.matched ∧ t'.status.reason = t.status.reason ∧ t'.status.err = t.status.err

/-- The commands with a length check only (R103, R237): with the table's payload size and a version that passes, the
packet is accepted and nothing else changes. That the latched word stays is the model's choice (log 19). -/
def Obligations.LengthOnlyCommandsAccepted : Prop :=
  ∀ (s : State) (version : U32) (payload : List Byte),
    ¬ (minverEn s = true ∧ version < s.regs.minClientVersion) →
    (payload.length = 20 → exec (.wireSetCookie version payload) s = .next { s with
      status := { s.status with busy := false, done := true, matched := true, err := 0, reason := 0 } }) ∧
    (payload.length = 244 → exec (.wireSetPuzzle version payload) s = .next { s with
      status := { s.status with busy := false, done := true, matched := true, err := 0, reason := 0 } }) ∧
    (payload.length = 1 → exec (.wireResetPuzzle version payload) s = .next { s with
      status := { s.status with busy := false, done := true, matched := true, err := 0, reason := 0 } })

/-- The GET_COOKIE treatment (R233, R234): with the right length and a version that passes, the packet is rejected with
`TIME_OFFSET` exactly when the check is enabled and the exact distance of `NOW` and the timestamp exceeds the
tolerance; else it is accepted. That the latched word stays is the model's choice (log 19). -/
def Obligations.GetCookieTimestampVerdict : Prop :=
  ∀ (s : State) (version : U32) (payload : List Byte), payload.length = 16 →
    ¬ (minverEn s = true ∧ version < s.regs.minClientVersion) →
    ∃ late : Bool,
      (late = true ↔ utcEn s = true ∧
        s.regs.maxUtcOffset.toNat < Nat.dist s.regs.now.toNat
          (256 ^ 3 * (payload.getD 0 0).toNat + 256 ^ 2 * (payload.getD 1 0).toNat +
            256 * (payload.getD 2 0).toNat + (payload.getD 3 0).toNat)) ∧
      exec (.wireGetCookie version payload) s = .next { s with
        status := { s.status with
          busy := false, done := true, err := 0, matched := !late, reason := if late then 0x09 else 0x00 } }

/-- The GET_PUZZLE treatment (R235, R236): with the check off the packet is accepted; with it on, an index of 8 or more,
an unsupported family and a cookie that differs from the recomputed one are rejected in this order, and only a
comparison may refresh the cache. That the latched word stays is the model's choice (log 19). -/
def Obligations.GetPuzzleCookieVerdict : Prop :=
  ∀ (s : State) (version : U32) (payload : List Byte), CacheOk s → payload.length = 20 →
    ¬ (minverEn s = true ∧ version < s.regs.minClientVersion) →
    ∃ (reason : Byte) (c : Cache),
      exec (.wireGetPuzzle version payload) s = .next { s with
        cache := c
        status := { s.status with
          busy := false, done := true, err := 0, matched := reason == 0, reason := reason } } ∧
      (cookieEn s = false → reason = 0x00 ∧ c = s.cache) ∧
      (cookieEn s = true → 8 ≤ payload.getD 8 0 → reason = 0x0A ∧ c = s.cache) ∧
      (cookieEn s = true → payload.getD 8 0 < 8 → familySupported s = false → reason = 0x0B ∧ c = s.cache) ∧
      (cookieEn s = true → payload.getD 8 0 < 8 → familySupported s = true →
        c = lookupCache s.regs.now (payload.getD 8 0) s ∧
        reason = if payload.take 8 = le64bytes (identityCookie s (windowKey s s.regs.now (payload.getD 8 0)))
          then 0x00 else 0x0C)

/-- Every dispatched command with a table entry is rejected with `BAD_LENGTH` when its payload has another length, and
with `OLD_VERSION` when the length is right and the version check fails (R229, R231, R222). That the latched word stays
is the model's choice (log 19). -/
def Obligations.LengthThenVersionRejects : Prop :=
  ∀ (s : State) (version : U32) (payload : List Byte) (i : Instr) (size : Nat),
    (i, size) ∈ [(Instr.wireGetCookie version payload, 16), (.wireSetCookie version payload, 20),
      (.wireGetPuzzle version payload, 20), (.wireSetPuzzle version payload, 244),
      (.wireResetPuzzle version payload, 1)] →
    (payload.length ≠ size → exec i s = .next { s with
      status := { s.status with busy := false, done := true, matched := false, err := 0, reason := 0x07 } }) ∧
    (payload.length = size → minverEn s = true → version < s.regs.minClientVersion → exec i s = .next { s with
      status := { s.status with busy := false, done := true, matched := false, err := 0, reason := 0x08 } })

/-- SOLVE_PUZZLE and RESET have no payload size: the packet is rejected with `UNKNOWN_COMMAND` (R110, R228). That the
latched word stays is the model's choice (log 19). -/
def Obligations.SizelessCommandsRejected : Prop :=
  ∀ (s : State) (version : U32) (payload : List Byte) (i : Instr),
    i = .wireSolvePuzzle version payload ∨ i = .wireReset version payload → exec i s = .next { s with
      status := { s.status with busy := false, done := true, matched := false, err := 0, reason := 0x06 } }

/-! ## Reply builder -/

/-- `BUILD_GET_COOKIE` (R260 to R263): the 30-byte packet with the low 32 bits of `NOW` big-endian and four bytes of
which nothing is said; every buffer byte outside `OUT_BUF[0..30)` and every register but `OUT_LEN` is kept. That the
latched word stays is the model's choice (log 19). -/
def Obligations.BuildGetCookieReply : Prop :=
  ∀ s : State, ∃ (r0 r1 r2 r3 : Byte) (t : State), exec .buildGetCookie s = .next t ∧
    outBytes t 0 30 =
      [0x54, 0x53, 0x33, 0x49, 0x4E, 0x49, 0x54, 0x31, 0x00, 0x65, 0x00, 0x00, 0x88, 0x00,
       s.regs.now.extractLsb' 24 8, s.regs.now.extractLsb' 16 8, s.regs.now.extractLsb' 8 8,
       s.regs.now.extractLsb' 0 8, r0, r1, r2, r3, 0, 0, 0, 0, 0, 0, 0, 0] ∧
    (∀ a, a < 0x400 ∨ 0x400 + 30 ≤ a → bufByte t a = bufByte s a) ∧
    t.res = { s.res with outLen := 30 } ∧
    t.status = { s.status with busy := false, done := true, err := 0 } ∧
    t.cmd = s.cmd ∧ t.regs = s.regs ∧ t.cache = s.cache ∧ t.sip = s.sip

/-- `BUILD_SET_COOKIE` (R264 to R267): with a supported family and, when `ZRS = 0`, a trigger of 26 to 512 bytes, the
34-byte packet with the cookie minted under the key of `NOW mod 8`, and either zeros or the trigger's random field
reversed; every buffer byte outside `OUT_BUF[0..34)` is kept. That the latched word stays is the model's choice (log
19). -/
def Obligations.BuildSetCookieReply : Prop :=
  ∀ s : State, CacheOk s → familySupported s = true →
    zrs s = true ∨ (26 ≤ s.regs.inLen.toNat ∧ s.regs.inLen.toNat ≤ 512) →
    ∃ (p : Byte) (t : State), p.toNat = s.regs.now.toNat % 8 ∧ exec .buildSetCookie s = .next t ∧
      outBytes t 0 34 =
        [0x54, 0x53, 0x33, 0x49, 0x4E, 0x49, 0x54, 0x31, 0x00, 0x65, 0x00, 0x00, 0x88, 0x01] ++
        le64bytes (identityCookie s (windowKey s s.regs.now p)) ++ [p] ++ [0, 0, 0, 0, 0, 0, 0] ++
        (if zrs s then [0, 0, 0, 0] else [inByte s 25, inByte s 24, inByte s 23, inByte s 22]) ∧
      (∀ a, a < 0x400 ∨ 0x400 + 34 ≤ a → bufByte t a = bufByte s a) ∧
      t.res = { s.res with
        result := identityCookie s (windowKey s s.regs.now p), resIndex := p, outLen := 34 } ∧
      t.cache = lookupCache s.regs.now p s ∧
      t.status = { s.status with busy := false, done := true, err := 0 } ∧
      t.cmd = s.cmd ∧ t.regs = s.regs ∧ t.sip = s.sip ∧ t.env = s.env

/-- The errors of `BUILD_SET_COOKIE` in their order (R264, R302): family, then with `ZRS = 0` range, then a short
trigger; each changes nothing but `STATUS`. That the latched word stays is the model's choice (log 19). -/
def Obligations.BuildSetCookieErrors : Prop :=
  ∀ s : State,
    (familySupported s = false →
      exec .buildSetCookie s = .next { s with status := { s.status with busy := false, done := true, err := 0x05 } }) ∧
    (familySupported s = true → zrs s = false → 512 < s.regs.inLen.toNat →
      exec .buildSetCookie s = .next { s with status := { s.status with busy := false, done := true, err := 0x03 } }) ∧
    (familySupported s = true → zrs s = false → s.regs.inLen.toNat < 26 →
      exec .buildSetCookie s = .next { s with status := { s.status with busy := false, done := true, err := 0x06 } })

/-- `BUILD_RESET` (R268, R269): one fixed payload of at most 242 bytes, the same at every command. That the latched
word stays is the model's choice (log 19). -/
def Obligations.BuildResetReply : Prop :=
  ∃ payload : List Byte, payload.length ≤ 242 ∧ ∀ s : State, ∃ t, exec .buildReset s = .next t ∧
    outBytes t 0 (14 + payload.length) =
      [0x54, 0x53, 0x33, 0x49, 0x4E, 0x49, 0x54, 0x31, 0x00, 0x65, 0x00, 0x00, 0x88, 0x7F] ++ payload ∧
    (∀ a, a < 0x400 ∨ 0x400 + (14 + payload.length) ≤ a → bufByte t a = bufByte s a) ∧
    t.res.outLen.toNat = 14 + payload.length ∧ { t.res with outLen := s.res.outLen } = s.res ∧
    t.status = { s.status with busy := false, done := true, err := 0 } ∧
    t.cmd = s.cmd ∧ t.regs = s.regs ∧ t.cache = s.cache ∧ t.sip = s.sip ∧ t.env = s.env

/-- `BUILD_RESET_PUZZLE` (R270): one fixed payload byte, the same at every command. That the latched word stays is the
model's choice (log 19). -/
def Obligations.BuildResetPuzzleReply : Prop :=
  ∃ b : Byte, ∀ s : State, ∃ t, exec .buildResetPuzzle s = .next t ∧
    outBytes t 0 15 = [0x54, 0x53, 0x33, 0x49, 0x4E, 0x49, 0x54, 0x31, 0x00, 0x65, 0x00, 0x00, 0x88, 0x05, b] ∧
    (∀ a, a < 0x400 ∨ 0x400 + 15 ≤ a → bufByte t a = bufByte s a) ∧
    t.res = { s.res with outLen := 15 } ∧
    t.status = { s.status with busy := false, done := true, err := 0 } ∧
    t.cmd = s.cmd ∧ t.regs = s.regs ∧ t.cache = s.cache ∧ t.sip = s.sip ∧ t.env = s.env

/-- The cookie round trip (R241, R272): a cookie and index written by `BUILD_SET_COOKIE` at `t0`, echoed in a GET_PUZZLE
packet from the same client identity to an instance with the same seed, is accepted by `VALIDATE` at every time from
`t0 & ~3` up to, not including, `(t0 & ~3) + 8`, whatever the two caches hold. -/
def Obligations.CookieRoundTrip : Prop :=
  ∀ (s t u : State) (version : U32) (rest : List Byte), CacheOk s → CacheOk u →
    exec .buildSetCookie s = .next t → t.status.err = 0 →
    u.regs.masterSeed = s.regs.masterSeed → u.regs.af = s.regs.af → u.regs.srcAddr = s.regs.srcAddr →
    u.regs.dstAddr = s.regs.dstAddr → u.regs.srcPort = s.regs.srcPort →
    packetOperand u = encodePacket ⟨.getPuzzle, version, outBytes t 14 9 ++ rest⟩ → rest.length = 11 →
    ¬ (minverEn u = true ∧ version < u.regs.minClientVersion) →
    s.regs.now.toNat / 4 * 4 ≤ u.regs.now.toNat → u.regs.now.toNat < s.regs.now.toNat / 4 * 4 + 8 →
    ∃ v, exec .validate u = .next v ∧ v.status.matched = true ∧ v.status.reason = 0 ∧ v.status.err = 0

/-! ## The whole machine -/

/-- Every instruction completes from every state (R72, R300): `BUSY` falls, `DONE` rises; the engine never writes an
operand register, `WERR`, a byte outside `OUT_BUF`, or the host's side of the environment (R27, R38, R54, R303). That it
leaves the latched word is the model's choice (log 19). -/
def Obligations.EveryInstructionCompletes : Prop :=
  ∀ (i : Instr) (s : State), ∃ t, exec i s = .next t ∧
    t.status.busy = false ∧ t.status.done = true ∧ t.status.werr = s.status.werr ∧
    t.regs = s.regs ∧ t.cmd = s.cmd ∧ { t.env with draws := s.env.draws } = s.env ∧
    (∀ a, a < 0x400 ∨ 0x500 ≤ a → bufByte t a = bufByte s a)

/-- A command that ends with an error changes nothing but `STATUS`, and `REASON` only for `VALIDATE`'s range error
(R300). That the latched word stays is the model's choice (log 19). -/
def Obligations.ErrorsChangeOnlyStatus : Prop :=
  ∀ (i : Instr) (s t : State), exec i s = .next t → t.status.err ≠ 0 →
    { t with status := s.status } = s ∧
    (t.status.reason = s.status.reason ∨ (i = .validate ∧ t.status.err = 0x03 ∧ t.status.reason = 0x0D))

/-- Right after reset every invariant holds; that the unspecified SipHash words satisfy theirs is the model's choice
(log 10). -/
def Obligations.ResetSatisfiesInvariant : Prop := Inv State.reset

/-- Every step keeps the invariants: from every state that satisfies them, reached or not, a step leads to one that does.
They are the status rules (R22, with the codes of R223 and R301), the ranges of the results (R34, R36), the cache
invariant and the tag parity (R41, R179), the relation of the SipHash words (R51), and the canonical form of the memory,
which is the model's own (log 4). R51 says nothing of the words that the reset input leaves open: that they satisfy the
relation after it is the model's choice (log 10). -/
def Obligations.StepKeepsInvariant : Prop :=
  ∀ s t : State, Inv s → step s = .next t → Inv t

/-- While the host issues only accesses the bus has, no step stops (R63, R91, R300). -/
def Obligations.ProgressOnWordAccesses : Prop :=
  ∀ s : State, PendingOk s → ∃ t, step s = .next t ∧ PendingOk t

/-- Command atomicity and completion (R72, R75, R93, R347): whatever word accesses the host issues meanwhile, the command
in flight completes after its finite delay. Its results are those of the instruction on the state the run starts from,
which right after acceptance is the state of its acceptance; an illegal word ends with `ERR = 0x01` and no other change,
and is not kept (R301): that 0 stands in its place is the model's choice (log 19).
The number of steps is the model's: the latency is a free count (log 2), and a step is one unit of it (log 11). -/
def Obligations.CommandsAreAtomic : Prop :=
  ∀ s : State, s.status.busy = true → PendingOk s → .reset ∉ s.env.pending →
    ∃ t, Host.Core.run core (s.env.wait + 1) s = .next t ∧ t.status.busy = false ∧ t.status.done = true ∧
      (∀ i, decodeCommand s.cmd = .ok i → ∃ u, exec i s = .next u ∧
        t.status.err = u.status.err ∧ t.status.matched = u.status.matched ∧ t.status.reason = u.status.reason ∧
        t.regs = u.regs ∧ t.res = u.res ∧ t.cache = u.cache ∧ t.sip = u.sip ∧ t.mem = u.mem) ∧
      (∀ e, decodeCommand s.cmd = .error e →
        t.cmd = 0 ∧ t.status.err = 0x01 ∧ t.status.matched = s.status.matched ∧ t.status.reason = s.status.reason ∧
        t.regs = s.regs ∧ t.res = s.res ∧ t.cache = s.cache ∧ t.sip = s.sip ∧ t.mem = s.mem)

/-- Reset (R330): idle, every register outside the buffers reads 0, both slots invalid, no hash in progress, and 60 zero
seed bytes. That an unwritten buffer is a memory with nothing listed is the model's form (log 4). -/
def Obligations.ResetState : Prop :=
  (∀ r : Reg, (∀ i, r ≠ .inBuf i) → (∀ i, r ≠ .outBuf i) → readReg r State.reset = 0) ∧
  State.reset.status.busy = false ∧ State.reset.cache.slot0.valid = false ∧
  State.reset.cache.slot1.valid = false ∧ State.reset.sip.active = false ∧
  masterSeedBytes State.reset = List.replicate 60 0 ∧ State.reset.mem = []

/-- The reset input (R330, R21): idle or busy, the instance takes its reset state and a command in flight leaves no result.
The next state is given whole, so it also says what R330 leaves unspecified, and there it is the model's choice: `TAG` and
`DIGEST` of both slots become 0 (log 9), `SIP_V0` to `SIP_V3`, `SIP_TAIL`, `SIP_NTAIL` and `SIP_COUNT` become 0 (log 10), and
no buffer byte is listed, so each reads as a new free value (log 4). The environment keeps its
accesses, what it has read, which instance this is and the numbers of the draws (the model's choice, logs 15 and 16). -/
def Obligations.ResetInputEffect : Prop :=
  ∀ (s : State) (rest : List HostAccess), completesNow s = false → s.env.pending = .reset :: rest →
    ∃ e : Env, step s = .next { State.reset with env := e } ∧
      e.pending = rest ∧ e.observed = s.env.observed ∧ e.unit = s.env.unit ∧ e.draws = s.env.draws ∧
        e.accepted = s.env.accepted ∧ e.epoch = s.env.epoch + 1

/-- The seed, the slots and the SipHash words reach no host read (R29, R43, R50): replacing them changes the value read
at no offset. -/
def Obligations.SecretsUnreadable : Prop :=
  ∀ (s : State) (seed : Vector U32 15) (sl0 sl1 : Slot) (x : Sip) (off : Nat), x.active = s.sip.active →
    readOffset off { s with
      regs := { s.regs with masterSeed := seed }
      cache := { s.cache with slot0 := sl0, slot1 := sl1 }
      sip := x } = readOffset off s

/-- Instances share no state (R312): a step of one leaves every other as it is. -/
def Obligations.InstancesIndependent : Prop :=
  ∀ (sys sys' : System) (j k : Nat), j ≠ k → stepNode k sys = .next sys' →
    sys'[j]? = sys[j]? ∧ sys'.length = sys.length

/-- Instances agree (R187, R208, R313): two instances with the same seed, time and client identity, whatever their
caches hold, mint the same cookie and index. -/
def Obligations.InstancesAgree : Prop :=
  ∀ s s' t t' : State, CacheOk s → CacheOk s' → s'.regs.masterSeed = s.regs.masterSeed →
    s'.regs.now = s.regs.now → s'.regs.af = s.regs.af → s'.regs.srcAddr = s.regs.srcAddr →
    s'.regs.dstAddr = s.regs.dstAddr → s'.regs.srcPort = s.regs.srcPort →
    exec .buildSetCookie s = .next t → exec .buildSetCookie s' = .next t' →
    t.status.err = 0 → t'.status.err = 0 →
      t'.res.result = t.res.result ∧ t'.res.resIndex = t.res.resIndex ∧
      outBytes t' 0 23 = outBytes t 0 23
end

