-- ==== Sys2Proof/Laws/Bytes.lean ====
section
/-! SUPPORT. The byte-order helpers: what each byte of a word is, and that reading the bytes of a word gives it back. -/

namespace Sys2Proof

theorem byteOf_toNat (v : BitVec w) (i : Nat) : (byteOf v i).toNat = v.toNat / 256 ^ i % 256 := by
  simp [byteOf, Nat.shiftRight_eq_div_pow, Nat.pow_mul]

@[simp] theorem le32bytes_length (v : U32) : (le32bytes v).length = 4 := rfl

@[simp] theorem le64bytes_length (v : U64) : (le64bytes v).length = 8 := rfl

@[simp] theorem be16bytes_length (v : U16) : (be16bytes v).length = 2 := rfl

@[simp] theorem be32bytes_length (v : U32) : (be32bytes v).length = 4 := rfl

@[simp] theorem be64bytes_length (v : U64) : (be64bytes v).length = 8 := rfl

theorem le64_le64bytes (v : U64) : le64 (le64bytes v) = v := by
  apply BitVec.eq_of_toNat_eq
  have := v.isLt
  simp only [le64, le64bytes, leNat, byteOf_toNat, BitVec.toNat_ofNat]
  omega

theorem be32_be32bytes (v : U32) : be32 (be32bytes v) = v := by
  apply BitVec.eq_of_toNat_eq
  have := v.isLt
  simp only [be32, be32bytes, beNat, List.foldl, byteOf_toNat, BitVec.toNat_ofNat]
  omega

theorem be16bytes_be16 (a b : Byte) : be16bytes (be16 [a, b]) = [a, b] := by
  have h1 := a.isLt
  have h2 := b.isLt
  simp only [be16bytes, List.cons.injEq, and_true]
  refine ⟨?_, ?_⟩ <;>
    (apply BitVec.eq_of_toNat_eq; simp only [be16, beNat, List.foldl, byteOf_toNat, BitVec.toNat_ofNat]; omega)

theorem be32bytes_be32 (a b c d : Byte) : be32bytes (be32 [a, b, c, d]) = [a, b, c, d] := by
  have h1 := a.isLt
  have h2 := b.isLt
  have h3 := c.isLt
  have h4 := d.isLt
  simp only [be32bytes, List.cons.injEq, and_true]
  refine ⟨?_, ?_, ?_, ?_⟩ <;>
    (apply BitVec.eq_of_toNat_eq; simp only [be32, beNat, List.foldl, byteOf_toNat, BitVec.toNat_ofNat]; omega)

/-- A little-endian value is below `256` to the number of its bytes. -/
theorem leNat_lt (B : List Byte) : leNat B < 256 ^ B.length := by
  induction B with
  | nil => simp [leNat]
  | cons b bs ih =>
    have := b.isLt
    simp only [leNat, List.length_cons, Nat.pow_succ]
    omega

/-- The value of a concatenation: the second part stands above the first. -/
theorem leNat_append (A B : List Byte) : leNat (A ++ B) = leNat A + 256 ^ A.length * leNat B := by
  induction A with
  | nil => simp [leNat]
  | cons a as ih =>
    simp only [List.cons_append, leNat, ih, List.length_cons, Nat.pow_succ]
    ring

@[simp] theorem slice_length (B : List Byte) (a b : Nat) : (slice B a b).length = min b B.length - a := by
  simp [slice]

namespace Machine

/-- The bytes of an array of registers: four for each. -/
@[simp] theorem registerBytes_length (ws : Vector U32 n) : (registerBytes ws).length = 4 * n := by
  have : ∀ l : List U32, (l.flatMap le32bytes).length = 4 * l.length := by
    intro l
    induction l with
    | nil => rfl
    | cons x xs ih => simp only [List.flatMap_cons, List.length_append, ih, le32bytes_length, List.length_cons]; omega
  simp [registerBytes, this]

/-- The master seed is 60 bytes (R29). -/
@[simp] theorem masterSeedBytes_length (s : State) : (masterSeedBytes s).length = 60 := by
  simp [masterSeedBytes]

@[simp] theorem srcAddrBytes_length (s : State) : (srcAddrBytes s).length = 16 := by
  simp [srcAddrBytes]

@[simp] theorem dstAddrBytes_length (s : State) : (dstAddrBytes s).length = 16 := by
  simp [dstAddrBytes]

end Machine

end Sys2Proof
end

