-- ==== Sys2Proof/Laws/Decode.lean ====
section
/-! SUPPORT. Small facts about the decoders' tables and the packet's layout. -/

namespace Sys2Proof

/-- The 13 header constants, written out (R100 to R102). -/
theorem headerConstants_eq : headerConstants =
    [0x54, 0x53, 0x33, 0x49, 0x4E, 0x49, 0x54, 0x31, 0x00, 0x65, 0x00, 0x00, 0x88] := by decide

@[simp] theorem headerConstants_length : headerConstants.length = 13 := rfl

/-- The client packet with its 18 header bytes written out (R100). -/
theorem encodePacket_eq (p : ClientPacket) : encodePacket p =
    0x54 :: 0x53 :: 0x33 :: 0x49 :: 0x4E :: 0x49 :: 0x54 :: 0x31 :: 0x00 :: 0x65 :: 0x00 :: 0x00 :: 0x88 ::
    byteOf p.version 3 :: byteOf p.version 2 :: byteOf p.version 1 :: byteOf p.version 0 ::
    p.command.code :: p.payload := by
  simp [encodePacket, headerConstants_eq, be32bytes]

@[simp] theorem encodePacket_length (p : ClientPacket) : (encodePacket p).length = 18 + p.payload.length := by
  simp [encodePacket_eq]; omega

@[simp] theorem wireCommandOf_code (c : WireCommand) : wireCommandOf c.code = some c := by cases c <;> rfl

theorem wireCommandOf_eq_some {b : Byte} {c : WireCommand} (h : wireCommandOf b = some c) : b = c.code := by
  unfold wireCommandOf at h
  split_ifs at h <;> simp at h <;> subst h <;> assumption

theorem cons_of_length {n : Nat} {P : List Byte} (h : n + 1 ≤ P.length) :
    ∃ a Q, P = a :: Q ∧ n ≤ Q.length := by
  cases P with
  | nil => simp at h
  | cons a Q => exact ⟨a, Q, rfl, by simpa using h⟩

/-- A byte string of at least 18 bytes, written out up to the payload. -/
theorem eighteen_bytes {P0 : List Byte} (h0 : 18 ≤ P0.length) :
    ∃ a0 a1 a2 a3 a4 a5 a6 a7 a8 a9 a10 a11 a12 a13 a14 a15 a16 a17 Q,
      P0 = a0 :: a1 :: a2 :: a3 :: a4 :: a5 :: a6 :: a7 :: a8 :: a9 :: a10 :: a11 :: a12 :: a13 :: a14 :: a15 ::
        a16 :: a17 :: Q := by
  obtain ⟨a0, P1, rfl, h1⟩ := cons_of_length h0
  obtain ⟨a1, P2, rfl, h2⟩ := cons_of_length h1
  obtain ⟨a2, P3, rfl, h3⟩ := cons_of_length h2
  obtain ⟨a3, P4, rfl, h4⟩ := cons_of_length h3
  obtain ⟨a4, P5, rfl, h5⟩ := cons_of_length h4
  obtain ⟨a5, P6, rfl, h6⟩ := cons_of_length h5
  obtain ⟨a6, P7, rfl, h7⟩ := cons_of_length h6
  obtain ⟨a7, P8, rfl, h8⟩ := cons_of_length h7
  obtain ⟨a8, P9, rfl, h9⟩ := cons_of_length h8
  obtain ⟨a9, P10, rfl, h10⟩ := cons_of_length h9
  obtain ⟨a10, P11, rfl, h11⟩ := cons_of_length h10
  obtain ⟨a11, P12, rfl, h12⟩ := cons_of_length h11
  obtain ⟨a12, P13, rfl, h13⟩ := cons_of_length h12
  obtain ⟨a13, P14, rfl, h14⟩ := cons_of_length h13
  obtain ⟨a14, P15, rfl, h15⟩ := cons_of_length h14
  obtain ⟨a15, P16, rfl, h16⟩ := cons_of_length h15
  obtain ⟨a16, P17, rfl, h17⟩ := cons_of_length h16
  obtain ⟨a17, P18, rfl, h18⟩ := cons_of_length h17
  exact ⟨_, _, _, _, _, _, _, _, _, _, _, _, _, _, _, _, _, _, _, rfl⟩

/-- What an entry found by `List.lookup` is. -/
theorem mem_of_lookup {β : Type} [BEq β] [LawfulBEq β] {l : List (β × γ)} {b : β} {i : γ}
    (h : l.lookup b = some i) : (b, i) ∈ l := by
  induction l with
  | nil => simp at h
  | cons e es ih =>
    obtain ⟨c, j⟩ := e
    rw [List.lookup_cons] at h
    split at h
    · next he => simp only [Option.some.injEq] at h; subst h; simp [beq_iff_eq.mp he]
    · exact List.mem_cons_of_mem _ (ih h)

/-- A word with `RSVD = 0` is the command word of its `OP` (R90). -/
theorem commandWord_of_rsvd {w : U32} (h : w.extractLsb' 8 24 = 0) : commandWord (w.extractLsb' 0 8) = w := by
  have h1 := congrArg BitVec.toNat h
  have := w.isLt
  apply BitVec.eq_of_toNat_eq
  simp only [commandWord, BitVec.extractLsb'_toNat, Nat.shiftRight_eq_div_pow, BitVec.toNat_setWidth] at *
  simp at *
  omega

end Sys2Proof
end

