-- ==== Sys2Proof/Laws/State.lean ====
section
/-! SUPPORT. For every named update of the state, what each group of fields reads as after it. -/

namespace Sys2Proof.Machine

@[simp] theorem accept_status (w : U32) (s : State) :
    (accept w s).status = { s.status with busy := true, done := false, matched := false, err := 0 } := rfl
@[simp] theorem accept_cmd (w : U32) (s : State) : (accept w s).cmd = w := rfl
@[simp] theorem accept_regs (w : U32) (s : State) : (accept w s).regs = s.regs := rfl
@[simp] theorem accept_res (w : U32) (s : State) : (accept w s).res = s.res := rfl
@[simp] theorem accept_cache (w : U32) (s : State) : (accept w s).cache = s.cache := rfl
@[simp] theorem accept_sip (w : U32) (s : State) : (accept w s).sip = s.sip := rfl
@[simp] theorem accept_mem (w : U32) (s : State) : (accept w s).mem = s.mem := rfl
@[simp] theorem accept_env (w : U32) (s : State) :
    (accept w s).env =
      { s.env with wait := Config.latency s.env.unit s.env.accepted, accepted := s.env.accepted + 1 } := rfl

@[simp] theorem completeWith_status (code : Byte) (s : State) :
    (completeWith code s).status = { s.status with busy := false, done := true, err := code } := rfl
@[simp] theorem completeWith_cmd (code : Byte) (s : State) : (completeWith code s).cmd = s.cmd := rfl
@[simp] theorem completeWith_regs (code : Byte) (s : State) : (completeWith code s).regs = s.regs := rfl
@[simp] theorem completeWith_res (code : Byte) (s : State) : (completeWith code s).res = s.res := rfl
@[simp] theorem completeWith_cache (code : Byte) (s : State) : (completeWith code s).cache = s.cache := rfl
@[simp] theorem completeWith_sip (code : Byte) (s : State) : (completeWith code s).sip = s.sip := rfl
@[simp] theorem completeWith_mem (code : Byte) (s : State) : (completeWith code s).mem = s.mem := rfl
@[simp] theorem completeWith_env (code : Byte) (s : State) : (completeWith code s).env = s.env := rfl

@[simp] theorem complete_status (s : State) :
    (complete s).status = { s.status with busy := false, done := true, err := 0 } := rfl
@[simp] theorem complete_cmd (s : State) : (complete s).cmd = s.cmd := rfl
@[simp] theorem complete_regs (s : State) : (complete s).regs = s.regs := rfl
@[simp] theorem complete_res (s : State) : (complete s).res = s.res := rfl
@[simp] theorem complete_cache (s : State) : (complete s).cache = s.cache := rfl
@[simp] theorem complete_sip (s : State) : (complete s).sip = s.sip := rfl
@[simp] theorem complete_mem (s : State) : (complete s).mem = s.mem := rfl
@[simp] theorem complete_env (s : State) : (complete s).env = s.env := rfl

@[simp] theorem raise_status (e : CmdError) (s : State) :
    (raise e s).status = { s.status with busy := false, done := true, err := e.code } := rfl
@[simp] theorem raise_cmd (e : CmdError) (s : State) : (raise e s).cmd = s.cmd := rfl
@[simp] theorem raise_regs (e : CmdError) (s : State) : (raise e s).regs = s.regs := rfl
@[simp] theorem raise_res (e : CmdError) (s : State) : (raise e s).res = s.res := rfl
@[simp] theorem raise_cache (e : CmdError) (s : State) : (raise e s).cache = s.cache := rfl
@[simp] theorem raise_sip (e : CmdError) (s : State) : (raise e s).sip = s.sip := rfl
@[simp] theorem raise_mem (e : CmdError) (s : State) : (raise e s).mem = s.mem := rfl
@[simp] theorem raise_env (e : CmdError) (s : State) : (raise e s).env = s.env := rfl

@[simp] theorem dropCommand_status (s : State) : (dropCommand s).status = s.status := rfl
@[simp] theorem dropCommand_cmd (s : State) : (dropCommand s).cmd = 0 := rfl
@[simp] theorem dropCommand_regs (s : State) : (dropCommand s).regs = s.regs := rfl
@[simp] theorem dropCommand_res (s : State) : (dropCommand s).res = s.res := rfl
@[simp] theorem dropCommand_cache (s : State) : (dropCommand s).cache = s.cache := rfl
@[simp] theorem dropCommand_sip (s : State) : (dropCommand s).sip = s.sip := rfl
@[simp] theorem dropCommand_mem (s : State) : (dropCommand s).mem = s.mem := rfl
@[simp] theorem dropCommand_env (s : State) : (dropCommand s).env = s.env := rfl

@[simp] theorem completeIllegal_status (s : State) :
    (completeIllegal s).status = { s.status with busy := false, done := true, err := 0x01 } := rfl
@[simp] theorem completeIllegal_cmd (s : State) : (completeIllegal s).cmd = 0 := rfl
@[simp] theorem completeIllegal_regs (s : State) : (completeIllegal s).regs = s.regs := rfl
@[simp] theorem completeIllegal_res (s : State) : (completeIllegal s).res = s.res := rfl
@[simp] theorem completeIllegal_cache (s : State) : (completeIllegal s).cache = s.cache := rfl
@[simp] theorem completeIllegal_sip (s : State) : (completeIllegal s).sip = s.sip := rfl
@[simp] theorem completeIllegal_mem (s : State) : (completeIllegal s).mem = s.mem := rfl
@[simp] theorem completeIllegal_env (s : State) : (completeIllegal s).env = s.env := rfl

@[simp] theorem reject_status (r : RejectReason) (s : State) :
    (reject r s).status = { s.status with busy := false, done := true, matched := false, err := 0, reason := r.code } := rfl
@[simp] theorem reject_cmd (r : RejectReason) (s : State) : (reject r s).cmd = s.cmd := rfl
@[simp] theorem reject_regs (r : RejectReason) (s : State) : (reject r s).regs = s.regs := rfl
@[simp] theorem reject_res (r : RejectReason) (s : State) : (reject r s).res = s.res := rfl
@[simp] theorem reject_cache (r : RejectReason) (s : State) : (reject r s).cache = s.cache := rfl
@[simp] theorem reject_sip (r : RejectReason) (s : State) : (reject r s).sip = s.sip := rfl
@[simp] theorem reject_mem (r : RejectReason) (s : State) : (reject r s).mem = s.mem := rfl
@[simp] theorem reject_env (r : RejectReason) (s : State) : (reject r s).env = s.env := rfl

@[simp] theorem acceptPacket_status (s : State) :
    (acceptPacket s).status = { s.status with busy := false, done := true, matched := true, err := 0, reason := 0 } := rfl
@[simp] theorem acceptPacket_cmd (s : State) : (acceptPacket s).cmd = s.cmd := rfl
@[simp] theorem acceptPacket_regs (s : State) : (acceptPacket s).regs = s.regs := rfl
@[simp] theorem acceptPacket_res (s : State) : (acceptPacket s).res = s.res := rfl
@[simp] theorem acceptPacket_cache (s : State) : (acceptPacket s).cache = s.cache := rfl
@[simp] theorem acceptPacket_sip (s : State) : (acceptPacket s).sip = s.sip := rfl
@[simp] theorem acceptPacket_mem (s : State) : (acceptPacket s).mem = s.mem := rfl
@[simp] theorem acceptPacket_env (s : State) : (acceptPacket s).env = s.env := rfl

@[simp] theorem raiseLenRange_status (s : State) :
    (raiseLenRange s).status = { s.status with busy := false, done := true, matched := false, err := 0x03, reason := 0x0D } := rfl
@[simp] theorem raiseLenRange_cmd (s : State) : (raiseLenRange s).cmd = s.cmd := rfl
@[simp] theorem raiseLenRange_regs (s : State) : (raiseLenRange s).regs = s.regs := rfl
@[simp] theorem raiseLenRange_res (s : State) : (raiseLenRange s).res = s.res := rfl
@[simp] theorem raiseLenRange_cache (s : State) : (raiseLenRange s).cache = s.cache := rfl
@[simp] theorem raiseLenRange_sip (s : State) : (raiseLenRange s).sip = s.sip := rfl
@[simp] theorem raiseLenRange_mem (s : State) : (raiseLenRange s).mem = s.mem := rfl
@[simp] theorem raiseLenRange_env (s : State) : (raiseLenRange s).env = s.env := rfl

@[simp] theorem draw4_snd_status (s : State) : (draw4 s).2.status = s.status := rfl
@[simp] theorem draw4_snd_cmd (s : State) : (draw4 s).2.cmd = s.cmd := rfl
@[simp] theorem draw4_snd_regs (s : State) : (draw4 s).2.regs = s.regs := rfl
@[simp] theorem draw4_snd_res (s : State) : (draw4 s).2.res = s.res := rfl
@[simp] theorem draw4_snd_cache (s : State) : (draw4 s).2.cache = s.cache := rfl
@[simp] theorem draw4_snd_sip (s : State) : (draw4 s).2.sip = s.sip := rfl
@[simp] theorem draw4_snd_mem (s : State) : (draw4 s).2.mem = s.mem := rfl
@[simp] theorem draw4_snd_env (s : State) : (draw4 s).2.env = { s.env with draws := s.env.draws + 1 } := rfl

@[simp] theorem writeReply_status (B : List Byte) (s : State) : (writeReply B s).status = s.status := rfl
@[simp] theorem writeReply_cmd (B : List Byte) (s : State) : (writeReply B s).cmd = s.cmd := rfl
@[simp] theorem writeReply_regs (B : List Byte) (s : State) : (writeReply B s).regs = s.regs := rfl
@[simp] theorem writeReply_res (B : List Byte) (s : State) :
    (writeReply B s).res = { s.res with outLen := BitVec.ofNat 16 B.length } := rfl
@[simp] theorem writeReply_cache (B : List Byte) (s : State) : (writeReply B s).cache = s.cache := rfl
@[simp] theorem writeReply_sip (B : List Byte) (s : State) : (writeReply B s).sip = s.sip := rfl
@[simp] theorem writeReply_mem (B : List Byte) (s : State) :
    (writeReply B s).mem = Memory.writeBytes s.mem Config.outBufBase B := rfl
@[simp] theorem writeReply_env (B : List Byte) (s : State) : (writeReply B s).env = s.env := rfl

@[simp] theorem writeKeyResult_status (k : SipKey) (p : Byte) (s : State) :
    (writeKeyResult k p s).status = s.status := rfl
@[simp] theorem writeKeyResult_cmd (k : SipKey) (p : Byte) (s : State) : (writeKeyResult k p s).cmd = s.cmd := rfl
@[simp] theorem writeKeyResult_regs (k : SipKey) (p : Byte) (s : State) : (writeKeyResult k p s).regs = s.regs := rfl
@[simp] theorem writeKeyResult_res (k : SipKey) (p : Byte) (s : State) :
    (writeKeyResult k p s).res = { s.res with resKey0 := k.key0, resKey1 := k.key1, resIndex := p } := rfl
@[simp] theorem writeKeyResult_cache (k : SipKey) (p : Byte) (s : State) :
    (writeKeyResult k p s).cache = s.cache := rfl
@[simp] theorem writeKeyResult_sip (k : SipKey) (p : Byte) (s : State) : (writeKeyResult k p s).sip = s.sip := rfl
@[simp] theorem writeKeyResult_mem (k : SipKey) (p : Byte) (s : State) : (writeKeyResult k p s).mem = s.mem := rfl
@[simp] theorem writeKeyResult_env (k : SipKey) (p : Byte) (s : State) : (writeKeyResult k p s).env = s.env := rfl

@[simp] theorem writeCookieResult_status (c : U64) (p : Byte) (s : State) :
    (writeCookieResult c p s).status = s.status := rfl
@[simp] theorem writeCookieResult_cmd (c : U64) (p : Byte) (s : State) : (writeCookieResult c p s).cmd = s.cmd := rfl
@[simp] theorem writeCookieResult_regs (c : U64) (p : Byte) (s : State) :
    (writeCookieResult c p s).regs = s.regs := rfl
@[simp] theorem writeCookieResult_res (c : U64) (p : Byte) (s : State) :
    (writeCookieResult c p s).res = { s.res with result := c, resIndex := p } := rfl
@[simp] theorem writeCookieResult_cache (c : U64) (p : Byte) (s : State) :
    (writeCookieResult c p s).cache = s.cache := rfl
@[simp] theorem writeCookieResult_sip (c : U64) (p : Byte) (s : State) : (writeCookieResult c p s).sip = s.sip := rfl
@[simp] theorem writeCookieResult_mem (c : U64) (p : Byte) (s : State) : (writeCookieResult c p s).mem = s.mem := rfl
@[simp] theorem writeCookieResult_env (c : U64) (p : Byte) (s : State) : (writeCookieResult c p s).env = s.env := rfl

@[simp] theorem lookupSecret_snd_status (now : U64) (p : Byte) (s : State) :
    (lookupSecret now p s).2.status = s.status := rfl
@[simp] theorem lookupSecret_snd_cmd (now : U64) (p : Byte) (s : State) : (lookupSecret now p s).2.cmd = s.cmd := rfl
@[simp] theorem lookupSecret_snd_regs (now : U64) (p : Byte) (s : State) :
    (lookupSecret now p s).2.regs = s.regs := rfl
@[simp] theorem lookupSecret_snd_res (now : U64) (p : Byte) (s : State) : (lookupSecret now p s).2.res = s.res := rfl
@[simp] theorem lookupSecret_snd_cache (now : U64) (p : Byte) (s : State) :
    (lookupSecret now p s).2.cache = lookupCache now p s := rfl
@[simp] theorem lookupSecret_snd_sip (now : U64) (p : Byte) (s : State) : (lookupSecret now p s).2.sip = s.sip := rfl
@[simp] theorem lookupSecret_snd_mem (now : U64) (p : Byte) (s : State) : (lookupSecret now p s).2.mem = s.mem := rfl
@[simp] theorem lookupSecret_snd_env (now : U64) (p : Byte) (s : State) : (lookupSecret now p s).2.env = s.env := rfl

@[simp] theorem resetInput_status (s : State) : (resetInput s).status = Status.afterReset := rfl
@[simp] theorem resetInput_cmd (s : State) : (resetInput s).cmd = 0 := rfl
@[simp] theorem resetInput_regs (s : State) : (resetInput s).regs = Regs.afterReset := rfl
@[simp] theorem resetInput_res (s : State) : (resetInput s).res = Results.afterReset := rfl
@[simp] theorem resetInput_cache (s : State) : (resetInput s).cache = Cache.afterReset := rfl
@[simp] theorem resetInput_sip (s : State) : (resetInput s).sip = Sip.afterReset := rfl
@[simp] theorem resetInput_mem (s : State) : (resetInput s).mem = [] := rfl
@[simp] theorem resetInput_env (s : State) :
    (resetInput s).env = { s.env with wait := 0, epoch := s.env.epoch + 1 } := rfl

@[simp] theorem placeCommand_status (w : U32) (s : State) :
    (placeCommand w s).status = { s.status with busy := true, done := false, matched := false, err := 0 } := rfl
@[simp] theorem placeCommand_cmd (w : U32) (s : State) : (placeCommand w s).cmd = w := rfl
@[simp] theorem placeCommand_regs (w : U32) (s : State) : (placeCommand w s).regs = s.regs := rfl
@[simp] theorem placeCommand_res (w : U32) (s : State) : (placeCommand w s).res = s.res := rfl
@[simp] theorem placeCommand_cache (w : U32) (s : State) : (placeCommand w s).cache = s.cache := rfl
@[simp] theorem placeCommand_sip (w : U32) (s : State) : (placeCommand w s).sip = s.sip := rfl
@[simp] theorem placeCommand_mem (w : U32) (s : State) : (placeCommand w s).mem = s.mem := rfl
@[simp] theorem placeCommand_env (w : U32) (s : State) :
    (placeCommand w s).env = { s.env with wait := 0, accepted := s.env.accepted + 1 } := rfl

@[simp] theorem placePacket_status (P : List Byte) (s : State) : (placePacket P s).status = s.status := rfl
@[simp] theorem placePacket_cmd (P : List Byte) (s : State) : (placePacket P s).cmd = s.cmd := rfl
@[simp] theorem placePacket_regs (P : List Byte) (s : State) :
    (placePacket P s).regs = { s.regs with inLen := BitVec.ofNat 16 P.length } := rfl
@[simp] theorem placePacket_res (P : List Byte) (s : State) : (placePacket P s).res = s.res := rfl
@[simp] theorem placePacket_cache (P : List Byte) (s : State) : (placePacket P s).cache = s.cache := rfl
@[simp] theorem placePacket_sip (P : List Byte) (s : State) : (placePacket P s).sip = s.sip := rfl
@[simp] theorem placePacket_mem (P : List Byte) (s : State) :
    (placePacket P s).mem = Memory.writeBytes s.mem Config.inBufBase P := rfl
@[simp] theorem placePacket_env (P : List Byte) (s : State) : (placePacket P s).env = s.env := rfl

@[simp] theorem observe_status (v : U32) (s : State) : (observe v s).status = s.status := rfl
@[simp] theorem observe_cmd (v : U32) (s : State) : (observe v s).cmd = s.cmd := rfl
@[simp] theorem observe_regs (v : U32) (s : State) : (observe v s).regs = s.regs := rfl
@[simp] theorem observe_res (v : U32) (s : State) : (observe v s).res = s.res := rfl
@[simp] theorem observe_cache (v : U32) (s : State) : (observe v s).cache = s.cache := rfl
@[simp] theorem observe_sip (v : U32) (s : State) : (observe v s).sip = s.sip := rfl
@[simp] theorem observe_mem (v : U32) (s : State) : (observe v s).mem = s.mem := rfl
@[simp] theorem observe_env (v : U32) (s : State) :
    (observe v s).env = { s.env with observed := v :: s.env.observed } := rfl

@[simp] theorem setWerr_status (s : State) : (setWerr s).status = { s.status with werr := true } := rfl
@[simp] theorem setWerr_cmd (s : State) : (setWerr s).cmd = s.cmd := rfl
@[simp] theorem setWerr_regs (s : State) : (setWerr s).regs = s.regs := rfl
@[simp] theorem setWerr_res (s : State) : (setWerr s).res = s.res := rfl
@[simp] theorem setWerr_cache (s : State) : (setWerr s).cache = s.cache := rfl
@[simp] theorem setWerr_sip (s : State) : (setWerr s).sip = s.sip := rfl
@[simp] theorem setWerr_mem (s : State) : (setWerr s).mem = s.mem := rfl
@[simp] theorem setWerr_env (s : State) : (setWerr s).env = s.env := rfl

@[simp] theorem clearWerr_status (s : State) : (clearWerr s).status = { s.status with werr := false } := rfl
@[simp] theorem clearWerr_cmd (s : State) : (clearWerr s).cmd = s.cmd := rfl
@[simp] theorem clearWerr_regs (s : State) : (clearWerr s).regs = s.regs := rfl
@[simp] theorem clearWerr_res (s : State) : (clearWerr s).res = s.res := rfl
@[simp] theorem clearWerr_cache (s : State) : (clearWerr s).cache = s.cache := rfl
@[simp] theorem clearWerr_sip (s : State) : (clearWerr s).sip = s.sip := rfl
@[simp] theorem clearWerr_mem (s : State) : (clearWerr s).mem = s.mem := rfl
@[simp] theorem clearWerr_env (s : State) : (clearWerr s).env = s.env := rfl

@[simp] theorem writeSeedWord_status (i : Fin 15) (v : U32) (s : State) :
    (writeSeedWord i v s).status = s.status := rfl
@[simp] theorem writeSeedWord_cmd (i : Fin 15) (v : U32) (s : State) : (writeSeedWord i v s).cmd = s.cmd := rfl
@[simp] theorem writeSeedWord_regs (i : Fin 15) (v : U32) (s : State) :
    (writeSeedWord i v s).regs = { s.regs with masterSeed := s.regs.masterSeed.set i v } := rfl
@[simp] theorem writeSeedWord_res (i : Fin 15) (v : U32) (s : State) : (writeSeedWord i v s).res = s.res := rfl
@[simp] theorem writeSeedWord_cache (i : Fin 15) (v : U32) (s : State) :
    (writeSeedWord i v s).cache = invalidateSlots s.cache := rfl
@[simp] theorem writeSeedWord_sip (i : Fin 15) (v : U32) (s : State) : (writeSeedWord i v s).sip = s.sip := rfl
@[simp] theorem writeSeedWord_mem (i : Fin 15) (v : U32) (s : State) : (writeSeedWord i v s).mem = s.mem := rfl
@[simp] theorem writeSeedWord_env (i : Fin 15) (v : U32) (s : State) : (writeSeedWord i v s).env = s.env := rfl

@[simp] theorem tick_status (s : State) : (tick s).status = s.status := rfl
@[simp] theorem tick_cmd (s : State) : (tick s).cmd = s.cmd := rfl
@[simp] theorem tick_regs (s : State) : (tick s).regs = s.regs := rfl
@[simp] theorem tick_res (s : State) : (tick s).res = s.res := rfl
@[simp] theorem tick_cache (s : State) : (tick s).cache = s.cache := rfl
@[simp] theorem tick_sip (s : State) : (tick s).sip = s.sip := rfl
@[simp] theorem tick_mem (s : State) : (tick s).mem = s.mem := rfl
@[simp] theorem tick_env (s : State) : (tick s).env = { s.env with wait := s.env.wait - 1 } := rfl

@[simp] theorem post_status (a : HostAccess) (s : State) : (post a s).status = s.status := rfl
@[simp] theorem post_cmd (a : HostAccess) (s : State) : (post a s).cmd = s.cmd := rfl
@[simp] theorem post_regs (a : HostAccess) (s : State) : (post a s).regs = s.regs := rfl
@[simp] theorem post_res (a : HostAccess) (s : State) : (post a s).res = s.res := rfl
@[simp] theorem post_cache (a : HostAccess) (s : State) : (post a s).cache = s.cache := rfl
@[simp] theorem post_sip (a : HostAccess) (s : State) : (post a s).sip = s.sip := rfl
@[simp] theorem post_mem (a : HostAccess) (s : State) : (post a s).mem = s.mem := rfl
@[simp] theorem post_env (a : HostAccess) (s : State) :
    (post a s).env = { s.env with pending := s.env.pending ++ [a] } := rfl

@[simp] theorem resetAt_status (i : Nat) : (State.resetAt i).status = Status.afterReset := rfl
@[simp] theorem resetAt_cmd (i : Nat) : (State.resetAt i).cmd = 0 := rfl
@[simp] theorem resetAt_regs (i : Nat) : (State.resetAt i).regs = Regs.afterReset := rfl
@[simp] theorem resetAt_res (i : Nat) : (State.resetAt i).res = Results.afterReset := rfl
@[simp] theorem resetAt_cache (i : Nat) : (State.resetAt i).cache = Cache.afterReset := rfl
@[simp] theorem resetAt_sip (i : Nat) : (State.resetAt i).sip = Sip.afterReset := rfl
@[simp] theorem resetAt_mem (i : Nat) : (State.resetAt i).mem = [] := rfl
@[simp] theorem resetAt_env (i : Nat) : (State.resetAt i).env = { Env.start with unit := i } := rfl

/-- The instance by itself is instance 0. -/
theorem resetAt_zero : State.resetAt 0 = State.reset := rfl

/-- Every instance of the system after reset has a number of its own, so its free values are draws of its own. -/
theorem systemReset_units :
    (System.reset.map fun n => n.engine.env.unit) = List.range Config.numInstances := by
  simp [System.reset, Function.comp_def]

end Sys2Proof.Machine
end

