-- ==== Sys2Proof/Laws/Memory.lean ====
section
/-! SUPPORT. The laws of the buffer memory: what a read sees after a write, and that every memory operation keeps
the canonical form. -/

namespace Sys2Proof.Machine

@[simp] theorem Memory.read?_nil (a : Nat) : Memory.read? [] a = none := rfl

theorem Memory.read?_write_self (m : Memory) (a : Nat) (v : Byte) : (m.write a v).read? a = some v := by
  induction m with
  | nil => simp [Memory.write, Memory.read?]
  | cons c rest ih =>
    obtain ⟨x, b⟩ := c
    rcases Nat.lt_trichotomy a x with h | rfl | h
    · simp [Memory.write, Memory.read?, Nat.ne_of_lt h, h]
    · simp [Memory.write, Memory.read?]
    · simp [Memory.write, Memory.read?, Nat.ne_of_gt h, Nat.not_lt_of_gt h, ih]

theorem Memory.read?_write_other (m : Memory) {a c : Nat} (v : Byte) (h : c ≠ a) :
    (m.write a v).read? c = m.read? c := by
  induction m with
  | nil => simp [Memory.write, Memory.read?, h]
  | cons d rest ih =>
    obtain ⟨x, b⟩ := d
    by_cases hax : a = x
    · subst hax; simp [Memory.write, Memory.read?, h]
    · by_cases hlt : a < x
      · by_cases hcx : c = x
        · subst hcx; simp [Memory.write, Memory.read?, hax, hlt, h, Nat.not_lt_of_gt hlt]
        · by_cases hca : c < a
          · simp [Memory.write, Memory.read?, hax, hlt, h, hca, hcx, Nat.lt_trans hca hlt]
          · simp [Memory.write, Memory.read?, hax, hlt, h, hca]
      · simp [Memory.write, Memory.read?, hax, hlt, ih]

/-- One read after one write. -/
theorem Memory.read?_write (m : Memory) (a c : Nat) (v : Byte) :
    (m.write a v).read? c = if c = a then some v else m.read? c := by
  split
  · next h => rw [h, Memory.read?_write_self]
  · next h => exact Memory.read?_write_other m v h

/-- A read after a block write: the block's byte inside it, the old contents outside. -/
theorem Memory.read?_writeBytes (m : Memory) (B : List Byte) (a c : Nat) :
    (m.writeBytes a B).read? c = if a ≤ c ∧ c < a + B.length then B[c - a]? else m.read? c := by
  induction B generalizing a with
  | nil => simp [Memory.writeBytes, show ¬ (a ≤ c ∧ c < a) by omega]
  | cons b bs ih =>
    rw [Memory.writeBytes, Memory.read?_write, ih]
    by_cases hc : c = a
    · subst hc; simp
    · by_cases hin : a + 1 ≤ c ∧ c < a + 1 + bs.length
      · have h2 : a ≤ c ∧ c < a + (b :: bs).length := by simp; omega
        have h3 : c - a = (c - (a + 1)) + 1 := by omega
        simp [hc, hin, h3, show a ≤ c by omega, show c < a + (bs.length + 1) by omega]
      · have h2 : ¬ (a ≤ c ∧ c < a + (b :: bs).length) := by simp; omega
        rw [if_neg hc, if_neg hin, if_neg h2]

theorem Memory.read?_writeBytes_outside (m : Memory) (B : List Byte) {a c : Nat} (h : c < a ∨ a + B.length ≤ c) :
    (m.writeBytes a B).read? c = m.read? c := by
  rw [Memory.read?_writeBytes, if_neg (by omega)]

theorem Memory.mem_write {m : Memory} {a : Nat} {v : Byte} {c : Host.Cell} (h : c ∈ m.write a v) :
    c = (a, v) ∨ c ∈ m := by
  induction m with
  | nil => simpa [Memory.write] using h
  | cons d rest ih =>
    rw [Memory.write] at h
    split at h
    · simp only [List.mem_cons] at h ⊢; tauto
    · split at h
      · simpa using h
      · simp only [List.mem_cons] at h ⊢
        rcases h with h | h
        · exact .inr (.inl h)
        · rcases ih h with h | h <;> tauto

theorem Memory.mem_writeBytes {m : Memory} {B : List Byte} {a : Nat} {c : Host.Cell} (h : c ∈ m.writeBytes a B) :
    (a ≤ c.1 ∧ c.1 < a + B.length) ∨ c ∈ m := by
  induction B generalizing a with
  | nil => exact .inr h
  | cons b bs ih =>
    rcases Memory.mem_write h with rfl | h
    · exact .inl ⟨Nat.le_refl _, by simp⟩
    · rcases ih h with h | h
      · exact .inl ⟨by omega, by simp; omega⟩
      · exact .inr h

/-- Storing a byte keeps the canonical form. -/
theorem Memory.write_wf {m : Memory} (h : m.wf) (a : Nat) (v : Byte) : (m.write a v).wf := by
  induction m with
  | nil => simp [Memory.write, Memory.wf]
  | cons d rest ih =>
    obtain ⟨x, b⟩ := d
    have hr := List.pairwise_cons.mp h
    rw [Memory.write]
    split
    · next hax => subst hax; exact List.pairwise_cons.mpr hr
    · split
      · next hlt =>
        refine List.pairwise_cons.mpr ⟨?_, h⟩
        intro c hc
        rcases List.mem_cons.mp hc with rfl | hc
        · exact hlt
        · exact Nat.lt_trans hlt (hr.1 c hc)
      · next hax hlt =>
        refine List.pairwise_cons.mpr ⟨?_, ih hr.2⟩
        intro c hc
        rcases Memory.mem_write hc with rfl | hc
        · show x < a; omega
        · exact hr.1 c hc

/-- Storing a byte string keeps the canonical form. -/
theorem Memory.writeBytes_wf {m : Memory} (h : m.wf) (a : Nat) (B : List Byte) : (m.writeBytes a B).wf := by
  induction B generalizing a with
  | nil => exact h
  | cons b bs ih => exact Memory.write_wf (ih (a + 1)) a b

/-- The memory right after reset is in canonical form. -/
theorem Memory.reset_wf : Memory.wf State.reset.mem := List.Pairwise.nil

/-- A buffer byte depends on the memory, the instance and the reset count only. -/
theorem bufByte_congr {s t : State} (hm : t.mem = s.mem) (hu : t.env.unit = s.env.unit)
    (he : t.env.epoch = s.env.epoch) (a : Nat) : bufByte t a = bufByte s a := by
  rw [bufByte, bufByte, hm, hu, he]

@[simp] theorem bufByte_complete (s : State) (a : Nat) : bufByte (complete s) a = bufByte s a :=
  bufByte_congr rfl rfl rfl a

@[simp] theorem bufByte_raise (e : CmdError) (s : State) (a : Nat) : bufByte (raise e s) a = bufByte s a :=
  bufByte_congr rfl rfl rfl a

@[simp] theorem bufByte_writeCookieResult (c : U64) (p : Byte) (s : State) (a : Nat) :
    bufByte (writeCookieResult c p s) a = bufByte s a := bufByte_congr rfl rfl rfl a

@[simp] theorem bufByte_writeKeyResult (k : SipKey) (p : Byte) (s : State) (a : Nat) :
    bufByte (writeKeyResult k p s) a = bufByte s a := bufByte_congr rfl rfl rfl a

@[simp] theorem bufByte_withCache (c : Cache) (s : State) (a : Nat) :
    bufByte { s with cache := c } a = bufByte s a := bufByte_congr rfl rfl rfl a

/-- The reply bytes after states that agree on the buffers. -/
theorem outBytes_congr {s t : State} (h : ∀ a, bufByte t a = bufByte s a) (off len : Nat) :
    outBytes t off len = outBytes s off len := by simp only [outBytes, outByte, h]

/-- A buffer byte after a reply was written: the reply's byte in `OUT_BUF[0 .. OUT_LEN)`, else the old one (R261). -/
theorem bufByte_writeReply (B : List Byte) (s : State) (a : Nat) :
    bufByte (writeReply B s) a =
      if 0x400 ≤ a ∧ a < 0x400 + B.length then B.getD (a - 0x400) 0 else bufByte s a := by
  rw [bufByte, writeReply_mem, writeReply_env, Memory.read?_writeBytes]
  by_cases h : 0x400 ≤ a ∧ a < 0x400 + B.length
  · have hlt : a - 0x400 < B.length := by omega
    rw [if_pos h, if_pos (by simpa [Config.outBufBase] using h)]
    simp [Config.outBufBase, hlt]
  · rw [if_neg h, if_neg (by simpa [Config.outBufBase] using h)]
    rfl

@[simp] theorem inBytes_length (s : State) (off len : Nat) : (inBytes s off len).length = len := by
  simp [inBytes]

@[simp] theorem outBytes_length (s : State) (off len : Nat) : (outBytes s off len).length = len := by
  simp [outBytes]

/-- The whole reply stands in `OUT_BUF` after it was written. -/
theorem outBytes_writeReply (B : List Byte) (s : State) : outBytes (writeReply B s) 0 B.length = B := by
  apply List.ext_getElem (by simp)
  intro i h1 h2
  have h3 : 0x400 + i < 0x400 + B.length := by omega
  simp [outBytes, outByte, Config.outBufBase, bufByte_writeReply, h2]

end Sys2Proof.Machine
end

