-- ==== Sys2Proof/Laws/Ops.lean ====
section
/-! SUPPORT. One lemma for each shared operation that says all it can do, so that a proof cites it instead of
unfolding the operation. -/

namespace Sys2Proof.Machine

/-! ## Ending a command -/

theorem complete_eq (s : State) :
    complete s = { s with status := { s.status with busy := false, done := true, err := 0 } } := rfl

theorem raise_eq (e : CmdError) (s : State) :
    raise e s = { s with status := { s.status with busy := false, done := true, err := e.code } } := rfl

theorem reject_eq (r : RejectReason) (s : State) :
    reject r s = { s with status := { s.status with
      busy := false, done := true, matched := false, err := 0, reason := r.code } } := rfl

theorem acceptPacket_eq (s : State) :
    acceptPacket s = { s with status := { s.status with
      busy := false, done := true, matched := true, err := 0, reason := 0 } } := rfl

theorem completeIllegal_eq (s : State) :
    completeIllegal s =
      { s with cmd := 0, status := { s.status with busy := false, done := true, err := 0x01 } } := rfl

theorem raiseLenRange_eq (s : State) :
    raiseLenRange s = { s with status := { s.status with
      busy := false, done := true, matched := false, err := 0x03, reason := 0x0D } } := rfl

theorem CmdError.code_range (e : CmdError) : 1 ≤ e.code ∧ e.code ≤ 6 := by cases e <;> decide

theorem RejectReason.code_range (r : RejectReason) : 1 ≤ r.code ∧ r.code ≤ 13 := by cases r <;> decide

/-! ## Buffers -/

theorem writeReply_eq (B : List Byte) (s : State) :
    writeReply B s = { s with
      mem := Memory.writeBytes s.mem 0x400 B
      res := { s.res with outLen := BitVec.ofNat 16 B.length } } := rfl

/-! ## The seed cache -/

/-- What a lookup leaves in the serving slot: a hit leaves the slot, which holds the window; a miss fills it. -/
theorem slotOf_lookupCache (now : U64) (p : Byte) (s : State) :
    (slotHits (slotOf s.cache p) (packetCacheTime now p) = true ∧ lookupCache now p s = s.cache) ∨
    (slotHits (slotOf s.cache p) (packetCacheTime now p) = false ∧
      slotOf (lookupCache now p s) p =
        ⟨true, packetCacheTime now p, derivedSecret (masterSeedBytes s) (packetCacheTime now p)⟩) := by
  cases h : slotHits (slotOf s.cache p) (packetCacheTime now p)
  · refine .inr ⟨rfl, ?_⟩
    have hl : lookupCache now p s =
        refreshSlot (masterSeedBytes s) p (packetCacheTime now p) s.cache := by simp [lookupCache, h]
    rw [hl, refreshSlot, slotOf, setSlotOf]
    by_cases hp : p < 4
    · rw [if_pos hp, if_pos hp]
    · rw [if_neg hp, if_neg hp]
  · exact .inl ⟨rfl, by simp [lookupCache, h]⟩

/-- Slot 0 after a lookup: as before, or filled with the window, and then the index is one of slot 0. -/
theorem lookupCache_slot0 (now : U64) (p : Byte) (s : State) :
    (lookupCache now p s).slot0 = s.cache.slot0 ∨
    (p < 4 ∧ (lookupCache now p s).slot0 =
      ⟨true, packetCacheTime now p, derivedSecret (masterSeedBytes s) (packetCacheTime now p)⟩) := by
  unfold lookupCache
  simp only
  split
  · exact .inl rfl
  · rw [refreshSlot, setSlotOf]
    by_cases hp : p < 4
    · rw [if_pos hp]; exact .inr ⟨hp, rfl⟩
    · rw [if_neg hp]; exact .inl rfl

/-- Slot 1 after a lookup: as before, or filled with the window, and then the index is not one of slot 0. -/
theorem lookupCache_slot1 (now : U64) (p : Byte) (s : State) :
    (lookupCache now p s).slot1 = s.cache.slot1 ∨
    (¬ p < 4 ∧ (lookupCache now p s).slot1 =
      ⟨true, packetCacheTime now p, derivedSecret (masterSeedBytes s) (packetCacheTime now p)⟩) := by
  unfold lookupCache
  simp only
  split
  · exact .inl rfl
  · rw [refreshSlot, setSlotOf]
    by_cases hp : p < 4
    · rw [if_pos hp]; exact .inl rfl
    · rw [if_neg hp]; exact .inr ⟨hp, rfl⟩

/-- A lookup answers a key exactly for an index below 8, and only the cache can have changed. -/
theorem getSecret_cases (now : U64) (p : Byte) (s : State) :
    (8 ≤ p ∧ getSecret now p s = none) ∨
    (p < 8 ∧ getSecret now p s =
      some (keyOf (slotOf (lookupCache now p s) p).digest (p.toNat % 4), { s with cache := lookupCache now p s })) := by
  by_cases h : 8 ≤ p
  · exact .inl ⟨h, if_pos h⟩
  · exact .inr ⟨BitVec.not_le.1 h, if_neg h⟩

/-- The seed bytes are those of the seed registers alone. -/
theorem masterSeedBytes_congr {s t : State} (h : t.regs.masterSeed = s.regs.masterSeed) :
    masterSeedBytes t = masterSeedBytes s := by
  simp only [masterSeedBytes, h]

theorem currentIndex_toNat (now : U64) : (currentIndex now).toNat = now.toNat % 8 := by
  simp [currentIndex, BitVec.toNat_setWidth, BitVec.toNat_umod]; omega

/-- The start of a 4-second window, as a number. -/
theorem floor4_toNat (t : U64) : (floor4 t).toNat = t.toNat / 4 * 4 := by
  have h : floor4 t = (t >>> 2) <<< 2 := by
    unfold floor4
    apply BitVec.eq_of_getLsbD_eq
    intro i hi
    rcases Nat.lt_or_ge i 2 with h | h
    · interval_cases i <;> simp
    · have h3 : (3#64).getLsbD i = false := by
        rw [show (3#64) = BitVec.ofNat 64 3 from rfl, BitVec.getLsbD_ofNat]
        have : Nat.testBit 3 i = false :=
          Nat.testBit_lt_two_pow (Nat.lt_of_lt_of_le (by decide : 3 < 2 ^ 2) (Nat.pow_le_pow_right (by decide) h))
        simp [this]
      rw [BitVec.getLsbD_and, BitVec.getLsbD_not]
      change (t.getLsbD i && (decide (i < 64) && !(3#64).getLsbD i)) = _
      rw [h3]
      simp [hi, Nat.not_lt.2 h]
      rw [show 2 + (i - 2) = i by omega, BitVec.getLsbD_eq_getElem hi]
  rw [h]
  simp [BitVec.toNat_shiftLeft, BitVec.toNat_ushiftRight, Nat.shiftLeft_eq, Nat.shiftRight_eq_div_pow]
  have := t.isLt
  omega

theorem currentCacheIndex_toNat (now : U64) : (currentCacheIndex now).toNat = now.toNat % 8 / 4 := by
  simp [currentCacheIndex, BitVec.toNat_udiv, BitVec.toNat_umod]

theorem packetCacheIndex_toNat (p : Byte) : (packetCacheIndex p).toNat = p.toNat / 4 := by
  simp [packetCacheIndex, BitVec.toNat_udiv]
  omega

/-- The window time of an index below 8 as a number: the current window, or, for the other half of the indexes, the
one before it, modulo 2^64 (R171, R186). -/
theorem packetCacheTime_toNat (now : U64) {p : Byte} (hp : p.toNat < 8) :
    (packetCacheTime now p).toNat =
      if now.toNat % 8 / 4 = p.toNat / 4 then now.toNat / 4 * 4 else (now.toNat / 4 * 4 + 2 ^ 64 - 4) % 2 ^ 64 := by
  have hlt := now.isLt
  split
  · next h =>
    have : currentCacheIndex now = packetCacheIndex p :=
      BitVec.eq_of_toNat_eq (by rw [currentCacheIndex_toNat, packetCacheIndex_toNat, h])
    rw [packetCacheTime, this, BitVec.xor_self]
    simp [floor4_toNat]
  · next h =>
    have : currentCacheIndex now ^^^ packetCacheIndex p = 1 := by
      apply BitVec.eq_of_toNat_eq
      rw [BitVec.toNat_xor, currentCacheIndex_toNat, packetCacheIndex_toNat]
      have h1 : now.toNat % 8 / 4 < 2 := by omega
      have h2 : p.toNat / 4 < 2 := by omega
      generalize now.toNat % 8 / 4 = a at *
      generalize p.toNat / 4 = b at *
      interval_cases a <;> interval_cases b <;> simp at *
    rw [packetCacheTime, this, BitVec.toNat_sub, floor4_toNat]
    simp
    omega

/-! ## The cookie -/

/-- The cookie of the client identity exists exactly for a supported family. -/
theorem cookieOperand_cases (s : State) (k : SipKey) :
    (familySupported s = true ∧ cookieOperand s k = some (identityCookie s k)) ∨
    (familySupported s = false ∧ cookieOperand s k = none) := by
  unfold familySupported cookieOperand cookie addressLength identityCookie identityLength
  by_cases h4 : s.regs.af = 4
  · left; simp [h4]; rfl
  · by_cases h6 : s.regs.af = 6
    · left; simp [h6]; rfl
    · right; rw [if_neg h4, if_neg h6]; simp; exact ⟨h4, h6⟩

/-! ## SipHash -/

@[simp] theorem sipAbsorb_nil (st : Sip) : sipAbsorb st [] = st := rfl

@[simp] theorem sipAbsorb_cons (st : Sip) (x : Byte) (B : List Byte) :
    sipAbsorb st (x :: B) = sipAbsorb (sipAbsorbByte st x) B := rfl

theorem sipAbsorb_append (st : Sip) (A B : List Byte) : sipAbsorb st (A ++ B) = sipAbsorb (sipAbsorb st A) B :=
  List.foldl_append

@[simp] theorem sipAbsorbByte_active (st : Sip) (x : Byte) : (sipAbsorbByte st x).active = st.active := by
  unfold sipAbsorbByte; simp only; split <;> rfl

@[simp] theorem sipAbsorbByte_count (st : Sip) (x : Byte) : (sipAbsorbByte st x).count = st.count + 1 := by
  unfold sipAbsorbByte; simp only; split <;> rfl

@[simp] theorem sipAbsorb_active (st : Sip) (B : List Byte) : (sipAbsorb st B).active = st.active := by
  induction B generalizing st with
  | nil => rfl
  | cons x B ih => rw [sipAbsorb_cons, ih, sipAbsorbByte_active]

/-- The hash input is there exactly when it lies in the buffer. -/
theorem hashInput_cases (s : State) :
    (s.regs.updOff.toNat + s.regs.updLen.toNat ≤ 512 ∧ hashInput s = some (hashedBytes s)) ∨
    (512 < s.regs.updOff.toNat + s.regs.updLen.toNat ∧ hashInput s = none) := by
  unfold hashInput
  by_cases h : s.regs.updOff.toNat + s.regs.updLen.toNat ≤ Config.inBufSize
  · exact .inl ⟨h, if_pos h⟩
  · exact .inr ⟨Nat.lt_of_not_le h, if_neg h⟩

/-! ## The reply builder -/

/-- The trigger is looked at only with `ZRS = 0`, its range first. -/
theorem triggerError_cases (s : State) :
    (zrs s = true ∧ triggerError s = none) ∨
    (zrs s = false ∧ 512 < s.regs.inLen.toNat ∧ triggerError s = some .range) ∨
    (zrs s = false ∧ s.regs.inLen.toNat < 26 ∧ triggerError s = some .shortTrigger) ∨
    (zrs s = false ∧ 26 ≤ s.regs.inLen.toNat ∧ s.regs.inLen.toNat ≤ 512 ∧ triggerError s = none) := by
  unfold triggerError
  cases hz : zrs s
  · right
    by_cases h1 : s.regs.inLen.toNat > Config.inBufSize
    · exact .inl ⟨rfl, h1, by simp [h1]⟩
    · by_cases h2 : s.regs.inLen.toNat < 26
      · exact .inr (.inl ⟨rfl, h2, by simp [h1, h2]⟩)
      · exact .inr (.inr ⟨rfl, by omega, by simpa [Config.inBufSize] using h1, by simp [h1, h2]⟩)
  · exact .inl ⟨rfl, by simp⟩

/-! ## The validator -/

/-- The checks after dispatch end in one of three ways. -/
theorem afterDispatch_cases (size : Nat) (version : U32) (payload : List Byte) (own : State → State) (s : State) :
    (payload.length ≠ size ∧ afterDispatch size version payload own s = reject .badLength s) ∨
    (payload.length = size ∧ versionTooOld version s = true ∧
      afterDispatch size version payload own s = reject .oldVersion s) ∨
    (payload.length = size ∧ versionTooOld version s = false ∧
      afterDispatch size version payload own s = own s) := by
  unfold afterDispatch
  by_cases h : payload.length = size
  · cases hv : versionTooOld version s
    · exact .inr (.inr ⟨h, rfl, by simp [h]⟩)
    · exact .inr (.inl ⟨h, rfl, by simp [h]⟩)
  · exact .inl ⟨h, by simp [h]⟩

/-- The timestamp check ends in acceptance or in `TIME_OFFSET`. -/
theorem checkTimestamp_cases (payload : List Byte) (s : State) :
    ((utcEn s && timeOffsetTooBig s (be32 (slice payload 0 4))) = false ∧
      checkTimestamp payload s = acceptPacket s) ∨
    ((utcEn s && timeOffsetTooBig s (be32 (slice payload 0 4))) = true ∧
      checkTimestamp payload s = reject .timeOffset s) := by
  unfold checkTimestamp
  cases h : (utcEn s && timeOffsetTooBig s (be32 (slice payload 0 4))) <;> simp

/-- The cookie check ends in one of five ways; the last two are the comparison, with the cache the lookup left. -/
theorem checkCookie_cases (payload : List Byte) (s : State) :
    (cookieEn s = false ∧ checkCookie payload s = acceptPacket s) ∨
    (cookieEn s = true ∧ getSecret s.regs.now (payload.getD 8 0) s = none ∧
      checkCookie payload s = reject .badIndex s) ∨
    ∃ k t, cookieEn s = true ∧ getSecret s.regs.now (payload.getD 8 0) s = some (k, t) ∧
      ((cookieOperand s k = none ∧ checkCookie payload s = reject .afUnsupported s) ∨
        ∃ c, cookieOperand s k = some c ∧
          ((slice payload 0 8 ≠ le64bytes c ∧ checkCookie payload s = reject .badCookie t) ∨
            (slice payload 0 8 = le64bytes c ∧ checkCookie payload s = acceptPacket t))) := by
  cases hc : cookieEn s
  · exact .inl ⟨rfl, if_pos hc⟩
  · right
    have hne : ¬ cookieEn s = false := by simp [hc]
    rw [checkCookie, if_neg hne]
    cases hg : getSecret s.regs.now (payload.getD 8 0) s with
    | none => exact .inl ⟨rfl, rfl, by simp only [hg]⟩
    | some kt =>
      obtain ⟨k, t⟩ := kt
      refine .inr ⟨k, t, rfl, rfl, ?_⟩
      simp only [hg]
      cases hk : cookieOperand s k with
      | none => exact .inl ⟨rfl, rfl⟩
      | some c =>
        refine .inr ⟨c, rfl, ?_⟩
        by_cases he : slice payload 0 8 = le64bytes c
        · exact .inr ⟨he, by simp only [compareCookie, he, ne_eq, not_true, if_false]⟩
        · exact .inl ⟨he, if_pos he⟩

/-! ## The host's side -/

/-- What the guard of an access can answer. -/
theorem guardAccess_cases {off width : Nat} {act : State → State} {s t : State}
    (h : guardAccess off width act s = .next t) : width = 4 ∧ off % 4 = 0 ∧ off < 0x1000 ∧ t = act s := by
  unfold guardAccess at h
  by_cases hw : wordAccess off width = false
  · rw [if_pos hw] at h; cases h
  · rw [if_neg hw] at h
    by_cases hl : off < Config.registerSpaceSize
    · rw [if_pos hl] at h
      obtain ⟨rfl, h4⟩ : width = 4 ∧ off % 4 = 0 := by simpa [wordAccess] using hw
      exact ⟨rfl, h4, hl, by simpa using h.symm⟩
    · rw [if_neg hl] at h; cases h

/-- A host access that is performed is an aligned word access inside the register space, or the reset input. -/
theorem perform_cases {a : HostAccess} {s t : State} (h : perform a s = .next t) :
    (∃ off, off % 4 = 0 ∧ off < 0x1000 ∧ a = .read off 4 ∧ t = observe (readOffset off s) s) ∨
    (∃ off v, off % 4 = 0 ∧ off < 0x1000 ∧ a = .write off 4 v ∧ t = writeOffset off v s) ∨
    (a = .reset ∧ t = resetInput s) := by
  cases a with
  | read off width =>
    obtain ⟨rfl, h4, hl, ht⟩ := guardAccess_cases h
    exact .inl ⟨off, h4, hl, rfl, ht⟩
  | write off width v =>
    obtain ⟨rfl, h4, hl, ht⟩ := guardAccess_cases h
    exact .inr (.inl ⟨off, v, h4, hl, rfl, ht⟩)
  | reset => exact .inr (.inr ⟨rfl, by simpa [perform] using h.symm⟩)

theorem perform_read_word {off : Nat} (h4 : off % 4 = 0) (hl : off < 0x1000) (s : State) :
    perform (.read off 4) s = .next (observe (readOffset off s) s) := by
  simp [perform, guardAccess, wordAccess, h4, Config.registerSpaceSize, hl]

theorem perform_write_word {off : Nat} (h4 : off % 4 = 0) (hl : off < 0x1000) (v : U32) (s : State) :
    perform (.write off 4 v) s = .next (writeOffset off v s) := by
  simp [perform, guardAccess, wordAccess, h4, Config.registerSpaceSize, hl]

/-- A write at an offset: nothing at a reserved one, else the register's write for the engine's mode. -/
theorem writeOffset_cases (off : Nat) (v : U32) (s : State) :
    (regAt off = none ∧ writeOffset off v s = s) ∨
    ∃ r, regAt off = some r ∧
      ((s.status.busy = false ∧ writeOffset off v s = writeRegIdle r v s) ∨
        (s.status.busy = true ∧ r = .statusClr ∧ writeOffset off v s = writeStatusClr v s) ∨
        (s.status.busy = true ∧ r ≠ .statusClr ∧ writeOffset off v s = setWerr s)) := by
  unfold writeOffset
  cases hr : regAt off with
  | none => exact .inl ⟨rfl, rfl⟩
  | some r =>
    refine .inr ⟨r, rfl, ?_⟩
    cases hb : s.status.busy
    · exact .inl ⟨rfl, by simp⟩
    · right
      cases r <;> simp [writeRegBusy]

theorem writeStatusClr_cases (v : U32) (s : State) :
    writeStatusClr v s = s ∨ writeStatusClr v s = clearWerr s := by
  unfold writeStatusClr
  split
  · exact .inr rfl
  · exact .inl rfl

/-! ## The step -/

theorem step_of_completes {s : State} {i : Instr} (h : completesNow s = true) (hd : decodeCommand s.cmd = .ok i) :
    step s = exec i s := by
  simp [step, h, hd]

/-- The host's turn while idle performs the oldest pending access. -/
theorem step_idle {s : State} {a : HostAccess} {rest : List HostAccess} (hb : s.status.busy = false)
    (hp : s.env.pending = a :: rest) : step s = perform a { s with env := { s.env with pending := rest } } := by
  simp [step, completesNow, hb, hostTurn, hp]

/-- The host's turn while a command is in flight also takes one step of its time. -/
theorem step_busy {s : State} {a : HostAccess} {rest : List HostAccess} (hb : s.status.busy = true)
    (hw : s.env.wait ≠ 0) (hp : s.env.pending = a :: rest) :
    step s = perform a { s with env := { s.env with pending := rest, wait := s.env.wait - 1 } } := by
  simp [step, completesNow, hb, hostTurn, hp, hw, tick]

/-- The state the host's access finds in its turn: one step of time has passed for a command in flight. -/
theorem hostTurn_cases {s t : State} (h : hostTurn s = .next t) :
    ∃ w, (s.status.busy = true → w = s.env.wait - 1) ∧ (s.status.busy = false → w = s.env.wait) ∧
      ((s.env.pending = [] ∧ t = { s with env := { s.env with wait := w } }) ∨
        ∃ a rest, s.env.pending = a :: rest ∧
          perform a { s with env := { s.env with wait := w, pending := rest } } = .next t) := by
  cases hb : s.status.busy
  · refine ⟨s.env.wait, by simp, by simp, ?_⟩
    simp only [hostTurn, hb] at h
    cases hp : s.env.pending with
    | nil => simp [hp] at h; exact .inl ⟨rfl, by simp [← h]⟩
    | cons a rest => simp [hp] at h; exact .inr ⟨a, rest, rfl, by simpa using h⟩
  · refine ⟨s.env.wait - 1, by simp, by simp, ?_⟩
    simp only [hostTurn, hb, tick] at h
    cases hp : s.env.pending with
    | nil => simp [hp] at h; exact .inl ⟨rfl, by simp [← h, hp]⟩
    | cons a rest => simp [hp] at h; exact .inr ⟨a, rest, rfl, by simpa using h⟩

/-- All that a step which goes on can be. -/
theorem step_cases {s t : State} (h : step s = .next t) :
    (completesNow s = true ∧ ∃ i, decodeCommand s.cmd = .ok i ∧ exec i s = .next t) ∨
    (completesNow s = true ∧ (∃ e, decodeCommand s.cmd = .error e) ∧ t = completeIllegal s) ∨
    (completesNow s = false ∧ hostTurn s = .next t) := by
  unfold step at h
  cases hc : completesNow s
  · exact .inr (.inr ⟨rfl, by simpa [hc] using h⟩)
  · cases hd : decodeCommand s.cmd with
    | ok i => exact .inl ⟨rfl, i, rfl, by simpa [hc, hd] using h⟩
    | error e => exact .inr (.inl ⟨rfl, ⟨e, rfl⟩, by simpa [hc, hd] using h.symm⟩)

end Sys2Proof.Machine
end

