-- ==== Sys2Proof/Laws/Exec.lean ====
section
/-! SUPPORT. All that an instruction can do: the forms its next state can have, said once. -/

namespace Sys2Proof.Machine

/-- The effect of a packet's treatment: a verdict, and where the cookie check read a key, the cache it left. -/
def VerdictEffect (s t : State) : Prop :=
  ∃ (m : Bool) (r : Byte) (c : Cache), r ≤ 0x0D ∧ (m = true → r = 0) ∧
    (c = s.cache ∨ ∃ p, p < 8 ∧ c = lookupCache s.regs.now p s) ∧
    t = { s with
      cache := c
      status := { s.status with busy := false, done := true, err := 0, matched := m, reason := r } }

theorem verdictEffect_reject (s : State) (r : RejectReason) : VerdictEffect s (reject r s) :=
  ⟨false, r.code, s.cache, (RejectReason.code_range r).2, by simp, .inl rfl, rfl⟩

theorem verdictEffect_accept (s : State) : VerdictEffect s (acceptPacket s) :=
  ⟨true, 0, s.cache, by decide, by simp, .inl rfl, rfl⟩

theorem verdictEffect_afterDispatch {size : Nat} {version : U32} {payload : List Byte} {own : State → State} {s : State}
    (h : VerdictEffect s (own s)) : VerdictEffect s (afterDispatch size version payload own s) := by
  rcases afterDispatch_cases size version payload own s with ⟨-, e⟩ | ⟨-, -, e⟩ | ⟨-, -, e⟩ <;> rw [e]
  · exact verdictEffect_reject ..
  · exact verdictEffect_reject ..
  · exact h

theorem verdictEffect_checkTimestamp (payload : List Byte) (s : State) :
    VerdictEffect s (checkTimestamp payload s) := by
  rcases checkTimestamp_cases payload s with ⟨-, e⟩ | ⟨-, e⟩ <;> rw [e]
  · exact verdictEffect_accept ..
  · exact verdictEffect_reject ..

theorem verdictEffect_checkCookie (payload : List Byte) (s : State) : VerdictEffect s (checkCookie payload s) := by
  rcases checkCookie_cases payload s with ⟨-, e⟩ | ⟨-, -, e⟩ | ⟨k, t, -, hg, h⟩
  · rw [e]; exact verdictEffect_accept ..
  · rw [e]; exact verdictEffect_reject ..
  · rcases getSecret_cases s.regs.now (payload.getD 8 0) s with ⟨-, e⟩ | ⟨h8, e⟩
    · rw [e] at hg; cases hg
    · rw [e] at hg
      simp only [Option.some.injEq, Prod.mk.injEq] at hg
      obtain ⟨-, rfl⟩ := hg
      rcases h with ⟨-, h⟩ | ⟨c, -, ⟨-, h⟩ | ⟨-, h⟩⟩ <;> rw [h]
      · exact verdictEffect_reject ..
      · exact ⟨false, 0x0C, _, by decide, by simp, .inr ⟨_, h8, rfl⟩, rfl⟩
      · exact ⟨true, 0, _, by decide, by simp, .inr ⟨_, h8, rfl⟩, rfl⟩

theorem dispatchPacket_cases (p : ClientPacket) (s : State) :
    ∃ t, dispatchPacket p s = .next t ∧ VerdictEffect s t := by
  obtain ⟨c, v, payload⟩ := p
  cases c <;> refine ⟨_, rfl, ?_⟩ <;> first
    | exact verdictEffect_reject ..
    | exact verdictEffect_afterDispatch (verdictEffect_checkTimestamp ..)
    | exact verdictEffect_afterDispatch (verdictEffect_checkCookie ..)
    | exact verdictEffect_afterDispatch (verdictEffect_accept ..)

/-- The forms of an instruction's next state. -/
inductive ExecEffect (s : State) : Instr → State → Prop
  /-- A command error. -/
  | error (i : Instr) (e : CmdError) : ExecEffect s i (raise e s)
  /-- `VALIDATE`'s range error. -/
  | lenRange : ExecEffect s .validate (raiseLenRange s)
  /-- A packet's verdict. -/
  | packet (i : Instr) (t : State) : VerdictEffect s t → ExecEffect s i t
  /-- A hash started or continued. -/
  | hash (i : Instr) (st : Sip) :
      (i = .sipSetup ∧ st = sipStart (keyOperand s)) ∨
        (i = .sipUpdate ∧ s.sip.active = true ∧ ∃ B, hashInput s = some B ∧ st = sipAbsorb s.sip B) →
      ExecEffect s i (complete { s with sip := st })
  /-- A hash ended. -/
  | finalize : s.sip.active = true → ExecEffect s .sipFinalize (complete { s with
      res := { s.res with result := sipFinal s.sip.v s.sip.tail s.sip.count }
      sip := { s.sip with active := false } })
  /-- `RESULT` written alone. -/
  | result (i : Instr) (r : U64) : ExecEffect s i (complete { s with res := { s.res with result := r } })
  /-- A key looked up. -/
  | key (i : Instr) (k : SipKey) (p : Byte) : p < 8 →
      ExecEffect s i (complete (writeKeyResult k p { s with cache := lookupCache s.regs.now p s }))
  /-- A reply without a cookie. -/
  | reply (i : Instr) (B : List Byte) (draws : Nat) : B.length ≤ 256 →
      ExecEffect s i (complete (writeReply B { s with env := { s.env with draws := draws } }))
  /-- A reply with a cookie. -/
  | cookieReply (c : U64) (p : Byte) (B : List Byte) : p < 8 → B.length ≤ 256 →
      ExecEffect s .buildSetCookie
        (complete (writeCookieResult c p (writeReply B { s with cache := lookupCache s.regs.now p s })))

theorem currentIndex_lt (now : U64) : currentIndex now < 8 := by
  rw [BitVec.lt_def, currentIndex_toNat]
  exact Nat.mod_lt _ (by decide)

/-- Every instruction answers a next state of one of these forms. -/
theorem exec_cases (i : Instr) (s : State) : ∃ t, exec i s = .next t ∧ ExecEffect s i t := by
  cases i with
  | sipSetup => exact ⟨_, rfl, .hash _ _ (.inl ⟨rfl, rfl⟩)⟩
  | sipUpdate =>
    simp only [exec, execSipUpdate]
    cases h : s.sip.active
    · exact ⟨_, rfl, .error _ _⟩
    · rcases hashInput_cases s with ⟨-, e⟩ | ⟨-, e⟩ <;> simp only [e]
      · exact ⟨_, rfl, .hash _ _ (.inr ⟨rfl, h, _, e, rfl⟩)⟩
      · exact ⟨_, rfl, .error _ _⟩
  | sipFinalize =>
    simp only [exec, execSipFinalize]
    cases h : s.sip.active
    · exact ⟨_, rfl, .error _ _⟩
    · exact ⟨_, rfl, .finalize h⟩
  | sipOneshot =>
    simp only [exec, execSipOneshot]
    rcases hashInput_cases s with ⟨-, e⟩ | ⟨-, e⟩ <;> simp only [e]
    · exact ⟨_, rfl, .result _ _⟩
    · exact ⟨_, rfl, .error _ _⟩
  | getSecret =>
    simp only [exec, execGetSecret]
    rcases getSecret_cases s.regs.now s.regs.pktIndex s with ⟨-, e⟩ | ⟨h, e⟩ <;> simp only [e]
    · exact ⟨_, rfl, .error _ _⟩
    · exact ⟨_, rfl, .key _ _ _ h⟩
  | getCurrentSecret => exact ⟨_, rfl, .key _ _ _ (currentIndex_lt _)⟩
  | computeCookie =>
    simp only [exec, execComputeCookie]
    rcases cookieOperand_cases s (keyOperand s) with ⟨-, e⟩ | ⟨-, e⟩ <;> simp only [e]
    · exact ⟨_, rfl, .result _ _⟩
    · exact ⟨_, rfl, .error _ _⟩
  | validate =>
    simp only [exec, execValidate]
    split
    · exact ⟨_, rfl, .lenRange⟩
    · cases decodePacket (packetOperand s) with
      | error r => exact ⟨_, rfl, .packet _ _ (verdictEffect_reject ..)⟩
      | ok p =>
        obtain ⟨t, e, h⟩ := dispatchPacket_cases p s
        exact ⟨t, e, .packet _ _ h⟩
  | buildGetCookie =>
    exact ⟨_, rfl, .reply _ _ _ (by simp [getCookieReply, serverHeader, be32bytes])⟩
  | buildSetCookie =>
    simp only [exec, execBuildSetCookie, lookupSecret]
    generalize keyOf _ _ = k
    rcases cookieOperand_cases s k with ⟨-, e⟩ | ⟨-, e⟩ <;> simp only [e]
    · cases triggerError s with
      | some e => exact ⟨_, rfl, .error _ _⟩
      | none =>
        refine ⟨_, rfl, .cookieReply _ _ _ (currentIndex_lt _) ?_⟩
        simp only [setCookieReply, serverHeader, setCookieTrailer, le64bytes]
        split <;> simp [inBytes]
    · exact ⟨_, rfl, .error _ _⟩
  | buildReset =>
    refine ⟨_, rfl, .reply _ _ s.env.draws ?_⟩
    simp [serverHeader, Config.resetPayload, Config.resetPayloadMax]
    omega
  | buildResetPuzzle => exact ⟨_, rfl, .reply _ _ s.env.draws (by simp [serverHeader])⟩
  | wireGetCookie v p => exact ⟨_, rfl, .packet _ _ (verdictEffect_afterDispatch (verdictEffect_checkTimestamp ..))⟩
  | wireSetCookie v p => exact ⟨_, rfl, .packet _ _ (verdictEffect_afterDispatch (verdictEffect_accept ..))⟩
  | wireGetPuzzle v p => exact ⟨_, rfl, .packet _ _ (verdictEffect_afterDispatch (verdictEffect_checkCookie ..))⟩
  | wireSetPuzzle v p => exact ⟨_, rfl, .packet _ _ (verdictEffect_afterDispatch (verdictEffect_accept ..))⟩
  | wireSolvePuzzle v p => exact ⟨_, rfl, .packet _ _ (verdictEffect_reject ..)⟩
  | wireResetPuzzle v p => exact ⟨_, rfl, .packet _ _ (verdictEffect_afterDispatch (verdictEffect_accept ..))⟩
  | wireReset v p => exact ⟨_, rfl, .packet _ _ (verdictEffect_reject ..)⟩

/-! ## Which instance this is -/

theorem writeRegIdle_unit (r : Reg) (v : U32) (s : State) : (writeRegIdle r v s).env.unit = s.env.unit := by
  cases r with
  | statusClr => rcases writeStatusClr_cases v s with e | e <;> simp [writeRegIdle, e]
  | _ => rfl

theorem writeOffset_unit (off : Nat) (v : U32) (s : State) : (writeOffset off v s).env.unit = s.env.unit := by
  rcases writeOffset_cases off v s with ⟨-, e⟩ | ⟨r, -, ⟨-, e⟩ | ⟨-, -, e⟩ | ⟨-, -, e⟩⟩
  · rw [e]
  · rw [e, writeRegIdle_unit]
  · rcases writeStatusClr_cases v s with e' | e' <;> simp [e, e']
  · rw [e, setWerr_env]

theorem perform_unit {a : HostAccess} {s t : State} (h : perform a s = .next t) : t.env.unit = s.env.unit := by
  rcases perform_cases h with ⟨off, -, -, -, rfl⟩ | ⟨off, v, -, -, -, rfl⟩ | ⟨-, rfl⟩
  · rfl
  · exact writeOffset_unit off v s
  · rfl

theorem exec_unit {i : Instr} {s t : State} (h : exec i s = .next t) : t.env.unit = s.env.unit := by
  obtain ⟨u, hu, he⟩ := exec_cases i s
  obtain rfl : u = t := by simpa [h] using hu.symm
  cases he with
  | packet _ _ hv => obtain ⟨m, r, c, -, -, -, rfl⟩ := hv; rfl
  | _ => rfl

/-- A step leaves an instance the instance it is. -/
theorem step_unit {s t : State} (h : step s = .next t) : t.env.unit = s.env.unit := by
  rcases step_cases h with ⟨-, i, -, he⟩ | ⟨-, -, rfl⟩ | ⟨-, hh⟩
  · exact exec_unit he
  · rfl
  · obtain ⟨w, -, -, ⟨-, rfl⟩ | ⟨a, rest, -, hp⟩⟩ := hostTurn_cases hh
    · rfl
    · exact (perform_unit hp).trans rfl

/-- A step of an instance keeps the system well formed: the pages and the instances' numbers stay. -/
theorem stepNode_keeps_wf {k : Nat} {sys sys' : System} (hw : sys.wf) (h : stepNode k sys = .next sys') :
    sys'.wf := by
  unfold stepNode at h
  split at h
  · next => cases h; exact hw
  · next n hn =>
    split at h
    · next t ht =>
      cases h
      obtain ⟨hk, hkn⟩ := List.getElem?_eq_some_iff.1 hn
      have hpage : (sys.set k { n with engine := t }).map Node.page = sys.map Node.page := by
        rw [List.map_set, ← hkn, ← List.getElem_map (f := Node.page) (h := by simpa using hk), List.set_getElem_self]
      have hunit : (sys.set k { n with engine := t }).map (fun n => n.engine.env.unit) =
          sys.map fun n => n.engine.env.unit := by
        rw [List.map_set]
        simp only [step_unit ht]
        rw [← hkn, ← List.getElem_map (f := fun n : Node => n.engine.env.unit) (h := by simpa using hk),
          List.set_getElem_self]
      exact ⟨by simpa using hw.1, hpage ▸ hw.2.1, hunit ▸ hw.2.2⟩
    · cases h
    · cases h

end Sys2Proof.Machine
end

