-- ==== Sys2Proof/Laws/PerInstr.lean ====
section
/-! SUPPORT. A law that is proved for each instruction: the size of its encoding. -/

namespace Sys2Proof.Laws.EncodedLength

/-- A well-formed instruction is a command word whose `RSVD` bits are 0 (R90), or a client packet of at least the 18
header bytes that fits `IN_BUF` (R100, R108). -/
def Statement (i : Instr) : Prop :=
  i.wf = true →
    (∃ w, encode i = .command w ∧ w.extractLsb' 8 24 = 0) ∨
    (∃ P, encode i = .packet P ∧ 18 ≤ P.length ∧ P.length ≤ 512)

/-- A well-formed packet has at least its header and fits `IN_BUF`. -/
theorem packet_fits {p : ClientPacket} (h : p.wf = true) :
    18 ≤ (encodePacket p).length ∧ (encodePacket p).length ≤ 512 := by
  obtain ⟨c, v, payload⟩ := p
  rw [encodePacket_length]
  cases c <;> simp [ClientPacket.wf, WireCommand.size, Config.clientHdrLen, Config.inBufSize] at h ⊢ <;>
    first | omega | exact of_decide_eq_true h

theorem sipSetup : Statement .sipSetup := fun _ => .inl ⟨_, rfl, by decide⟩
theorem sipUpdate : Statement .sipUpdate := fun _ => .inl ⟨_, rfl, by decide⟩
theorem sipFinalize : Statement .sipFinalize := fun _ => .inl ⟨_, rfl, by decide⟩
theorem sipOneshot : Statement .sipOneshot := fun _ => .inl ⟨_, rfl, by decide⟩
theorem getSecret : Statement .getSecret := fun _ => .inl ⟨_, rfl, by decide⟩
theorem getCurrentSecret : Statement .getCurrentSecret := fun _ => .inl ⟨_, rfl, by decide⟩
theorem computeCookie : Statement .computeCookie := fun _ => .inl ⟨_, rfl, by decide⟩
theorem validate : Statement .validate := fun _ => .inl ⟨_, rfl, by decide⟩
theorem buildGetCookie : Statement .buildGetCookie := fun _ => .inl ⟨_, rfl, by decide⟩
theorem buildSetCookie : Statement .buildSetCookie := fun _ => .inl ⟨_, rfl, by decide⟩
theorem buildReset : Statement .buildReset := fun _ => .inl ⟨_, rfl, by decide⟩
theorem buildResetPuzzle : Statement .buildResetPuzzle := fun _ => .inl ⟨_, rfl, by decide⟩
theorem wireGetCookie (version : U32) (payload : List Byte) : Statement (.wireGetCookie version payload) :=
  fun h => .inr ⟨_, rfl, packet_fits h⟩
theorem wireSetCookie (version : U32) (payload : List Byte) : Statement (.wireSetCookie version payload) :=
  fun h => .inr ⟨_, rfl, packet_fits h⟩
theorem wireGetPuzzle (version : U32) (payload : List Byte) : Statement (.wireGetPuzzle version payload) :=
  fun h => .inr ⟨_, rfl, packet_fits h⟩
theorem wireSetPuzzle (version : U32) (payload : List Byte) : Statement (.wireSetPuzzle version payload) :=
  fun h => .inr ⟨_, rfl, packet_fits h⟩
theorem wireSolvePuzzle (version : U32) (payload : List Byte) : Statement (.wireSolvePuzzle version payload) :=
  fun h => .inr ⟨_, rfl, packet_fits h⟩
theorem wireResetPuzzle (version : U32) (payload : List Byte) : Statement (.wireResetPuzzle version payload) :=
  fun h => .inr ⟨_, rfl, packet_fits h⟩
theorem wireReset (version : U32) (payload : List Byte) : Statement (.wireReset version payload) :=
  fun h => .inr ⟨_, rfl, packet_fits h⟩

end Sys2Proof.Laws.EncodedLength
end

