-- ==== Sys2Proof/Laws/Sha512.lean ====
section
/-! SUPPORT. The constants of SHA-512 are what FIPS 180-4 defines them to be: fractions of roots of primes. -/

namespace Sys2Proof.Machine

/-- `wholeRoot` is the whole part of the root: its power does not exceed the number, and the next one's does. -/
theorem wholeRoot_spec {k n N : Nat} (hk : k ≠ 0) (hN : N < 2 ^ (k * n)) :
    wholeRoot k n N ^ k ≤ N ∧ N < (wholeRoot k n N + 1) ^ k := by
  induction n generalizing N with
  | zero => simp at hN; simp [wholeRoot, hN, hk]
  | succ n ih =>
    have h2 : 0 < 2 ^ k := Nat.two_pow_pos k
    have hlt : N / 2 ^ k < 2 ^ (k * n) := by
      rw [Nat.div_lt_iff_lt_mul h2, ← pow_add]
      exact hN
    obtain ⟨hle, hgt⟩ := ih hlt
    rw [wholeRoot]
    split
    · next h =>
      refine ⟨h, ?_⟩
      rw [show 2 * wholeRoot k n (N / 2 ^ k) + 1 + 1 = (wholeRoot k n (N / 2 ^ k) + 1) * 2 by ring, mul_pow]
      exact (Nat.div_lt_iff_lt_mul h2).1 hgt
    · next h =>
      refine ⟨?_, Nat.lt_of_not_le h⟩
      rw [Nat.mul_comm, mul_pow]
      exact (Nat.le_div_iff_mul_le h2).1 hle

/-- The primes of the round constants are prime, and there are 80 of them. -/
theorem shaPrimes_spec : (∀ p ∈ shaPrimes, p.Prime) ∧ shaPrimes.length = 80 := by
  constructor
  · have h : ∀ p ∈ shaPrimes, 2 ≤ p ∧ p < 21 * 21 ∧ ∀ m < 21, 2 ≤ m → m * m ≤ p → p % m ≠ 0 := by decide +kernel
    intro p hp
    obtain ⟨h2, hlt, hd⟩ := h p hp
    refine Nat.prime_def_le_sqrt.2 ⟨h2, fun m hm hle hdvd => ?_⟩
    have hmm : m * m ≤ p := Nat.le_sqrt.1 hle
    exact hd m (Nat.mul_self_lt_mul_self_iff.1 (by omega)) hm hmm (Nat.mod_eq_zero_of_dvd hdvd)
  · decide +kernel

end Sys2Proof.Machine
end

