-- ==== Sys2Proof/Machine/HostProgram.lean ====
section
/-! DEFINITION. The host program notation of 30_encoding.md R118 and its pseudo-operations (R119), and a host that
runs such a program against one instance. Variables and branches are the host's, not the engine's. Log 17. -/

namespace Sys2Proof.Machine

/-- A constant or a host variable. -/
inductive HostValue where
  | const (v : Nat)
  | var (x : Nat)
deriving DecidableEq, Repr

/-- The operations of R118; `combine` is the last step of `rd64` (R119). -/
inductive HostOp where
  | wr (off : Nat) (v : HostValue)
  | rd (off r : Nat)
  | label (l : Nat)
  | bnz (r mask l : Nat)
  | beq (r : Nat) (v : HostValue) (l : Nat)
  | jmp (l : Nat)
  | set (r : Nat) (v : HostValue)
  | add (r : Nat) (v : HostValue)
  | combine (r hi lo : Nat)
deriving DecidableEq, Repr

/-- `run OPNAME` (R119) with a fresh label `l` and the variable `t` for the polled `STATUS`. -/
def runCommandOps (op : Byte) (l t : Nat) : List HostOp :=
  [.wr Reg.cmd.offset (.const (commandWord op).toNat), .label l, .rd Reg.status.offset t, .bnz t 1 l]

/-- `wr64 NAME, v` (R119), given the offset of `NAME_LO`. -/
def wr64Ops (lo : Nat) (v : U64) : List HostOp :=
  [.wr lo (.const (v.extractLsb' 0 32).toNat), .wr (lo + 4) (.const (v.extractLsb' 32 32).toNat)]

/-- `rd64 NAME -> r` (R119), with the host variables `a` and `b` for the halves. -/
def rd64Ops (lo r a b : Nat) : List HostOp := [.rd lo a, .rd (lo + 4) b, .combine r b a]

/-- `wrbytes BUF+k, bytes` (R119), missing bytes of the last word taken as 0; `words` is how many words to write. -/
def wrBytesOps : (off words : Nat) → List Byte → List HostOp
  | _, 0, _ => []
  | off, n + 1, B => .wr off (.const (leNat (B.take 4))) :: wrBytesOps (off + 4) n (B.drop 4)

/-- `wrbytes` of a whole byte string (R119). -/
def wrBytes (off : Nat) (B : List Byte) : List HostOp := wrBytesOps off ((B.length + 3) / 4) B

/-- `wrseed` (R119). -/
def wrSeed (seed : List Byte) : List HostOp := wrBytes (Reg.masterSeed 0).offset seed

/-- `wraddr` (R119), given the first address register. -/
def wrAddr (r : Reg) (addr : List Byte) : List HostOp := wrBytes r.offset addr

/-- A host: its program, its position, its variables, and the variable that awaits a read's value. -/
structure HostAgent where
  program : List HostOp
  pos : Nat
  vars : List (Nat × Nat)
  awaiting : Option Nat
deriving DecidableEq, Repr

/-- The value of a host variable; one never set is 0. -/
def HostAgent.get (h : HostAgent) (x : Nat) : Nat := (h.vars.lookup x).getD 0

/-- Set a host variable. -/
def HostAgent.put (h : HostAgent) (x v : Nat) : HostAgent := { h with vars := (x, v) :: h.vars }

/-- The value of an operand. -/
def HostAgent.value (h : HostAgent) : HostValue → Nat
  | .const v => v
  | .var x => h.get x

/-- Go on to the next operation. -/
def HostAgent.advance (h : HostAgent) : HostAgent := { h with pos := h.pos + 1 }

/-- Go to a label. -/
def HostAgent.goto (h : HostAgent) (l : Nat) : HostAgent := { h with pos := h.program.idxOf (.label l) }

/-- Issue the next operation of the program, when every earlier access has been performed (R70). -/
def HostAgent.issue (h : HostAgent) (op : HostOp) (s : State) : HostAgent × State :=
  match op with
  | .wr off v => (h.advance, post (.write off 4 (BitVec.ofNat 32 (h.value v))) s)
  | .rd off r => ({ h.advance with awaiting := some r }, post (.read off 4) s)
  | .label _ => (h.advance, s)
  | .bnz r mask l => (if h.get r &&& mask ≠ 0 then h.goto l else h.advance, s)
  | .beq r v l => (if h.get r = h.value v then h.goto l else h.advance, s)
  | .jmp l => (h.goto l, s)
  | .set r v => ((h.put r (h.value v)).advance, s)
  | .add r v => ((h.put r (h.get r + h.value v)).advance, s)
  | .combine r hi lo => ((h.put r (h.get hi * 2 ^ 32 + h.get lo)).advance, s)

/-- One step of host and instance together: the instance while an access is pending, else the host, which takes a
value it awaits before it goes on; a host whose program has ended lets the instance run. -/
def hostStep (h : HostAgent) (s : State) : Host.Outcome (HostAgent × State) Fault Refusal :=
  let engine : Host.Outcome (HostAgent × State) Fault Refusal :=
    match step s with
    | .next t => .next (h, t)
    | .fault f => .fault f
    | .refused r => .refused r
  if s.env.pending ≠ [] then engine
  else match h.awaiting with
    | some r => .next ({ h.put r (s.env.observed.headD 0).toNat with awaiting := none }, s)
    | none =>
      match h.program[h.pos]? with
      | none => engine
      | some op => .next (h.issue op s)

end Sys2Proof.Machine
end

