-- ==== Sys2Proof/Tests/Slice0.lean ====
section
/-! SUPPORT. Tests. The expected values come from the spec's tables and vectors (95_test_vectors.md), named in each
comment; the last part shows a concrete state that meets the hypotheses of each statement. -/

namespace Sys2Proof.Tests

set_option Elab.async false

open Sys2Proof Sys2Proof.Machine

/-! ## Well-formedness: each check refuses an ill-formed term -/

theorem test_wf_get_cookie : Instr.wf (.wireGetCookie 0 (List.replicate 15 0)) = false := by decide
theorem test_wf_set_cookie : Instr.wf (.wireSetCookie 0 (List.replicate 21 0)) = false := by decide
theorem test_wf_get_puzzle : Instr.wf (.wireGetPuzzle 0 (List.replicate 19 0)) = false := by decide
theorem test_wf_set_puzzle : Instr.wf (.wireSetPuzzle 0 (List.replicate 243 0)) = false := by decide +kernel
theorem test_wf_reset_puzzle : Instr.wf (.wireResetPuzzle 0 []) = false := by decide
theorem test_wf_solve_puzzle : Instr.wf (.wireSolvePuzzle 0 (List.replicate 495 0)) = false := by decide +kernel
theorem test_wf_reset : Instr.wf (.wireReset 0 (List.replicate 495 0)) = false := by decide +kernel
theorem test_wf_accepts : Instr.wf (.wireGetCookie 0 (List.replicate 16 0)) = true := by decide
theorem test_wf_access_width : HostAccess.wf (.read 0x004 2) = false := by decide
theorem test_wf_access_alignment : HostAccess.wf (.write 0x006 4 0) = false := by decide
theorem test_wf_access_range : HostAccess.wf (.read 0x1000 4) = false := by decide

/-! ## Decoding: words and packets written out from R92, R100 and R103 -/

theorem test_decode_sip_setup : decodeCommand 0x00000001 = .ok .sipSetup := by decide
theorem test_decode_sip_update : decodeCommand 0x00000002 = .ok .sipUpdate := by decide
theorem test_decode_sip_finalize : decodeCommand 0x00000003 = .ok .sipFinalize := by decide
theorem test_decode_sip_oneshot : decodeCommand 0x00000004 = .ok .sipOneshot := by decide
theorem test_decode_get_secret : decodeCommand 0x00000010 = .ok .getSecret := by decide
theorem test_decode_get_current_secret : decodeCommand 0x00000011 = .ok .getCurrentSecret := by decide
theorem test_decode_compute_cookie : decodeCommand 0x00000020 = .ok .computeCookie := by decide
theorem test_decode_validate : decodeCommand 0x00000030 = .ok .validate := by decide
theorem test_decode_build_get_cookie : decodeCommand 0x00000040 = .ok .buildGetCookie := by decide
theorem test_decode_build_set_cookie : decodeCommand 0x00000041 = .ok .buildSetCookie := by decide
theorem test_decode_build_reset : decodeCommand 0x00000042 = .ok .buildReset := by decide
theorem test_decode_build_reset_puzzle : decodeCommand 0x00000043 = .ok .buildResetPuzzle := by decide
/-- V-IF-1, V-IF-2, V-IF-3. -/
theorem test_decode_illegal : decodeCommand 0x00000099 = .error .unassignedOpcode ∧
    decodeCommand 0x00000110 = .error .reservedBits ∧ decodeCommand 0 = .error .unassignedOpcode := by decide

/-- A client packet of version 0x5F5E1000, from its command byte on. -/
def client (c : Byte) (payload : List Byte) : List Byte :=
  [0x54, 0x53, 0x33, 0x49, 0x4E, 0x49, 0x54, 0x31, 0x00, 0x65, 0x00, 0x00, 0x88, 0x5F, 0x5E, 0x10, 0x00, c] ++ payload

theorem test_decode_wire_get_cookie : decode (.packet (client 0 [1, 2])) = .ok (.wireGetCookie 0x5F5E1000 [1, 2]) := by
  decide
theorem test_decode_wire_set_cookie : decode (.packet (client 1 [1])) = .ok (.wireSetCookie 0x5F5E1000 [1]) := by decide
theorem test_decode_wire_get_puzzle : decode (.packet (client 2 [1])) = .ok (.wireGetPuzzle 0x5F5E1000 [1]) := by decide
theorem test_decode_wire_set_puzzle : decode (.packet (client 3 [1])) = .ok (.wireSetPuzzle 0x5F5E1000 [1]) := by decide
theorem test_decode_wire_solve_puzzle : decode (.packet (client 4 [])) = .ok (.wireSolvePuzzle 0x5F5E1000 []) := by decide
theorem test_decode_wire_reset_puzzle : decode (.packet (client 5 [9])) = .ok (.wireResetPuzzle 0x5F5E1000 [9]) := by
  decide
theorem test_decode_wire_reset : decode (.packet (client 0x7F [])) = .ok (.wireReset 0x5F5E1000 []) := by decide
theorem test_decode_wire_unassigned : decode (.packet (client 6 [])) = .error (.packet .unassignedCommand) := by decide

/-- The rows of spec/opcode_table.json by their bits. -/
theorem test_table_words : decodeTableWord 32 0x43 = some .buildResetPuzzle ∧
    decodeTableWord 8 0 = some (.wireGetCookie 0 (List.replicate 16 0)) ∧
    decodeTableWord 24 5 = some (.wireResetPuzzle 0 [0]) ∧ decodeTableWord 8 0x7F = some (.wireReset 0 []) := by
  decide +kernel

/-! ## States -/

/-- The next state of an outcome. -/
def nextOf : Host.Outcome State Fault Refusal → Option State
  | .next t => some t
  | .fault _ => none
  | .refused _ => none

theorem eq_next {o : Host.Outcome State Fault Refusal} {t : State} (h : nextOf o = some t) : o = .next t := by
  cases o <;> simp_all [nextOf]

/-- The state after an instruction. -/
def after (i : Instr) (s : State) : State := (nextOf (exec i s)).getD s

/-- The state after a step. -/
def stepped (s : State) : State := (nextOf (step s)).getD s

theorem step_stepped {s : State} (h : (nextOf (step s)).isSome = true) : step s = .next (stepped s) := by
  obtain ⟨t, ht⟩ := Option.isSome_iff_exists.1 h
  exact eq_next (by simp [stepped, ht])

theorem exec_after {i : Instr} {s : State} (h : (nextOf (exec i s)).isSome = true) : exec i s = .next (after i s) := by
  obtain ⟨t, ht⟩ := Option.isSome_iff_exists.1 h
  exact eq_next (by simp [after, ht])

/-- `SEEDA`, `TUP4`, `KREF` and `NOW = t0` of 95_test_vectors.md. -/
def base : State :=
  { State.reset with regs := { State.reset.regs with
      masterSeed := #v[0x03020100, 0x07060504, 0x0B0A0908, 0x0F0E0D0C, 0x13121110, 0x17161514, 0x1B1A1918, 0x1F1E1D1C,
        0x23222120, 0x27262524, 0x2B2A2928, 0x2F2E2D2C, 0x33323130, 0x37363534, 0x3B3A3938]
      af := 4
      srcAddr := #v[0x010200C0, 0, 0, 0]
      dstAddr := #v[0x026433C6, 0, 0, 0]
      srcPort := 50000
      now := 1700000003
      key0 := 0x0706050403020100
      key1 := 0x0F0E0D0C0B0A0908 } }

/-- A state with other configuration bits. -/
def withCfg (c : BitVec 4) (s : State) : State := { s with regs := { s.regs with cfg := c } }

/-- A state at another time. -/
def atTime (n : U64) (s : State) : State := { s with regs := { s.regs with now := n } }

/-- A state with another packet index. -/
def withIndex (p : Byte) (s : State) : State := { s with regs := { s.regs with pktIndex := p } }

/-- A state with another hash input range. -/
def withRange (off len : U16) (s : State) : State := { s with regs := { s.regs with updOff := off, updLen := len } }

/-- A state with another address family. -/
def withFamily (a : Byte) (s : State) : State := { s with regs := { s.regs with af := a } }

/-- A state with another `IN_LEN`. -/
def withInLen (n : U16) (s : State) : State := { s with regs := { s.regs with inLen := n } }

/-- A state with host accesses issued. -/
def issue (a : List HostAccess) (s : State) : State := { s with env := { s.env with pending := a } }

/-- A command in flight that completes after `n` more steps. -/
def inFlight (w : U32) (n : Nat) (s : State) : State :=
  let t := placeCommand w s
  { t with env := { t.env with wait := n } }

/-- `PGC` (V-VAL-1). -/
def pgc : List Byte := client 0 [0x65, 0x53, 0xF1, 0x00, 0xA1, 0xB2, 0xC3, 0xD4, 0, 0, 0, 0, 0, 0, 0, 0]

/-- `PGP` (V-VAL-GPP). -/
def pgp : List Byte :=
  client 2 [0x6C, 0xBD, 0xE3, 0x22, 0xE1, 0x88, 0x69, 0x52, 3, 0, 0, 0, 0, 0, 0, 0, 0, 0, 0, 0]

/-- The bytes 00 to 0E in `IN_BUF`. -/
def hashed15 : State := withRange 0 15 (placePacket ((List.range 15).map (BitVec.ofNat 8)) base)

/-! ## The step and the fetch -/

theorem test_fetch_command : completesNow (State.reset.withFetchWord 32 0x10) = true ∧
    decodeCommand (State.reset.withFetchWord 32 0x10).cmd = .ok .getSecret := by decide +kernel
theorem test_fetch_packet : decode (.packet (packetOperand (State.reset.withFetchWord 24 5))) =
    .ok (.wireResetPuzzle 0 [0]) := by decide +kernel

/-! ## Instructions -/

/-- V-SIP-INIT. -/
theorem test_sip_setup : (after .sipSetup base).sip =
    ⟨⟨0x7469686173716475, 0x6b617f6d656e6665, 0x6b7f62616d677361, 0x7b6b696e727e6c7b⟩, 0, 0, 0, true⟩ := by decide +kernel
/-- V-SIP-INIT. -/
theorem test_sip_setup_status : statusWord (after .sipSetup base) = 0x0000000A := by decide +kernel

/-- V-SIP-STREAM, the first two updates. -/
theorem test_sip_update : (after .sipUpdate (withRange 3 5 (after .sipUpdate (withRange 0 3
      (after .sipSetup hashed15))))).sip =
    ⟨⟨0x4a017198de0a59e0, 0x0d52f6f62a4f59a4, 0x634cb3577b01fd3d, 0xa5224d6f55c7d9c8⟩, 0, 0, 8, true⟩ := by decide +kernel
/-- V-SIP-ERR, the fourth row. -/
theorem test_sip_update_range : statusWord (after .sipUpdate (withRange 500 13 (after .sipSetup base))) = 0x0003000A := by
  decide +kernel
/-- V-SIP-1. -/
theorem test_sip_finalize : (after .sipFinalize (after .sipSetup base)).res.result = 0x726fdb47dd0e0e31 := by
  decide +kernel
/-- V-SIP-ERR, the second row. -/
theorem test_sip_finalize_inactive : statusWord (after .sipFinalize base) = 0x00020002 := by decide +kernel
/-- V-SIP-3. -/
theorem test_sip_oneshot : (after .sipOneshot hashed15).res.result = 0xa129ca6149be45e5 := by decide +kernel
/-- V-SIP-ERR, a range of 513. -/
theorem test_sip_oneshot_range : (after .sipOneshot (withRange 1 512 base)).status.err = 0x03 := by decide +kernel

/-- W10. -/
theorem test_sha512_abc : (sha512 [0x61, 0x62, 0x63]).toList.take 8 = [0xdd, 0xaf, 0x35, 0xa1, 0x93, 0x61, 0x7a, 0xba] := by
  decide +kernel
/-- V-SC-1. -/
theorem test_get_secret : (after .getSecret (withIndex 3 base)).res =
    { base.res with resKey0 := 0x53cee7f6ee9eb1dc, resKey1 := 0x7185eab0868f82d5, resIndex := 3 } := by decide +kernel
/-- V-SC-4. -/
theorem test_get_secret_bad_index : statusWord (after .getSecret (withIndex 8 base)) = 0x00040002 := by decide +kernel
/-- V-SC-TRACE row 7. -/
theorem test_get_current_secret : (after .getCurrentSecret (atTime 1700000006 base)).res =
    { base.res with resKey0 := 0xe3c5240e48f83f4f, resKey1 := 0x8208e57d975fc335, resIndex := 6 } := by decide +kernel
/-- V-SC-6 row 2, the wrap below time 4. -/
theorem test_window_wrap : packetCacheTime 1 5 = 0xFFFFFFFFFFFFFFFC := by decide
/-- V-CK-3. -/
theorem test_compute_cookie : (after .computeCookie base).res.result = 0x85daf79a3ba0d1c0 := by decide +kernel
/-- V-CK-8. -/
theorem test_compute_cookie_family : statusWord (after .computeCookie (withFamily 5 base)) = 0x00050002 := by
  decide +kernel
/-- V-VAL-GP, the first row: the cookie of V-CK-1. -/
theorem test_validate : statusWord (after .validate (placePacket pgp (withCfg 8 base))) = 0x00000006 := by decide +kernel
/-- V-VAL-17: the server form of GET_COOKIE (V-RB-1). -/
theorem test_validate_server_form : statusWord (after .validate (placePacket
    [0x54, 0x53, 0x33, 0x49, 0x4E, 0x49, 0x54, 0x31, 0x00, 0x65, 0x00, 0x00, 0x88, 0x00, 0x65, 0x53, 0xF1, 0x03,
     0xA1, 0xB2, 0xC3, 0xD4, 0, 0, 0, 0, 0, 0, 0, 0] base)) = 0x07000002 := by decide +kernel
/-- V-RB-1, up to the random field. -/
theorem test_build_get_cookie : outBytes (after .buildGetCookie base) 0 18 =
    [0x54, 0x53, 0x33, 0x49, 0x4E, 0x49, 0x54, 0x31, 0x00, 0x65, 0x00, 0x00, 0x88, 0x00, 0x65, 0x53, 0xF1, 0x03] := by
  decide +kernel
/-- V-RB-3. -/
theorem test_build_set_cookie : outBytes (after .buildSetCookie (placePacket pgc base)) 13 21 =
    [0x01, 0x6C, 0xBD, 0xE3, 0x22, 0xE1, 0x88, 0x69, 0x52, 0x03, 0, 0, 0, 0, 0, 0, 0, 0xD4, 0xC3, 0xB2, 0xA1] := by
  decide +kernel
/-- V-RB-4: the family is checked first. -/
theorem test_build_set_cookie_errors : (after .buildSetCookie (withInLen 25 (withFamily 5 base))).status.err = 0x05 ∧
    (after .buildSetCookie (withInLen 25 base)).status.err = 0x06 ∧
    (after .buildSetCookie (withInLen 513 base)).status.err = 0x03 := by decide +kernel
/-- V-RB-6. -/
theorem test_build_reset : serverHeader .reset =
    [0x54, 0x53, 0x33, 0x49, 0x4E, 0x49, 0x54, 0x31, 0x00, 0x65, 0x00, 0x00, 0x88, 0x7F] := by decide
/-- V-RB-6. -/
theorem test_build_reset_puzzle : outBytes (after .buildResetPuzzle base) 12 2 = [0x88, 0x05] ∧
    (after .buildResetPuzzle base).res.outLen = 15 := by decide +kernel
/-- V-VAL-1 and V-VAL-2: the timestamp tolerance. -/
theorem test_wire_get_cookie (s : State) (hs : s = withCfg 4 { base with regs := { base.regs with maxUtcOffset := 5 } }) :
    statusWord (after (.wireGetCookie 0x5F5E1000 (pgc.drop 18)) (atTime 1700000005 s)) = 0x00000006 ∧
    statusWord (after (.wireGetCookie 0x5F5E1000 (pgc.drop 18)) (atTime 1699999994 s)) = 0x09000002 := by
  subst hs; decide +kernel
/-- V-VAL-12 and V-VAL-11: the version floor. -/
theorem test_wire_version : statusWord (after (.wireGetCookie 0x5F5E1000 (pgc.drop 18))
      (withCfg 2 { base with regs := { base.regs with minClientVersion := 0x5F5E1001 } })) = 0x08000002 ∧
    statusWord (after (.wireGetCookie 0x5F5E1000 (pgc.drop 18))
      (withCfg 2 { base with regs := { base.regs with minClientVersion := 0x5F5E1000 } })) = 0x00000006 := by
  decide +kernel
/-- V-VAL-14. -/
theorem test_wire_set_cookie : statusWord (after (.wireSetCookie 0 (List.replicate 20 0)) base) = 0x00000006 := by
  decide +kernel
/-- V-VAL-GP, `NOW = t0 + 5`. -/
theorem test_wire_get_puzzle : statusWord (after (.wireGetPuzzle 0 (pgp.drop 18)) (atTime 1700000008 (withCfg 8 base))) =
    0x0C000002 := by decide +kernel
/-- V-VAL-GP, the further cases: packet index 8, and `AF = 5`. -/
theorem test_wire_get_puzzle_rejects :
    statusWord (after (.wireGetPuzzle 0 ((pgp.drop 18).set 8 8)) (withCfg 8 base)) = 0x0A000002 ∧
    statusWord (after (.wireGetPuzzle 0 (pgp.drop 18)) (withFamily 5 (withCfg 8 base))) = 0x0B000002 := by decide +kernel
/-- V-VAL-15. -/
theorem test_wire_set_puzzle : statusWord (after (.wireSetPuzzle 0 (List.replicate 244 0)) base) = 0x00000006 := by
  decide +kernel
/-- V-VAL-8. -/
theorem test_wire_solve_puzzle : statusWord (after (.wireSolvePuzzle 0 []) base) = 0x06000002 := by decide +kernel
/-- V-VAL-16. -/
theorem test_wire_reset_puzzle : statusWord (after (.wireResetPuzzle 0 [0]) base) = 0x00000006 := by decide +kernel
/-- V-VAL-8b. -/
theorem test_wire_reset : statusWord (after (.wireReset 0 []) base) = 0x06000002 := by decide +kernel

/-! ## The bus -/

/-- V-IF-6: `CFG` reads back its implemented bits. -/
theorem test_bus_cfg : readOffset 0x00C (writeOffset 0x00C 0xFFFFFFFF base) = 0x0000000F := by decide +kernel
/-- V-IF-4: the seed reads 0. -/
theorem test_bus_seed : readOffset 0x100 base = 0 := by decide +kernel
/-- The words of V-VAL-1, one by one, are the bytes of `PGC`. -/
theorem test_bus_buffer : inBytes (writeOffset 0x204 0x3154494E (writeOffset 0x200 0x49335354 base)) 0 8 = pgc.take 8 := by
  decide +kernel
/-- V-IF-1, and R301: the illegal word is not kept. -/
theorem test_illegal_command : statusWord (stepped (inFlight 0x99 0 base)) = 0x00010002 ∧
    (stepped (inFlight 0x99 0 base)).cmd ≠ 0x99 := by decide +kernel
/-- V-IF-7: a write while busy. -/
theorem test_bus_busy : (writeOffset 0x018 5 (inFlight 0x10 3 base)).regs.now = base.regs.now ∧
    (writeOffset 0x018 5 (inFlight 0x10 3 base)).status.werr = true := by decide +kernel
/-- V-SC-7: writing back the same seed word still makes both slots invalid. -/
theorem test_bus_seed_invalidates :
    (writeOffset 0x100 0x03020100 (after .getSecret (withIndex 3 base))).cache.slot0.valid = false := by decide +kernel
/-- R119: `wr64 NOW, v` writes the low word first. -/
theorem test_host_wr64 : wr64Ops 0x018 0x100000005 = [.wr 0x018 (.const 5), .wr 0x01C (.const 1)] := by decide
/-- R119: `run SIP_SETUP` polls `STATUS` until bit 0 is 0. -/
theorem test_host_run : runCommandOps 0x01 7 8 =
    [.wr 0x000 (.const 1), .label 7, .rd 0x004 8, .bnz 8 1 7] := by decide

/-! ## Witnesses: a concrete state and operands that meet the hypotheses of each statement, clause by clause -/

/-- A state with an empty cache satisfies the cache invariant. -/
theorem cacheOk_of_invalid {s : State} (h0 : s.cache.slot0.valid = false) (h1 : s.cache.slot1.valid = false) :
    CacheOk s :=
  ⟨fun h => absurd (h0.symm.trans h) (by decide), fun h => absurd (h1.symm.trans h) (by decide)⟩

/-- A state whose slot 0 is filled. -/
def filled : State := after .getSecret (withIndex 3 base)

theorem cacheOk_base : CacheOk base := cacheOk_of_invalid (by decide) (by decide)

theorem cacheOk_filled : CacheOk filled ∧ filled.cache.slot0.valid = true :=
  ⟨⟨fun _ => by decide +kernel, fun h => absurd h (by decide +kernel)⟩, by decide +kernel⟩

theorem witness_StepRunsCommand : (inFlight 0x10 0 base).status.busy = true ∧ (inFlight 0x10 0 base).env.wait = 0 ∧
    decodeCommand (inFlight 0x10 0 base).cmd = .ok .getSecret := by decide +kernel

theorem witness_StepRunsPacket : (inFlight 0x30 0 (placePacket pgc base)).status.busy = true ∧
    (inFlight 0x30 0 (placePacket pgc base)).env.wait = 0 ∧ (inFlight 0x30 0 (placePacket pgc base)).cmd = 0x00000030 ∧
    (inFlight 0x30 0 (placePacket pgc base)).regs.inLen.toNat ≤ 512 ∧
    decode (.packet (packetOperand (inFlight 0x30 0 (placePacket pgc base)))) =
      .ok (.wireGetCookie 0x5F5E1000 (pgc.drop 18)) := by decide +kernel

theorem witness_IllegalCommandEffect :
    ((0x00000110 : U32) >>> 8 ≠ 0) ∧
    ((0x00000044 : U32) &&& 0xFF ∉
      ([0x01, 0x02, 0x03, 0x04, 0x10, 0x11, 0x20, 0x30, 0x40, 0x41, 0x42, 0x43] : List U32)) ∧
    (issue [.write 0x000 4 0x110] base).status.busy = false ∧
    (issue [.write 0x000 4 0x110] base).env.pending = [.write 0x000 4 0x110] ∧
    (inFlight 0x110 0 base).status.busy = true ∧ (inFlight 0x110 0 base).env.wait = 0 ∧
    (inFlight 0x110 0 base).cmd = 0x110 := by decide +kernel

theorem witness_CommandAcceptance :
    (issue [.write 0x000 4 1] base).env.pending = [.write 0x000 4 1] ∧ (issue [.write 0x000 4 1] base).status.busy = false ∧
    (issue [.write 0x000 4 1] (inFlight 0x10 1 base)).env.pending = [.write 0x000 4 1] ∧
    (issue [.write 0x000 4 1] (inFlight 0x10 1 base)).status.busy = true ∧
    (issue [.write 0x000 4 1] (inFlight 0x10 1 base)).env.wait ≠ 0 := by decide +kernel

theorem witness_BusyWritesDropped :
    (issue [.write Reg.nowLo.offset 4 5] (inFlight 0x10 1 base)).env.pending = [.write Reg.nowLo.offset 4 5] ∧
    (issue [.write Reg.nowLo.offset 4 5] (inFlight 0x10 1 base)).status.busy = true ∧
    (issue [.write Reg.nowLo.offset 4 5] (inFlight 0x10 1 base)).env.wait ≠ 0 ∧ Reg.nowLo ≠ Reg.statusClr ∧
    (issue [.write Reg.resultLo.offset 4 1] base).env.pending = [.write Reg.resultLo.offset 4 1] ∧
    (issue [.write Reg.resultLo.offset 4 1] base).status.busy = false ∧ Reg.resultLo.access = .readOnly := by
  decide +kernel

theorem witness_StatusClrClearsWerr :
    (issue [.write 0x008 4 0x100] base).env.pending = [.write 0x008 4 0x100] ∧
    (issue [.write 0x008 4 0x100] base).status.busy = false ∧
    (issue [.write 0x008 4 0xFF] (inFlight 0x10 1 base)).env.pending = [.write 0x008 4 0xFF] ∧
    (issue [.write 0x008 4 0xFF] (inFlight 0x10 1 base)).status.busy = true ∧
    (issue [.write 0x008 4 0xFF] (inFlight 0x10 1 base)).env.wait ≠ 0 := by decide +kernel

/-- An idle state with `WERR` set and a clearing write issued. -/
def werrState : State := issue [.write 0x008 4 0x100] (setWerr base)

theorem witness_WerrSticky : step werrState = .next (stepped werrState) ∧ werrState.status.werr = true ∧
    (stepped werrState).status.werr = false :=
  ⟨step_stepped (by decide +kernel), by decide +kernel⟩

theorem witness_ReservedSpaceInert : 0x03C % 4 = 0 ∧
    (0x090 % 4 = 0 ∧ 0x090 ≤ 0x090 ∧ 0x090 ≤ 0x0FC) ∧ (0x0FC % 4 = 0 ∧ 0x090 ≤ 0x0FC ∧ 0x0FC ≤ 0x0FC) ∧
    (0x13C % 4 = 0 ∧ 0x13C ≤ 0x13C ∧ 0x13C ≤ 0x1FC) ∧ (0x1FC % 4 = 0 ∧ 0x13C ≤ 0x1FC ∧ 0x1FC ≤ 0x1FC) ∧
    (0x500 % 4 = 0 ∧ 0x500 ≤ 0x500 ∧ 0x500 ≤ 0xFFC) ∧ (0xFFC % 4 = 0 ∧ 0x500 ≤ 0xFFC ∧ 0xFFC ≤ 0xFFC) ∧
    Reg.cfg ≠ Reg.cmd := by decide

theorem witness_NonWordAccessRefused :
    completesNow (issue [.read 0x004 2] base) = false ∧ (2 ≠ 4 ∨ 0x004 % 4 ≠ 0) ∧
    (issue [.read 0x004 2] base).env.pending = [.read 0x004 2] ∧
    completesNow (issue [.write 0x006 4 0] base) = false ∧ (4 ≠ 4 ∨ 0x006 % 4 ≠ 0) ∧
    (issue [.write 0x006 4 0] base).env.pending = [.write 0x006 4 0] := by decide +kernel

theorem witness_OutsideAccessFaults :
    completesNow (issue [.read 0x1000 4] base) = false ∧ 0x1000 % 4 = 0 ∧ 0x1000 ≤ 0x1000 ∧
    (issue [.read 0x1000 4] base).env.pending = [.read 0x1000 4] ∧
    (issue [.write 0x1000 4 0] base).env.pending = [.write 0x1000 4 0] := by decide +kernel

theorem witness_HostReadReturns :
    (issue [.read Reg.status.offset 4] base).env.pending = [.read Reg.status.offset 4] ∧
    (issue [.read Reg.status.offset 4] base).status.busy = false ∧
    (issue [.read Reg.status.offset 4] (inFlight 0x10 1 base)).env.pending = [.read Reg.status.offset 4] ∧
    (issue [.read Reg.status.offset 4] (inFlight 0x10 1 base)).status.busy = true ∧
    (issue [.read Reg.status.offset 4] (inFlight 0x10 1 base)).env.wait ≠ 0 := by decide +kernel

theorem witness_WritesAffectOneRegister : base.status.busy = false ∧ Reg.cfg.access = .readWrite ∧
    (issue [.write Reg.cfg.offset 4 0xFFFFFFFF] base).env.pending = [.write Reg.cfg.offset 4 0xFFFFFFFF] ∧
    (Reg.inBuf 127).access = .readWrite ∧ (Reg.dstAddr 3).access = .readWrite ∧ Reg.key1Hi.access = .readWrite ∧
    (issue [.write (Reg.inBuf 127).offset 4 1, .reset] base).env.pending =
      .write (Reg.inBuf 127).offset 4 1 :: [.reset] := by decide +kernel

theorem witness_SeedWriteInvalidates :
    (issue [.write 0x100 4 7] filled).status.busy = false ∧
    (issue [.write 0x100 4 7] filled).env.pending = [.write (0x100 + 4 * (0 : Fin 15).val) 4 7] ∧
    (issue [.write 0x138 4 7] filled).env.pending = [.write (0x100 + 4 * (14 : Fin 15).val) 4 7] := by decide +kernel

theorem witness_StatusWordLayout :
    ((inFlight 0x10 1 base).status.busy = true → (inFlight 0x10 1 base).status.done = false ∧
      (inFlight 0x10 1 base).status.matched = false ∧ (inFlight 0x10 1 base).status.err = 0) ∧
    (inFlight 0x10 1 base).status.matched = false ∧ (inFlight 0x10 1 base).status.err ≤ 0x06 ∧
    (inFlight 0x10 1 base).status.reason ≤ 0x0D ∧ (inFlight 0x10 1 base).status.busy = true := by decide +kernel

/-- A hash in progress, with the largest range that fits. -/
def hashing : State := after .sipSetup (withRange 512 0 base)

theorem witness_SipUpdateResult : hashing.sip.active = true ∧
    hashing.regs.updOff.toNat + hashing.regs.updLen.toNat ≤ 512 ∧ base.sip.active = false ∧
    (withRange 500 13 hashing).sip.active = true ∧
    512 < (withRange 500 13 hashing).regs.updOff.toNat + (withRange 500 13 hashing).regs.updLen.toNat := by
  decide +kernel

theorem witness_SipAbsorbsByByte : SipOk (sipAbsorb hashing.sip [1, 2, 3, 4, 5, 6]) ∧
    (sipAbsorb hashing.sip [1, 2, 3, 4, 5, 6]).ntail.toNat < 7 ∧ SipOk (sipAbsorb hashing.sip [1, 2, 3, 4, 5, 6, 7]) ∧
    (sipAbsorb hashing.sip [1, 2, 3, 4, 5, 6, 7]).ntail.toNat = 7 := by unfold SipOk; decide +kernel

theorem witness_SipFinalizeResult : hashing.sip.active = true ∧ base.sip.active = false := by decide +kernel

theorem witness_SipOneshotResult :
    (withRange 0 512 base).regs.updOff.toNat + (withRange 0 512 base).regs.updLen.toNat ≤ 512 ∧
    512 < (withRange 1 512 base).regs.updOff.toNat + (withRange 1 512 base).regs.updLen.toNat := by decide +kernel

/-- A hash in progress is still in progress when the time of a later command is up. -/
theorem hashRun_waited {k : SipKey} {M : List Byte} (n : Nat) : ∀ s : State, s.env.wait = n → HashRun k M s →
    s.status.busy = true → s.env.pending = [] → HashRun k M { s with env := { s.env with wait := 0 } } := by
  induction n with
  | zero =>
    intro s hw h _ _
    have : s = { s with env := { s.env with wait := 0 } } := by rw [← hw]
    exact this ▸ h
  | succ n ih =>
    intro s hw h hb hp
    have hc : completesNow s = false := by simp [completesNow, hw]
    have hs : step s = .next (tick s) := by simp [step, hc, hostTurn, hb, tick, hp]
    have hn : ∀ i, ¬ Completes i s := fun i hi => absurd (hc.symm.trans hi.1) (by decide)
    have hr : ¬ TakesReset s := fun hi => by simp [TakesReset, hp] at hi
    exact ih (tick s) (by simp [tick, hw]) (.other h (hn _) (hn _) (hn _) hr hs) hb hp

/-- The state once the time of the command in flight is up. -/
def waited (s : State) : State := { s with env := { s.env with wait := 0 } }

/-- The state after the host's `CMD` write is accepted and its time is up. -/
def commanded (w : U32) (s : State) : State :=
  waited (stepped { s with env := { s.env with pending := s.env.pending ++ [.write 0x000 4 w] } })

/-- The state in which the `SIP_SETUP` completes, over 15 known bytes. -/
def runSetup : State := inFlight 0x01 0 hashed15

/-- The state in which the `SIP_UPDATE` completes. -/
def runUpdate : State := commanded 0x02 (stepped runSetup)

/-- The state in which the `SIP_FINALIZE` completes. -/
def runFinalize : State := commanded 0x03 (stepped runUpdate)

/-- A hash in progress goes through the acceptance of another command. -/
theorem hashRun_commanded {k : SipKey} {M : List Byte} {s : State} (w : U32) (h : HashRun k M s)
    (hb : s.status.busy = false) (hp : s.env.pending = []) : HashRun k M (commanded w s) := by
  have hs : step { s with env := { s.env with pending := s.env.pending ++ [.write 0x000 4 w] } } =
      .next (accept w s) := by
    have : regAt 0 = some .cmd := by decide
    have he : ({ s.env with pending := [] } : Env) = s.env := by rw [← hp]
    simp [step, completesNow, hb, hostTurn, hp, perform, guardAccess, wordAccess, writeOffset, this, writeRegIdle,
      Config.registerSpaceSize, he]
  have hc : completesNow { s with env := { s.env with pending := s.env.pending ++ [.write 0x000 4 w] } } = false := by
    simp [completesNow, hb]
  have hn : ∀ i, ¬ Completes i { s with env := { s.env with pending := s.env.pending ++ [.write 0x000 4 w] } } :=
    fun i hi => absurd (hc.symm.trans hi.1) (by decide)
  have ht : commanded w s = waited (accept w s) := by simp [commanded, stepped, hs, nextOf]
  rw [ht]
  exact hashRun_waited _ _ rfl (.other (.arrival _ h) (hn _) (hn _) (hn _) (fun hi => by simp [TakesReset, hp] at hi) hs)
    rfl hp

theorem witness_StreamingContract :
    HashRun ⟨0x0706050403020100, 0x0F0E0D0C0B0A0908⟩ ((List.range 15).map (BitVec.ofNat 8)) runFinalize ∧
    Completes .sipFinalize runFinalize := by
  have h1 : HashRun ⟨0x0706050403020100, 0x0F0E0D0C0B0A0908⟩ [] (stepped runSetup) :=
    .setup ⟨by decide +kernel, by decide +kernel⟩ (by decide +kernel) (step_stepped (by decide +kernel))
  have h2 := HashRun.update (hashRun_commanded 0x02 h1 (by decide +kernel) (by decide +kernel))
    (B := (List.range 15).map (BitVec.ofNat 8)) ⟨by decide +kernel, by decide +kernel⟩ (by decide +kernel)
    (step_stepped (by decide +kernel))
  exact ⟨hashRun_commanded 0x03 h2 (by decide +kernel) (by decide +kernel), by decide +kernel, by decide +kernel⟩

theorem witness_IncrementalStatePrivate : exec .getSecret base = .next (after .getSecret base) ∧
    Instr.getSecret ≠ .sipSetup ∧ Instr.getSecret ≠ .sipUpdate ∧ Instr.getSecret ≠ .sipFinalize :=
  ⟨exec_after (by decide +kernel), by decide, by decide, by decide⟩

theorem witness_CacheTransparency : CacheOk filled ∧ (7 : Byte) < 8 := ⟨cacheOk_filled.1, by decide⟩

theorem witness_GetSecretResult : CacheOk (withIndex 3 base) ∧ (withIndex 3 base).regs.pktIndex < 4 ∧
    CacheOk (withIndex 4 base) ∧ 4 ≤ (withIndex 4 base).regs.pktIndex ∧ (withIndex 7 base).regs.pktIndex < 8 ∧
    8 ≤ (withIndex 8 base).regs.pktIndex :=
  ⟨cacheOk_of_invalid (by decide) (by decide), by decide, cacheOk_of_invalid (by decide) (by decide), by decide, by decide,
    by decide⟩

theorem witness_GetCurrentSecretDelegates : CacheOk base := cacheOk_base

theorem witness_WindowDependsOnBucket : (7 : Byte) < 8 ∧ (1700000000 : U64).toNat / 4 = (1700000003 : U64).toNat / 4 := by
  decide

theorem witness_IssuedWindowLifetime :
    ((0xFFFFFFFFFFFFFFFB : U64).toNat < 2 ^ 64 - 4 ∨ 4 ≤ (0 : U64).toNat) ∧
    ((0xFFFFFFFFFFFFFFFC : U64).toNat < 2 ^ 64 - 4 ∨ 4 ≤ (4 : U64).toNat) := by decide

theorem witness_SlotWritesOnly :
    step (inFlight 0x10 0 base) = .next (stepped (inFlight 0x10 0 base)) ∧
    (stepped (inFlight 0x10 0 base)).cache.slot0 ≠ base.cache.slot0 ∧
    step (issue [.write 0x138 4 0] filled) = .next (stepped (issue [.write 0x138 4 0] filled)) ∧
    (stepped (issue [.write 0x138 4 0] filled)).cache.slot0 ≠ filled.cache.slot0 ∧
    step (issue [.reset] filled) = .next (stepped (issue [.reset] filled)) ∧
    (stepped (issue [.reset] filled)).cache.slot0 ≠ filled.cache.slot0 :=
  ⟨step_stepped (by decide +kernel), by decide +kernel, step_stepped (by decide +kernel), by decide +kernel,
    step_stepped (by decide +kernel), by decide +kernel⟩

theorem witness_ComputeCookieResult : base.regs.af = 4 ∧ (withFamily 6 base).regs.af = 6 ∧
    (withFamily 5 base).regs.af ≠ 4 ∧ (withFamily 5 base).regs.af ≠ 6 := by decide +kernel

theorem witness_ValidateReportsFirstFailure : CacheOk (withInLen 512 filled) ∧ (withInLen 512 filled).regs.inLen.toNat ≤ 512 :=
  ⟨cacheOk_filled.1, by decide +kernel⟩

theorem witness_ValidateLengthRange : 512 < (withInLen 513 base).regs.inLen.toNat := by decide +kernel

theorem witness_MatchImpliesWellFormedPacket :
    exec .validate (placePacket pgc base) = .next (after .validate (placePacket pgc base)) ∧
    (after .validate (placePacket pgc base)).status.matched = true :=
  ⟨exec_after (by decide +kernel), by decide +kernel⟩

/-- `PGP` in two states that differ in their caches, their SipHash states and their statuses. -/
def judged : State := placePacket pgp (withCfg 8 base)

/-- The other state. -/
def judged' : State :=
  { judged with cache := filled.cache, sip := hashing.sip, status := { judged.status with werr := true } }

theorem witness_VerdictStateless : CacheOk judged ∧ CacheOk judged' ∧
    judged'.regs = judged.regs ∧
    (∀ a, a < judged.regs.inLen.toNat → a < 512 → inByte judged' a = inByte judged a) ∧
    exec .validate judged = .next (after .validate judged) ∧
    exec .validate judged' = .next (after .validate judged') :=
  ⟨cacheOk_of_invalid (by decide +kernel) (by decide +kernel),
    ⟨fun _ => by decide +kernel, fun h => absurd h (by decide +kernel)⟩, rfl, fun _ _ _ => rfl,
    exec_after (by decide +kernel), exec_after (by decide +kernel)⟩

theorem witness_LengthOnlyCommandsAccepted :
    ¬ (minverEn base = true ∧ (0 : U32) < base.regs.minClientVersion) ∧ (List.replicate 20 (0 : Byte)).length = 20 ∧
    (List.replicate 244 (0 : Byte)).length = 244 ∧ (List.replicate 1 (0 : Byte)).length = 1 := by decide +kernel

theorem witness_GetCookieTimestampVerdict : (pgc.drop 18).length = 16 ∧
    ¬ (minverEn (withCfg 2 base) = true ∧ (0 : U32) < (withCfg 2 base).regs.minClientVersion) ∧
    utcEn (withCfg 4 base) = true ∧ utcEn base = false := by decide +kernel

theorem witness_GetPuzzleCookieVerdict : CacheOk filled ∧ (pgp.drop 18).length = 20 ∧
    ¬ (minverEn filled = true ∧ (0 : U32) < filled.regs.minClientVersion) ∧ cookieEn filled = false ∧
    cookieEn (withCfg 8 filled) = true ∧ 8 ≤ ((pgp.drop 18).set 8 8).getD 8 0 ∧ (pgp.drop 18).getD 8 0 < 8 ∧
    familySupported (withFamily 5 filled) = false ∧ familySupported filled = true :=
  ⟨cacheOk_filled.1, by decide +kernel⟩

theorem witness_LengthThenVersionRejects :
    (Instr.wireGetCookie 0 (pgc.drop 18), 16) ∈ [(Instr.wireGetCookie 0 (pgc.drop 18), 16),
      (.wireSetCookie 0 (pgc.drop 18), 20), (.wireGetPuzzle 0 (pgc.drop 18), 20), (.wireSetPuzzle 0 (pgc.drop 18), 244),
      (.wireResetPuzzle 0 (pgc.drop 18), 1)] ∧ (pgc.drop 18).length = 16 ∧ (pgc.drop 19).length ≠ 16 ∧
    minverEn (withCfg 2 { base with regs := { base.regs with minClientVersion := 1 } }) = true ∧
    (0 : U32) < (withCfg 2 { base with regs := { base.regs with minClientVersion := 1 } }).regs.minClientVersion := by
  decide +kernel

theorem witness_SizelessCommandsRejected :
    (Instr.wireSolvePuzzle 0 [] = .wireSolvePuzzle 0 [] ∨ Instr.wireSolvePuzzle 0 [] = .wireReset 0 []) ∧
    (Instr.wireReset 0 [] = .wireSolvePuzzle 0 [] ∨ Instr.wireReset 0 [] = .wireReset 0 []) := by decide

theorem witness_BuildSetCookieReply : CacheOk filled ∧ familySupported filled = true ∧
    zrs (withCfg 1 filled) = true ∧
    (26 ≤ (withInLen 26 filled).regs.inLen.toNat ∧ (withInLen 26 filled).regs.inLen.toNat ≤ 512) ∧
    (26 ≤ (withInLen 512 filled).regs.inLen.toNat ∧ (withInLen 512 filled).regs.inLen.toNat ≤ 512) :=
  ⟨cacheOk_filled.1, by decide +kernel⟩

theorem witness_BuildSetCookieErrors : familySupported (withFamily 5 base) = false ∧ familySupported base = true ∧
    zrs base = false ∧ 512 < (withInLen 513 base).regs.inLen.toNat ∧ (withInLen 25 base).regs.inLen.toNat < 26 := by
  decide +kernel

/-- A verifier with the same seed and identity, another cache and configuration, and `PGP` in its `IN_BUF`. -/
def verifier (n : U64) : State := atTime n (placePacket pgp (withCfg 8 filled))

theorem witness_CookieRoundTrip : CacheOk (withCfg 1 base) ∧ CacheOk (verifier 1700000000) ∧
    exec .buildSetCookie (withCfg 1 base) = .next (after .buildSetCookie (withCfg 1 base)) ∧
    (after .buildSetCookie (withCfg 1 base)).status.err = 0 ∧
    (verifier 1700000000).regs.masterSeed = base.regs.masterSeed ∧ (verifier 1700000000).regs.af = base.regs.af ∧
    (verifier 1700000000).regs.srcAddr = base.regs.srcAddr ∧ (verifier 1700000000).regs.dstAddr = base.regs.dstAddr ∧
    (verifier 1700000000).regs.srcPort = base.regs.srcPort ∧
    packetOperand (verifier 1700000000) = encodePacket ⟨.getPuzzle, 0x5F5E1000,
      outBytes (after .buildSetCookie (withCfg 1 base)) 14 9 ++ List.replicate 11 0⟩ ∧
    (List.replicate 11 (0 : Byte)).length = 11 ∧
    ¬ (minverEn (verifier 1700000000) = true ∧ (0x5F5E1000 : U32) < (verifier 1700000000).regs.minClientVersion) ∧
    base.regs.now.toNat / 4 * 4 ≤ (verifier 1700000000).regs.now.toNat ∧
    (verifier 1700000000).regs.now.toNat < base.regs.now.toNat / 4 * 4 + 8 ∧
    base.regs.now.toNat / 4 * 4 ≤ (verifier 1700000007).regs.now.toNat ∧
    (verifier 1700000007).regs.now.toNat < base.regs.now.toNat / 4 * 4 + 8 :=
  ⟨cacheOk_of_invalid (by decide) (by decide),
    ⟨fun _ => by decide +kernel, fun h => absurd h (by decide +kernel)⟩, exec_after (by decide +kernel), by decide +kernel⟩

theorem witness_ErrorsChangeOnlyStatus : exec .getSecret (withIndex 8 base) = .next (after .getSecret (withIndex 8 base)) ∧
    (after .getSecret (withIndex 8 base)).status.err ≠ 0 ∧
    exec .validate (withInLen 513 base) = .next (after .validate (withInLen 513 base)) ∧
    (after .validate (withInLen 513 base)).status.err ≠ 0 :=
  ⟨exec_after (by decide +kernel), by decide +kernel, exec_after (by decide +kernel), by decide +kernel⟩

/-- A state that satisfies every invariant, with a command in flight, a filled slot and host accesses issued. -/
def busyState : State := issue [.read 0x004 4, .write 0x018 4 5] (inFlight 0x10 2 (withIndex 7 filled))

theorem witness_StepKeepsInvariant : Inv busyState ∧ step busyState = .next (stepped busyState) :=
  ⟨{ status := by unfold StatusOk; decide +kernel
     results := by unfold ResultsOk; decide +kernel
     memory := by unfold MemoryOk; decide +kernel
     sip := by unfold SipOk; decide +kernel
     cache := ⟨fun _ => by decide +kernel, fun h => absurd h (by decide +kernel)⟩ },
    step_stepped (by decide +kernel)⟩

theorem witness_ProgressOnWordAccesses : PendingOk busyState := by unfold PendingOk; decide +kernel

theorem witness_CommandsAreAtomic : busyState.status.busy = true ∧ decodeCommand busyState.cmd = .ok .getSecret ∧
    PendingOk busyState ∧ .reset ∉ busyState.env.pending ∧ (inFlight 0x110 2 base).status.busy = true ∧
    PendingOk (inFlight 0x110 2 base) ∧ .reset ∉ (inFlight 0x110 2 base).env.pending ∧
    decodeCommand (inFlight 0x110 2 base).cmd = .error .reservedBits := by unfold PendingOk; decide +kernel

theorem witness_ResetInputEffect : completesNow (issue [.reset] (inFlight 0x10 1 base)) = false ∧
    (issue [.reset] (inFlight 0x10 1 base)).env.pending = [.reset] ∧ completesNow (issue [.reset] base) = false := by
  decide +kernel

theorem witness_SecretsUnreadable : ({ hashing.sip with v := ⟨1, 2, 3, 4⟩ } : Sip).active = hashing.sip.active := by
  decide +kernel

theorem witness_InstancesIndependent :
    0 ≠ 1 ∧ stepNode 1 [⟨0, filled⟩, ⟨1, base⟩] = .next [⟨0, filled⟩, ⟨1, base⟩] := by
  refine ⟨by decide, ?_⟩
  simp [stepNode, show step base = .next base from eq_next (by decide +kernel)]

theorem witness_InstancesAgree : CacheOk (withCfg 1 base) ∧ CacheOk (withCfg 1 filled) ∧
    { (withCfg 1 filled).regs with pktIndex := 0 } = (withCfg 1 base).regs ∧
    exec .buildSetCookie (withCfg 1 base) = .next (after .buildSetCookie (withCfg 1 base)) ∧
    exec .buildSetCookie (withCfg 1 filled) = .next (after .buildSetCookie (withCfg 1 filled)) ∧
    (after .buildSetCookie (withCfg 1 base)).status.err = 0 ∧
    (after .buildSetCookie (withCfg 1 filled)).status.err = 0 :=
  ⟨cacheOk_of_invalid (by decide) (by decide), cacheOk_filled.1, by decide +kernel, exec_after (by decide +kernel),
    exec_after (by decide +kernel), by decide +kernel⟩

end Sys2Proof.Tests
end

namespace Sys2Proof

/-! ## The register table (10_state R21) -/

/-- Every entry of the table of single registers stands at its register's offset. -/
theorem scalarRegs_offset : ∀ e ∈ scalarRegs, e.1 = e.2.offset := by decide

/-- Each branch of the map answers from the table of single registers, or the element of a register array. -/
theorem regAt_eq_some {off : Nat} {r : Reg} (h : regAt off = some r) : off = r.offset := by
  unfold regAt at h
  split_ifs at h <;>
    first
    | exact scalarRegs_offset _ (mem_of_lookup h)
    | (obtain rfl := Option.some.inj h; simp only [Reg.offset]; omega)

@[simp] theorem regAt_offset (r : Reg) : regAt r.offset = some r := by
  cases r with
  | srcAddr i | dstAddr i | masterSeed i | inBuf i | outBuf i => revert i; decide
  | _ => rfl

theorem Reg.offset_aligned (r : Reg) : r.offset % 4 = 0 := by
  cases r <;> simp only [Reg.offset] <;> omega

theorem Reg.offset_lt (r : Reg) : r.offset < 0x1000 := by
  cases r <;> simp only [Reg.offset] <;> omega

end Sys2Proof

namespace Sys2Proof.Machine

@[simp] theorem readOffset_offset (r : Reg) (s : State) : readOffset r.offset s = readReg r s := by
  simp [readOffset]

/-- Settles O4: `regAt` inverts `Reg.offset`. -/
theorem registerOffsetsExact : Obligations.RegisterOffsetsExact :=
  fun _ _ => ⟨regAt_eq_some, fun h => h ▸ regAt_offset _⟩

/-! ## Words and their bytes (20_memory R64) -/

@[simp] theorem hiWord_append_loWord (v : U64) : hiWord v ++ loWord v = v := by
  rw [hiWord, loWord, BitVec.extractLsb'_append_extractLsb'_eq_extractLsb' (by rfl)]
  exact BitVec.extractLsb'_eq_self

@[simp] theorem hiWord_append (a b : U32) : hiWord (a ++ b) = a := by
  rw [hiWord, BitVec.extractLsb'_append_eq_of_le (Nat.le_refl 32)]
  exact BitVec.extractLsb'_eq_self

@[simp] theorem loWord_append (a b : U32) : loWord (a ++ b) = b := by
  rw [loWord, BitVec.extractLsb'_append_eq_of_add_le (Nat.le_refl 32)]
  exact BitVec.extractLsb'_eq_self

/-- Lane `j` of a word put together from bytes is byte `j`. -/
theorem byteOf_wordOfBytes (b : Nat → Byte) {j : Nat} (hj : j < 4) :
    byteOf (wordOfBytes (b 0) (b 1) (b 2) (b 3)) j = b j := by
  interval_cases j <;>
    simp (disch := decide) only [byteOf, wordOfBytes, BitVec.extractLsb'_append_eq_of_le,
      BitVec.extractLsb'_append_eq_of_add_le] <;>
    exact BitVec.extractLsb'_eq_self

/-- A word is put together from its own bytes. -/
theorem wordOfBytes_byteOf (v : U32) : wordOfBytes (byteOf v 0) (byteOf v 1) (byteOf v 2) (byteOf v 3) = v := by
  simp only [wordOfBytes, byteOf]
  rw [BitVec.extractLsb'_append_extractLsb'_eq_extractLsb' (by rfl),
    BitVec.extractLsb'_append_extractLsb'_eq_extractLsb' (by rfl),
    BitVec.extractLsb'_append_extractLsb'_eq_extractLsb' (by rfl)]
  exact BitVec.extractLsb'_eq_self

/-- Byte `j` of the little-endian bytes of a list of words. -/
theorem getElem?_flatMap_le32bytes (l : List U32) (j : Nat) :
    (l.flatMap le32bytes)[j]? = l[j / 4]?.map (byteOf · (j % 4)) := by
  induction l generalizing j with
  | nil => simp
  | cons w ws ih =>
    rw [List.flatMap_cons, List.getElem?_append, le32bytes_length]
    split
    · next hj =>
      rw [Nat.div_eq_of_lt hj, Nat.mod_eq_of_lt hj]
      interval_cases j <;> rfl
    · next hj =>
      rw [ih, show j / 4 = (j - 4) / 4 + 1 by omega, show (j - 4) % 4 = j % 4 by omega,
        List.getElem?_cons_succ]

/-- Byte `j` of an array of registers is lane `j mod 4` of register `j div 4` (R28, R29, R64). -/
theorem registerBytes_getElem? {n : Nat} (ws : Vector U32 n) (j : Nat) :
    (registerBytes ws)[j]? = ws[j / 4]?.map (byteOf · (j % 4)) := by
  rw [registerBytes, getElem?_flatMap_le32bytes, Vector.getElem?_toList]

/-- The lanes of one register of an array. -/
theorem registerBytes_lane {n : Nat} (ws : Vector U32 n) (i : Fin n) {j : Nat} (hj : j < 4) :
    (registerBytes ws)[4 * i.val + j]? = some (byteOf ws[i] j) := by
  rw [registerBytes_getElem?, show (4 * i.val + j) / 4 = i.val by omega, show (4 * i.val + j) % 4 = j by omega]
  simp

/-! ## `STATUS` (R22) -/

theorem statusWord_err (s : State) : (statusWord s).extractLsb' 16 8 = s.status.err := by
  simp (disch := decide) only [statusWord, BitVec.extractLsb'_append_eq_of_le, BitVec.extractLsb'_append_eq_of_add_le]
  exact BitVec.extractLsb'_eq_self

theorem statusWord_reason (s : State) : (statusWord s).extractLsb' 24 8 = s.status.reason := by
  simp (disch := decide) only [statusWord, BitVec.extractLsb'_append_eq_of_le]
  exact BitVec.extractLsb'_eq_self

/-- The reserved bits of `STATUS` read 0. -/
theorem statusWord_reserved (s : State) :
    (statusWord s).extractLsb' 4 4 = 0 ∧ (statusWord s).extractLsb' 9 7 = 0 := by
  constructor <;>
    simp (disch := decide) only [statusWord, BitVec.extractLsb'_append_eq_of_le,
      BitVec.extractLsb'_append_eq_of_add_le] <;>
    exact BitVec.extractLsb'_eq_self

/-- The single bits of `STATUS`. -/
theorem statusWord_bits (s : State) :
    (statusWord s).getLsbD 0 = s.status.busy ∧ (statusWord s).getLsbD 1 = s.status.done ∧
    (statusWord s).getLsbD 2 = s.status.matched ∧ (statusWord s).getLsbD 3 = s.sip.active ∧
    (statusWord s).getLsbD 8 = s.status.werr := by
  refine ⟨?_, ?_, ?_, ?_, ?_⟩ <;>
    simp only [statusWord, BitVec.getLsbD_append, BitVec.getLsbD_ofBool, Nat.lt_irrefl, Nat.reduceLT, Nat.reduceSub,
      Nat.reduceEqDiff, decide_true, Bool.true_and, reduceIte]

/-- While a command is in flight the low three bits are `BUSY` alone. -/
theorem statusWord_low_of_busy {s : State} (h : StatusOk s.status) (hb : s.status.busy = true) :
    (statusWord s).extractLsb' 0 3 = 0b001 := by
  obtain ⟨hdone, hmatched, -⟩ := h.1 hb
  simp only [statusWord, BitVec.extractLsb'_append_eq_ite, hb, hdone, hmatched]
  simp

/-- Settles O19, from the fields of the word. -/
theorem statusWordLayout : Obligations.StatusWordLayout := by
  intro s
  obtain ⟨hbusy, hdone, hmatched, hactive, hwerr⟩ := statusWord_bits s
  obtain ⟨hlow, hhigh⟩ := statusWord_reserved s
  refine ⟨hbusy, hdone, hmatched, hactive, hlow, hwerr, hhigh, statusWord_err s, statusWord_reason s, fun h hb => ?_⟩
  obtain ⟨-, -, herr⟩ := h.1 hb
  exact ⟨statusWord_low_of_busy h hb, (statusWord_err s).trans herr⟩

end Sys2Proof.Machine

namespace Sys2Proof.Machine

/-! ## What a step can be -/

/-- The forms of a step that goes on, each with its cause: a completion, a turn in which at most a read is performed, a
host write, or the reset input. -/
inductive StepEffect (s : State) : State → Prop
  | executes (i : Instr) (t : State) : completesNow s = true → exec i s = .next t → StepEffect s t
  | illegal : completesNow s = true → StepEffect s (completeIllegal s)
  | quiet (e : Env) : completesNow s = false → StepEffect s { s with env := e }
  | writes (e : Env) (off : Nat) (v : U32) : completesNow s = false →
      s.env.pending.head? = some (.write off 4 v) → StepEffect s (writeOffset off v { s with env := e })
  | resets (e : Env) : TakesReset s → StepEffect s (resetInput { s with env := e })

theorem stepEffect_of_hostTurn {s t : State} (hc : completesNow s = false) (h : hostTurn s = .next t) :
    StepEffect s t := by
  obtain ⟨w, -, -, ⟨-, rfl⟩ | ⟨a, rest, hp, h⟩⟩ := hostTurn_cases h
  · exact .quiet _ hc
  · rcases perform_cases h with ⟨off, -, -, rfl, rfl⟩ | ⟨off, v, -, -, rfl, rfl⟩ | ⟨rfl, rfl⟩
    · exact .quiet _ hc
    · exact .writes _ off v hc (by rw [hp]; rfl)
    · exact .resets _ ⟨hc, by rw [hp]; rfl⟩

theorem stepEffect_of_step {s t : State} (h : step s = .next t) : StepEffect s t := by
  rcases step_cases h with ⟨hc, i, -, he⟩ | ⟨hc, -, rfl⟩ | ⟨hc, hh⟩
  · exact .executes i t hc he
  · exact .illegal hc
  · exact stepEffect_of_hostTurn hc hh

/-- What an instruction did, from its next state. -/
theorem execEffect_of_exec {i : Instr} {s t : State} (h : exec i s = .next t) : ExecEffect s i t := by
  obtain ⟨u, hu, he⟩ := exec_cases i s
  obtain rfl : u = t := by simpa [h] using hu.symm
  exact he

theorem busy_of_completesNow {s : State} (h : completesNow s = true) : s.status.busy = true := by
  simp only [completesNow, Bool.and_eq_true] at h
  exact h.1

/-! ## Host accesses of a register -/

/-- A register reads the same whatever the model's own fields are, as long as the free values of its unwritten
buffer bytes are the same draws (log 4). -/
theorem readReg_withEnv (r : Reg) {s : State} {e : Env} (hu : e.unit = s.env.unit) (he : e.epoch = s.env.epoch) :
    readReg r { s with env := e } = readReg r s := by
  have hbyte (a : Nat) : bufByte { s with env := e } a = bufByte s a :=
    bufByte_congr (s := s) (t := { s with env := e }) rfl hu he a
  cases r with
  | inBuf i | outBuf i => simp only [readReg, bufWord, hbyte]
  | _ => rfl

/-- The state from which the oldest access is performed while idle: that access is no longer pending. -/
def takePending (rest : List HostAccess) (s : State) : State := { s with env := { s.env with pending := rest } }

@[simp] theorem readReg_takePending (r : Reg) (rest : List HostAccess) (s : State) :
    readReg r (takePending rest s) = readReg r s := readReg_withEnv r rfl rfl

theorem perform_read_reg (r : Reg) (s : State) : perform (.read r.offset 4) s = .next (observe (readReg r s) s) := by
  rw [perform_read_word r.offset_aligned r.offset_lt, readOffset_offset]

theorem perform_write_reg (r : Reg) (v : U32) (s : State) :
    perform (.write r.offset 4 v) s =
      .next (if s.status.busy then writeRegBusy r v s else writeRegIdle r v s) := by
  rw [perform_write_word r.offset_aligned r.offset_lt, writeOffset, regAt_offset]

/-- A register write takes effect in one step while the engine is idle (R68). -/
theorem step_write_reg_idle {s : State} {r : Reg} {v : U32} {rest : List HostAccess} (hb : s.status.busy = false)
    (hp : s.env.pending = .write r.offset 4 v :: rest) :
    step s = .next (writeRegIdle r v (takePending rest s)) := by
  rw [step_idle hb hp, perform_write_reg, if_neg (by simp [hb])]
  rfl

/-- A register write while a command is in flight, which also takes one step of its time (R73). -/
theorem step_write_reg_busy {s : State} {r : Reg} {v : U32} {rest : List HostAccess} (hb : s.status.busy = true)
    (hw : s.env.wait ≠ 0) (hp : s.env.pending = .write r.offset 4 v :: rest) :
    step s = .next (writeRegBusy r v { s with env := { s.env with pending := rest, wait := s.env.wait - 1 } }) := by
  rw [step_busy hb hw hp, perform_write_reg, if_pos hb]

theorem writeStatusClr_eq (v : U32) (s : State) :
    writeStatusClr v s = { s with status := { s.status with werr := if v.getLsbD 8 then false else s.status.werr } } := by
  unfold writeStatusClr
  split <;> rfl

/-- Settles O11: the access is `writeStatusClr` in both modes. -/
theorem statusClrClearsWerr : Obligations.StatusClrClearsWerr := by
  intro s v rest
  refine ⟨rfl, fun hp => ⟨fun hb => ?_, fun hb hw => ?_⟩⟩
  · rw [step_write_reg_idle (r := .statusClr) hb hp, writeRegIdle, writeStatusClr_eq]
    rfl
  · rw [step_write_reg_busy (r := .statusClr) hb hw hp, writeRegBusy, writeStatusClr_eq]

/-- Settles O57: the host's turn performs the reset input, idle or busy. -/
theorem resetInputEffect : Obligations.ResetInputEffect := by
  intro s rest hc hp
  cases hb : s.status.busy with
  | false => exact ⟨_, step_idle hb hp, rfl, rfl, rfl, rfl, rfl, rfl⟩
  | true =>
    have hw : s.env.wait ≠ 0 := by simpa [completesNow, hb] using hc
    exact ⟨_, step_busy hb hw hp, rfl, rfl, rfl, rfl, rfl, rfl⟩

/-- No register shows the seed, a slot, or a SipHash word but `SIP_ACTIVE` (R29, R43, R50). -/
theorem readReg_hides_secrets (r : Reg) (s : State) (seed : Vector U32 15) (sl0 sl1 : Slot) {x : Sip}
    (hx : x.active = s.sip.active) :
    readReg r { s with
      regs := { s.regs with masterSeed := seed }
      cache := { s.cache with slot0 := sl0, slot1 := sl1 }
      sip := x } = readReg r s := by
  cases r with
  | status => simp only [readReg, statusWord, hx]
  | _ => rfl

/-- Settles O58, register by register. -/
theorem secretsUnreadable : Obligations.SecretsUnreadable := by
  intro s seed sl0 sl1 x off hx
  unfold readOffset
  cases regAt off with
  | none => rfl
  | some r => exact readReg_hides_secrets r s seed sl0 sl1 hx

/-! ## `WERR` (R342) -/

/-- An idle write of a register other than `STATUS_CLR` leaves `WERR`. -/
theorem writeRegIdle_werr {r : Reg} (hr : r ≠ .statusClr) (v : U32) (s : State) :
    (writeRegIdle r v s).status.werr = s.status.werr := by
  cases r with
  | statusClr => exact absurd rfl hr
  | _ => rfl

/-- Only a write of `STATUS_CLR` with bit 8 set takes `WERR` away. -/
theorem werr_cleared_by_write {off : Nat} {v : U32} {s : State} (hs : s.status.werr = true)
    (ht : (writeOffset off v s).status.werr = false) : off = 0x008 ∧ v.getLsbD 8 = true := by
  have hclr (h : (writeStatusClr v s).status.werr = false) : v.getLsbD 8 = true := by
    simpa [writeStatusClr_eq, hs] using h
  rcases writeOffset_cases off v s with ⟨-, e⟩ | ⟨r, hr, ⟨-, e⟩ | ⟨-, rfl, e⟩ | ⟨-, -, e⟩⟩ <;> rw [e] at ht
  · simp [hs] at ht
  · by_cases hclrReg : r = .statusClr
    · subst hclrReg
      exact ⟨regAt_eq_some hr, hclr ht⟩
    · simp [writeRegIdle_werr hclrReg, hs] at ht
  · exact ⟨regAt_eq_some hr, hclr ht⟩
  · simp at ht

/-- No instruction changes `WERR`. -/
theorem exec_werr {i : Instr} {s t : State} (h : exec i s = .next t) : t.status.werr = s.status.werr := by
  cases execEffect_of_exec h with
  | packet _ _ hv => obtain ⟨m, r, c, -, -, -, rfl⟩ := hv; rfl
  | _ => rfl

/-- Settles O12, by the forms of a step: only a host write and the reset input can take `WERR` away. -/
theorem werrSticky : Obligations.WerrSticky := by
  intro s t h hs ht
  cases stepEffect_of_step h with
  | executes i _ _ he => simp [exec_werr he, hs] at ht
  | illegal _ => simp [hs] at ht
  | quiet e _ => simp [hs] at ht
  | writes e off v hc hp =>
    obtain ⟨rfl, hv⟩ := werr_cleared_by_write (s := { s with env := e }) hs ht
    exact ⟨hc, .inl ⟨v, hp, hv⟩⟩
  | resets e hr => exact ⟨hr.1, .inr hr.2⟩

end Sys2Proof.Machine

namespace Sys2Proof.Machine

/-! ## What a step does to the seed cache -/

/-- An instruction leaves the cache, or leaves it as one lookup does. -/
theorem exec_cache {i : Instr} {s t : State} (h : exec i s = .next t) :
    t.cache = s.cache ∨ ∃ p, p < 8 ∧ t.cache = lookupCache s.regs.now p s := by
  cases execEffect_of_exec h with
  | packet _ _ hv => obtain ⟨m, r, c, -, -, hc, rfl⟩ := hv; exact hc
  | key _ k p hp => exact .inr ⟨p, hp, rfl⟩
  | cookieReply c p B hp _ => exact .inr ⟨p, hp, rfl⟩
  | _ => exact .inl rfl

/-- An idle write of a register other than `MASTER_SEED` leaves the cache. -/
theorem writeRegIdle_cache {r : Reg} (hr : ∀ i, r ≠ .masterSeed i) (v : U32) (s : State) :
    (writeRegIdle r v s).cache = s.cache := by
  cases r with
  | masterSeed i => exact absurd rfl (hr i)
  | statusClr => simp [writeRegIdle, writeStatusClr_eq]
  | _ => rfl

/-- A host write leaves the cache, or is a write of the seed while idle, which makes both slots invalid (R42). -/
theorem writeOffset_cache (off : Nat) (v : U32) (s : State) :
    (writeOffset off v s).cache = s.cache ∨
    (s.status.busy = false ∧ (∃ i, off = (Reg.masterSeed i).offset) ∧
      (writeOffset off v s).cache = invalidateSlots s.cache) := by
  rcases writeOffset_cases off v s with ⟨-, e⟩ | ⟨r, hr, ⟨hb, e⟩ | ⟨-, rfl, e⟩ | ⟨-, -, e⟩⟩ <;> rw [e]
  · exact .inl rfl
  · by_cases hseed : ∃ i, r = .masterSeed i
    · obtain ⟨i, rfl⟩ := hseed
      exact .inr ⟨hb, ⟨i, regAt_eq_some hr⟩, rfl⟩
    · exact .inl (writeRegIdle_cache (fun i hi => hseed ⟨i, hi⟩) v s)
  · exact .inl (by rw [writeStatusClr_eq])
  · exact .inl rfl

/-- Either slot after a lookup: as before, or filled with a window and its digest (R174). -/
theorem slot_lookupCache {slot : Cache → Slot} (hslot : slot = Cache.slot0 ∨ slot = Cache.slot1) (now : U64) (p : Byte)
    (s : State) : slot (lookupCache now p s) = slot s.cache ∨
      ∃ w, slot (lookupCache now p s) = ⟨true, w, derivedSecret (masterSeedBytes s) w⟩ := by
  rcases hslot with rfl | rfl
  · rcases lookupCache_slot0 now p s with h | ⟨-, h⟩
    · exact .inl h
    · exact .inr ⟨_, h⟩
  · rcases lookupCache_slot1 now p s with h | ⟨-, h⟩
    · exact .inl h
    · exact .inr ⟨_, h⟩

/-- Settles O33, by the forms of a step. -/
theorem slotWritesOnly : Obligations.SlotWritesOnly := by
  intro s t slot hslot h
  have hinvalid (c : Cache) (hc : c.slot0.valid = false ∧ c.slot1.valid = false) : (slot c).valid = false := by
    rcases hslot with rfl | rfl
    · exact hc.1
    · exact hc.2
  cases stepEffect_of_step h with
  | executes i _ hc he =>
    rcases exec_cache he with e | ⟨p, -, e⟩ <;> rw [e]
    · exact .inl rfl
    · rcases slot_lookupCache hslot s.regs.now p s with e | ⟨w, e⟩
      · exact .inl e
      · exact .inr (.inl ⟨w, e, hc⟩)
  | illegal _ => exact .inl rfl
  | quiet e _ => exact .inl rfl
  | writes e off v hc hp =>
    rcases writeOffset_cache off v { s with env := e } with ec | ⟨hb, ⟨i, rfl⟩, ec⟩ <;> rw [ec]
    · exact .inl rfl
    · exact .inr (.inr (.inl ⟨hinvalid _ ⟨rfl, rfl⟩, hb, i, v, hp⟩))
  | resets e hr => exact .inr (.inr (.inr ⟨hinvalid _ ⟨rfl, rfl⟩, hr⟩))

/-! ## The key a lookup finds -/

/-- The window of an index below 8 is of the serving slot's parity (R179). -/
theorem packetCacheTime_parity (now : U64) {p : Byte} (hp : p < 8) :
    (packetCacheTime now p).toNat / 4 % 2 = p.toNat / 4 := by
  have hp' : p.toNat < 8 := hp
  have := now.isLt
  rw [packetCacheTime_toNat now hp']
  split <;> omega

/-- A lookup keeps the cache invariant (R41, R179). -/
theorem cacheOk_lookupCache {s : State} (h : CacheOk s) (now : U64) {p : Byte} (hp : p < 8) :
    CacheOk { s with cache := lookupCache now p s } := by
  have hpar := packetCacheTime_parity now hp
  have hp' : p.toNat < 8 := hp
  constructor
  · rcases lookupCache_slot0 now p s with e | ⟨hlt, e⟩
    · exact e ▸ h.1
    · have hlt' : p.toNat < 4 := hlt
      intro _
      simp only [e]
      exact ⟨rfl, by omega⟩
  · rcases lookupCache_slot1 now p s with e | ⟨hge, e⟩
    · exact e ▸ h.2
    · have hge' : ¬ p.toNat < 4 := hge
      intro _
      simp only [e]
      exact ⟨rfl, by omega⟩

theorem slotHits_iff (sl : Slot) (t : U64) : slotHits sl t = true ↔ sl.valid = true ∧ sl.tag = t := by
  simp [slotHits]

/-- The serving slot after a lookup holds the index's window and the digest of the seed and that window, hit or miss
(R173, R174, R177). -/
theorem slotOf_lookupCache_eq {s : State} (h : CacheOk s) (now : U64) (p : Byte) :
    slotOf (lookupCache now p s) p =
      ⟨true, packetCacheTime now p, derivedSecret (masterSeedBytes s) (packetCacheTime now p)⟩ := by
  have hok : ∃ i, SlotOk (masterSeedBytes s) i (slotOf s.cache p) := by
    unfold slotOf
    split
    · exact ⟨0, h.1⟩
    · exact ⟨1, h.2⟩
  obtain ⟨i, hok⟩ := hok
  rcases slotOf_lookupCache now p s with ⟨hhit, e⟩ | ⟨-, e⟩
  · obtain ⟨hv, ht⟩ := (slotHits_iff _ _).1 hhit
    obtain ⟨hd, -⟩ := hok hv
    rw [e, ← ht, ← hd, ← hv]
  · exact e

/-- The key of a lookup is the key of the index's window (R177). -/
theorem key_lookupCache {s : State} (h : CacheOk s) (now : U64) (p : Byte) :
    keyOf (slotOf (lookupCache now p s) p).digest (p.toNat % 4) = windowKey s now p := by
  rw [slotOf_lookupCache_eq h]
  rfl

/-- A lookup counts exactly the misses (R173, R174). -/
theorem refreshCount_lookupCache (now : U64) (p : Byte) (s : State) :
    (lookupCache now p s).refreshCount =
      if (slotOf s.cache p).valid = true ∧ (slotOf s.cache p).tag = packetCacheTime now p
        then s.cache.refreshCount else s.cache.refreshCount + 1 := by
  simp only [← slotHits_iff, lookupCache]
  split <;> rfl

theorem lookupCache_other_slot (now : U64) (p : Byte) (s : State) :
    (p < 4 → (lookupCache now p s).slot1 = s.cache.slot1) ∧ (¬ p < 4 → (lookupCache now p s).slot0 = s.cache.slot0) := by
  constructor <;> intro hp
  · rcases lookupCache_slot1 now p s with e | ⟨hn, -⟩
    · exact e
    · exact absurd hp hn
  · rcases lookupCache_slot0 now p s with e | ⟨hn, -⟩
    · exact e
    · exact absurd hn hp

theorem slotOf_low {p : Byte} (hp : p < 4) (c : Cache) : slotOf c p = c.slot0 := if_pos hp

theorem slotOf_high {p : Byte} (hp : ¬ p < 4) (c : Cache) : slotOf c p = c.slot1 := if_neg hp

theorem exec_getSecret_of_lt {s : State} (hp : s.regs.pktIndex < 8) :
    exec .getSecret s = .next (complete (writeKeyResult
      (keyOf (slotOf (lookupCache s.regs.now s.regs.pktIndex s) s.regs.pktIndex).digest (s.regs.pktIndex.toNat % 4))
      s.regs.pktIndex { s with cache := lookupCache s.regs.now s.regs.pktIndex s })) := by
  rcases getSecret_cases s.regs.now s.regs.pktIndex s with ⟨h8, -⟩ | ⟨-, e⟩
  · exact absurd h8 (BitVec.not_le.2 hp)
  · simp only [exec, execGetSecret, e]

theorem exec_getSecret_of_ge {s : State} (hp : 8 ≤ s.regs.pktIndex) :
    exec .getSecret s = .next (raise .badIndex s) := by
  rcases getSecret_cases s.regs.now s.regs.pktIndex s with ⟨-, e⟩ | ⟨h8, -⟩
  · simp only [exec, execGetSecret, e]
  · exact absurd hp (BitVec.not_le.2 h8)

/-- Settles O29, from what a lookup leaves in the cache. -/
theorem getSecretResult : Obligations.GetSecretResult := by
  intro s
  refine ⟨fun hok hp => ⟨lookupCache s.regs.now s.regs.pktIndex s, ?_, fun hlo => ?_, fun hhi => ?_⟩, fun hp => ?_⟩
  · rw [exec_getSecret_of_lt hp, key_lookupCache hok]
    rfl
  · have hslot := slotOf_lookupCache_eq hok s.regs.now s.regs.pktIndex
    have hcount := refreshCount_lookupCache s.regs.now s.regs.pktIndex s
    rw [slotOf_low hlo] at hslot hcount
    rw [hslot]
    exact ⟨(lookupCache_other_slot ..).1 hlo, rfl, rfl, hcount⟩
  · have hhi := BitVec.not_lt.2 hhi
    have hslot := slotOf_lookupCache_eq hok s.regs.now s.regs.pktIndex
    have hcount := refreshCount_lookupCache s.regs.now s.regs.pktIndex s
    rw [slotOf_high hhi] at hslot hcount
    rw [hslot]
    exact ⟨(lookupCache_other_slot ..).2 hhi, rfl, rfl, hcount⟩
  · exact exec_getSecret_of_ge hp

end Sys2Proof.Machine

namespace Sys2Proof.Machine

/-! ## The SipHash invariant (R51) -/

theorem sipOk_start (k : SipKey) : SipOk (sipStart k) := ⟨rfl, by simp [sipStart]⟩

/-- A tail below `n` bytes with one more byte set at place `n` is below `n + 1` bytes. -/
theorem tail_or_byte_lt {tail : U64} {n : Nat} (h : tail.toNat < 2 ^ (8 * n)) (x : Byte) :
    (tail ||| (x.setWidth 64 <<< (8 * n))).toNat < 2 ^ (8 * (n + 1)) := by
  have hx : ((x.setWidth 64 : U64) <<< (8 * n)).toNat < 2 ^ (8 * (n + 1)) := by
    have hpow : 2 ^ (8 * (n + 1)) = 2 ^ 8 * 2 ^ (8 * n) := by rw [← Nat.pow_add]; congr 1; omega
    rw [BitVec.toNat_shiftLeft, Nat.shiftLeft_eq, BitVec.toNat_setWidth_of_le (by decide), hpow]
    exact Nat.lt_of_le_of_lt (Nat.mod_le _ _) (Nat.mul_lt_mul_of_pos_right x.isLt (Nat.two_pow_pos _))
  rw [BitVec.toNat_or]
  exact Nat.or_lt_two_pow (Nat.lt_of_lt_of_le h (Nat.pow_le_pow_right (by decide) (by omega))) hx

theorem sipOk_absorbByte {st : Sip} (h : SipOk st) (x : Byte) : SipOk (sipAbsorbByte st x) := by
  obtain ⟨hcount, htail⟩ := h
  have hn := st.ntail.isLt
  have hcountSucc : (st.count + 1).toNat % 8 = (st.count.toNat + 1) % 8 := by
    rw [BitVec.toNat_add, show (1 : U64).toNat = 1 from rfl]
    omega
  unfold sipAbsorbByte
  simp only
  split
  · next hfull =>
    refine ⟨?_, by simp⟩
    simp only [hcountSucc, show (0 : BitVec 3).toNat = 0 from rfl]
    omega
  · next hpart =>
    have hntail : (st.ntail + 1).toNat = st.ntail.toNat + 1 := by
      rw [BitVec.toNat_add, show (1 : BitVec 3).toNat = 1 from rfl]
      omega
    refine ⟨?_, ?_⟩
    · simp only [hntail, hcountSucc]
      omega
    · simp only [hntail]
      exact tail_or_byte_lt htail x

theorem sipOk_absorb {st : Sip} (h : SipOk st) (B : List Byte) : SipOk (sipAbsorb st B) := by
  induction B generalizing st with
  | nil => exact h
  | cons x B ih => exact ih (sipOk_absorbByte h x)

/-! ## The other parts of the invariant -/

/-- A byte string stored inside the buffers keeps the memory invariant. -/
theorem memoryOk_writeBytes {m : Memory} (h : MemoryOk m) {a : Nat} {B : List Byte} (hlo : 0x200 ≤ a)
    (hhi : a + B.length ≤ 0x500) : MemoryOk (m.writeBytes a B) := by
  refine ⟨Memory.writeBytes_wf h.1 a B, fun c hc => ?_⟩
  rcases Memory.mem_writeBytes hc with ⟨h1, h2⟩ | hc
  · omega
  · exact h.2 c hc

theorem memoryOk_outBuf {m : Memory} (h : MemoryOk m) {B : List Byte} (hB : B.length ≤ 256) :
    MemoryOk (m.writeBytes Config.outBufBase B) :=
  memoryOk_writeBytes h (by decide) (Nat.add_le_add_left hB 0x400)

theorem resultsOk_reply {r : Results} (h : ResultsOk r) {B : List Byte} (hB : B.length ≤ 256) :
    ResultsOk { r with outLen := BitVec.ofNat 16 B.length } := by
  refine ⟨h.1, ?_⟩
  rw [BitVec.le_def, BitVec.toNat_ofNat]
  exact Nat.le_trans (Nat.mod_le _ _) hB

/-- A command in flight that completes with an error code of the table leaves a good status (R300, R301). -/
theorem statusOk_completed {st : Status} (h : StatusOk st) (hb : st.busy = true) {code : Byte} (hc : code ≤ 0x06) :
    StatusOk { st with busy := false, done := true, err := code } := by
  obtain ⟨hbusy, -, -, hreason⟩ := h
  obtain ⟨-, hm, -⟩ := hbusy hb
  exact ⟨by simp, by simp [hm], hc, hreason⟩

theorem statusOk_accepted {st : Status} (h : StatusOk st) :
    StatusOk { st with busy := true, done := false, matched := false, err := 0 } :=
  ⟨fun _ => ⟨rfl, rfl, rfl⟩, by simp, by simp, h.2.2.2⟩

/-- Slots that are not valid satisfy the cache invariant for every seed. -/
theorem cacheOk_invalid {s : State} (h0 : s.cache.slot0.valid = false) (h1 : s.cache.slot1.valid = false) :
    CacheOk s := ⟨fun h => by simp [h0] at h, fun h => by simp [h1] at h⟩

/-! ## Every step keeps the invariant -/

/-- The model's own fields are no part of the invariant. -/
theorem inv_withEnv {s : State} (h : Inv s) (e : Env) : Inv { s with env := e } :=
  ⟨h.status, h.results, h.memory, h.sip, h.cache⟩

/-- A cache that is the old one or what a lookup left keeps the cache invariant. -/
theorem cacheOk_verdict {s : State} (h : CacheOk s) {c : Cache}
    (hc : c = s.cache ∨ ∃ p, p < 8 ∧ c = lookupCache s.regs.now p s) : CacheOk { s with cache := c } := by
  rcases hc with rfl | ⟨p, hp, rfl⟩
  · exact h
  · exact cacheOk_lookupCache h _ hp

theorem inv_verdict {s t : State} (h : Inv s) (hv : VerdictEffect s t) : Inv t := by
  obtain ⟨m, r, c, hr, hm, hc, rfl⟩ := hv
  exact ⟨⟨by simp, fun hmt => ⟨rfl, hm hmt⟩, by simp, hr⟩, h.results, h.memory, h.sip, cacheOk_verdict h.cache hc⟩

/-- The completion of a command in flight keeps the invariant. -/
theorem inv_exec {i : Instr} {s t : State} (h : Inv s) (hb : s.status.busy = true) (he : exec i s = .next t) :
    Inv t := by
  have hstatus := statusOk_completed h.status hb (code := 0) (by decide)
  cases execEffect_of_exec he with
  | error _ e => exact ⟨statusOk_completed h.status hb (CmdError.code_range e).2, h.results, h.memory, h.sip, h.cache⟩
  | lenRange => exact ⟨⟨by simp, by simp, by simp, by simp⟩, h.results, h.memory, h.sip, h.cache⟩
  | packet _ _ hv => exact inv_verdict h hv
  | hash _ st hst =>
    have hsip : SipOk st := by
      rcases hst with ⟨-, rfl⟩ | ⟨-, -, B, -, rfl⟩
      · exact sipOk_start _
      · exact sipOk_absorb h.sip B
    exact ⟨hstatus, h.results, h.memory, hsip, h.cache⟩
  | finalize _ => exact ⟨hstatus, h.results, h.memory, h.sip, h.cache⟩
  | result _ r => exact ⟨hstatus, h.results, h.memory, h.sip, h.cache⟩
  | key _ k p hp => exact ⟨hstatus, ⟨hp, h.results.2⟩, h.memory, h.sip, cacheOk_lookupCache h.cache _ hp⟩
  | reply _ B d hB =>
    exact ⟨hstatus, resultsOk_reply h.results hB, memoryOk_outBuf h.memory hB, h.sip, h.cache⟩
  | cookieReply c p B hp hB =>
    exact ⟨hstatus, ⟨hp, (resultsOk_reply h.results hB).2⟩, memoryOk_outBuf h.memory hB, h.sip,
      cacheOk_lookupCache h.cache _ hp⟩

theorem inv_completeIllegal {s : State} (h : Inv s) (hb : s.status.busy = true) : Inv (completeIllegal s) :=
  ⟨statusOk_completed h.status hb (by decide), h.results, h.memory, h.sip, h.cache⟩

/-- `WERR` is free in the invariant. -/
theorem inv_withWerr {s : State} (h : Inv s) (b : Bool) : Inv { s with status := { s.status with werr := b } } :=
  ⟨h.status, h.results, h.memory, h.sip, h.cache⟩

theorem inv_writeRegIdle {s : State} (h : Inv s) (r : Reg) (v : U32) : Inv (writeRegIdle r v s) := by
  cases r with
  | cmd => exact ⟨statusOk_accepted h.status, h.results, h.memory, h.sip, h.cache⟩
  | statusClr => rw [writeRegIdle, writeStatusClr_eq]; exact inv_withWerr h _
  | masterSeed i => exact ⟨h.status, h.results, h.memory, h.sip, cacheOk_invalid rfl rfl⟩
  | inBuf i =>
    have hi := i.isLt
    exact ⟨h.status, h.results, memoryOk_writeBytes h.memory (Nat.le_add_right 0x200 _)
      (by simp [Config.inBufBase]; omega), h.sip, h.cache⟩
  | _ => exact ⟨h.status, h.results, h.memory, h.sip, h.cache⟩

theorem inv_writeOffset {s : State} (h : Inv s) (off : Nat) (v : U32) : Inv (writeOffset off v s) := by
  rcases writeOffset_cases off v s with ⟨-, e⟩ | ⟨r, -, ⟨-, e⟩ | ⟨-, -, e⟩ | ⟨-, -, e⟩⟩ <;> rw [e]
  · exact h
  · exact inv_writeRegIdle h r v
  · rw [writeStatusClr_eq]; exact inv_withWerr h _
  · exact inv_withWerr h _

theorem inv_resetInput (s : State) : Inv (resetInput s) where
  status := ⟨by simp [Status.afterReset], by simp [Status.afterReset], by simp [Status.afterReset],
    by simp [Status.afterReset]⟩
  results := by simp [ResultsOk, Results.afterReset]
  memory := by simp [MemoryOk, Memory.wf]
  sip := ⟨rfl, by simp [Sip.afterReset]⟩
  cache := cacheOk_invalid rfl rfl

/-- Settles O53, by the forms of a step: each of them keeps every part of the invariant. -/
theorem stepKeepsInvariant : Obligations.StepKeepsInvariant := by
  intro s t h hstep
  cases stepEffect_of_step hstep with
  | executes i _ hc he => exact inv_exec h (busy_of_completesNow hc) he
  | illegal hc => exact inv_completeIllegal h (busy_of_completesNow hc)
  | quiet e _ => exact inv_withEnv h e
  | writes e off v _ _ => exact inv_writeOffset (inv_withEnv h e) off v
  | resets e _ => exact inv_resetInput _

end Sys2Proof.Machine

namespace Sys2Proof.Machine

/-! ## The incremental state and the other instructions (R52) -/

/-- A state with another incremental SipHash state. -/
def withSip (x : Sip) (s : State) : State := { s with sip := x }

/-- The same for a step's outcome that goes on. -/
def outcomeWithSip (x : Sip) : Host.Outcome State Fault Refusal → Host.Outcome State Fault Refusal
  | .next t => .next (withSip x t)
  | o => o

@[simp] theorem withSip_regs (x : Sip) (s : State) : (withSip x s).regs = s.regs := rfl
@[simp] theorem cookieEn_withSip (x : Sip) (s : State) : cookieEn (withSip x s) = cookieEn s := rfl
@[simp] theorem keyOperand_withSip (x : Sip) (s : State) : keyOperand (withSip x s) = keyOperand s := rfl
@[simp] theorem hashInput_withSip (x : Sip) (s : State) : hashInput (withSip x s) = hashInput s := rfl
@[simp] theorem packetOperand_withSip (x : Sip) (s : State) : packetOperand (withSip x s) = packetOperand s := rfl
@[simp] theorem cookieOperand_withSip (x : Sip) (s : State) (k : SipKey) :
    cookieOperand (withSip x s) k = cookieOperand s k := rfl
@[simp] theorem triggerError_withSip (x : Sip) (s : State) : triggerError (withSip x s) = triggerError s := rfl
@[simp] theorem setCookieTrailer_withSip (x : Sip) (s : State) :
    setCookieTrailer (withSip x s) = setCookieTrailer s := rfl
@[simp] theorem lookupSecret_withSip (now : U64) (p : Byte) (x : Sip) (s : State) :
    lookupSecret now p (withSip x s) = ((lookupSecret now p s).1, withSip x (lookupSecret now p s).2) := rfl

@[simp] theorem outcomeWithSip_next (x : Sip) (t : State) : outcomeWithSip x (.next t) = .next (withSip x t) := rfl

/-- An update of the state that neither reads nor writes the incremental SipHash state. -/
def SipBlind (f : State → State) : Prop := ∀ x s, f (withSip x s) = withSip x (f s)

theorem sipBlind_reject (r : RejectReason) : SipBlind (reject r) := fun _ _ => rfl

theorem sipBlind_acceptPacket : SipBlind acceptPacket := fun _ _ => rfl

theorem sipBlind_reply (B : List Byte) : SipBlind fun t => complete (writeReply B t) := fun _ _ => rfl

theorem sipBlind_cookieReply (c : U64) (p : Byte) (B : List Byte) :
    SipBlind fun t => complete (writeCookieResult c p (writeReply B t)) := fun _ _ => rfl

theorem sipBlind_ite {p : State → Prop} [DecidablePred p] {f g : State → State}
    (hp : ∀ x s, p (withSip x s) ↔ p s) (hf : SipBlind f) (hg : SipBlind g) :
    SipBlind fun s => if p s then f s else g s := by
  intro x s
  by_cases h : p s
  · simp only [if_pos h, if_pos ((hp x s).2 h), hf x s]
  · simp only [if_neg h, if_neg (mt (hp x s).1 h), hg x s]

theorem sipBlind_afterDispatch {size : Nat} {version : U32} {payload : List Byte} {own : State → State}
    (h : SipBlind own) : SipBlind (afterDispatch size version payload own) :=
  sipBlind_ite (fun _ _ => Iff.rfl) (sipBlind_reject _)
    (sipBlind_ite (fun _ _ => Iff.rfl) (sipBlind_reject _) h)

theorem sipBlind_checkTimestamp (payload : List Byte) : SipBlind (checkTimestamp payload) :=
  sipBlind_ite (fun _ _ => Iff.rfl) (sipBlind_reject _) sipBlind_acceptPacket

theorem sipBlind_compareCookie (payload : List Byte) (c : U64) : SipBlind (compareCookie payload c) :=
  sipBlind_ite (fun _ _ => Iff.rfl) (sipBlind_reject _) sipBlind_acceptPacket

theorem getSecret_withSip (now : U64) (p : Byte) (x : Sip) (s : State) :
    getSecret now p (withSip x s) = (getSecret now p s).map (Prod.map id (withSip x)) := by
  unfold getSecret
  split <;> rfl

theorem sipBlind_checkCookie (payload : List Byte) : SipBlind (checkCookie payload) := by
  intro x s
  simp only [checkCookie, cookieEn_withSip, withSip_regs, getSecret_withSip, cookieOperand_withSip]
  split_ifs
  · rfl
  · cases getSecret s.regs.now (payload.getD 8 0) s with
    | none => rfl
    | some kt =>
      obtain ⟨k, t⟩ := kt
      simp only [Option.map_some, Prod.map, id]
      cases cookieOperand s k with
      | none => rfl
      | some c => exact sipBlind_compareCookie payload c x t

theorem dispatchPacket_withSip (p : ClientPacket) (x : Sip) (s : State) :
    dispatchPacket p (withSip x s) = outcomeWithSip x (dispatchPacket p s) := by
  obtain ⟨c, v, payload⟩ := p
  cases c with
  | getCookie => exact congrArg _ (sipBlind_afterDispatch (sipBlind_checkTimestamp payload) x s)
  | getPuzzle => exact congrArg _ (sipBlind_afterDispatch (sipBlind_checkCookie payload) x s)
  | setCookie | setPuzzle | resetPuzzle => exact congrArg _ (sipBlind_afterDispatch sipBlind_acceptPacket x s)
  | solvePuzzle | reset => rfl

/-- Every instruction but the three incremental ones does the same whatever the incremental state is (R52). -/
theorem exec_withSip {i : Instr} (h1 : i ≠ .sipSetup) (h2 : i ≠ .sipUpdate) (h3 : i ≠ .sipFinalize) (x : Sip)
    (s : State) : exec i (withSip x s) = outcomeWithSip x (exec i s) := by
  cases i with
  | sipSetup => exact absurd rfl h1
  | sipUpdate => exact absurd rfl h2
  | sipFinalize => exact absurd rfl h3
  | sipOneshot =>
    simp only [exec, execSipOneshot, hashInput_withSip]
    split <;> rfl
  | getSecret =>
    simp only [exec, execGetSecret, withSip_regs, getSecret_withSip]
    cases getSecret s.regs.now s.regs.pktIndex s <;> rfl
  | computeCookie =>
    simp only [exec, execComputeCookie, keyOperand_withSip, cookieOperand_withSip]
    split <;> rfl
  | validate =>
    by_cases hlen : s.regs.inLen.toNat > Config.inBufSize
    · have hlen' : (withSip x s).regs.inLen.toNat > Config.inBufSize := hlen
      simp only [exec, execValidate, if_pos hlen, if_pos hlen']
      rfl
    · have hlen' : ¬ (withSip x s).regs.inLen.toNat > Config.inBufSize := hlen
      simp only [exec, execValidate, if_neg hlen, if_neg hlen', packetOperand_withSip]
      cases decodePacket (packetOperand s) with
      | error r => rfl
      | ok p => exact dispatchPacket_withSip p x s
  | buildSetCookie =>
    simp only [exec, execBuildSetCookie, withSip_regs, lookupSecret_withSip, cookieOperand_withSip,
      triggerError_withSip, setCookieTrailer_withSip]
    cases cookieOperand s (lookupSecret s.regs.now (currentIndex s.regs.now) s).1 with
    | none => rfl
    | some c =>
      cases triggerError s with
      | some e => rfl
      | none => exact congrArg Host.Outcome.next (sipBlind_cookieReply _ _ _ x _)
  | wireGetCookie v payload => exact dispatchPacket_withSip ⟨.getCookie, v, payload⟩ x s
  | wireSetCookie v payload => exact dispatchPacket_withSip ⟨.setCookie, v, payload⟩ x s
  | wireGetPuzzle v payload => exact dispatchPacket_withSip ⟨.getPuzzle, v, payload⟩ x s
  | wireSetPuzzle v payload => exact dispatchPacket_withSip ⟨.setPuzzle, v, payload⟩ x s
  | wireResetPuzzle v payload => exact dispatchPacket_withSip ⟨.resetPuzzle, v, payload⟩ x s
  | getCurrentSecret => rfl
  | buildGetCookie =>
    exact congrArg Host.Outcome.next (sipBlind_reply (getCookieReply s.regs.now (draw4 s).1) x (draw4 s).2)
  | buildReset => exact congrArg Host.Outcome.next (sipBlind_reply _ x s)
  | buildResetPuzzle => exact congrArg Host.Outcome.next (sipBlind_reply _ x s)
  | wireSolvePuzzle v payload => rfl
  | wireReset v payload => rfl

/-- Settles O27: both halves from `exec_withSip`, the first with the incremental state the state has. -/
theorem incrementalStatePrivate : Obligations.IncrementalStatePrivate := by
  intro i s t x h1 h2 h3 h
  have hother := exec_withSip h1 h2 h3 x s
  have hsame : exec i s = outcomeWithSip s.sip (exec i s) := exec_withSip h1 h2 h3 s.sip s
  rw [h, outcomeWithSip_next] at hother hsame
  have ht : t = withSip s.sip t := Host.Outcome.next.inj hsame
  exact ⟨by rw [ht]; rfl, hother⟩

end Sys2Proof.Machine

namespace Sys2Proof.Machine

/-! ## What the registers read as (R21, R64) -/

/-- The lanes of a word of the buffers are its bytes. -/
theorem byteOf_bufWord (s : State) (a : Nat) {j : Nat} (hj : j < 4) : byteOf (bufWord s a) j = bufByte s (a + j) :=
  byteOf_wordOfBytes (fun j => bufByte s (a + j)) hj

theorem registerFields (s : State) : RegisterFields s where
  commands := ⟨rfl, rfl, fun _ => rfl⟩
  status := rfl
  cfg := by
    refine ⟨?_, ?_, ?_, ?_, ?_⟩
    · simp [readReg, zrs]
    · simp [readReg, minverEn]
    · simp [readReg, utcEn]
    · simp [readReg, cookieEn]
    · apply BitVec.eq_of_getLsbD_eq
      intro i hi
      simp [readReg]
  limits := ⟨rfl, rfl⟩
  now := hiWord_append_loWord _
  keys := ⟨hiWord_append_loWord _, hiWord_append_loWord _⟩
  operands := by
    refine ⟨?_, ?_, ?_, ?_, ?_, ?_⟩ <;> exact BitVec.toNat_setWidth_of_le (by decide)
  addresses i j hj := ⟨registerBytes_lane s.regs.srcAddr i hj, registerBytes_lane s.regs.dstAddr i hj⟩
  result := hiWord_append_loWord _
  resultKeys := ⟨hiWord_append_loWord _, hiWord_append_loWord _⟩
  lengths := ⟨BitVec.toNat_setWidth_of_le (by decide), BitVec.toNat_setWidth_of_le (by decide), rfl⟩
  inBuf i j hj := by
    rw [inByte, ← Nat.add_assoc]
    exact (byteOf_bufWord s _ hj).symm
  outBuf i j hj := by
    rw [outByte, ← Nat.add_assoc]
    exact (byteOf_bufWord s _ hj).symm

/-- Settles O16: the fields of the registers, and a read that leaves all but the record of it. -/
theorem hostReadReturns : Obligations.HostReadReturns := by
  refine ⟨registerFields, fun s r rest hp => ⟨fun hb => ?_, fun hb hw => ?_⟩⟩
  · rw [step_idle hb hp, perform_read_reg, readReg_withEnv r (s := s) rfl rfl]
    rfl
  · rw [step_busy hb hw hp, perform_read_reg, readReg_withEnv r (s := s) rfl rfl]
    rfl

/-! ## Writes of the seed (R29, R42) -/

/-- The bytes of an array of registers after one of them was set. -/
theorem registerBytes_set_getElem? {n : Nat} (ws : Vector U32 n) (i : Fin n) (v : U32) (j : Nat) :
    (registerBytes (ws.set i v))[j]? =
      if j / 4 = i.val then some (byteOf v (j % 4)) else (registerBytes ws)[j]? := by
  rw [registerBytes_getElem?, registerBytes_getElem?, Vector.getElem?_set]
  by_cases h : j / 4 = i.val
  · rw [if_pos h, if_pos h.symm]; rfl
  · rw [if_neg h, if_neg (Ne.symm h)]

/-- Settles O18: the write is `writeSeedWord` in one step. -/
theorem seedWriteInvalidates : Obligations.SeedWriteInvalidates := by
  intro s i v rest hb hp
  exact ⟨_, step_write_reg_idle (r := .masterSeed i) hb hp, fun j _ => registerBytes_set_getElem? _ i v j,
    rfl, rfl, rfl, rfl, rfl, rfl, rfl, rfl, rfl, rfl, rfl⟩

/-! ## Writes of the read-write registers (R21, R68) -/

@[simp] theorem loWord_withLo (v : U64) (w : U32) : loWord (withLo v w) = w := loWord_append ..

@[simp] theorem hiWord_withLo (v : U64) (w : U32) : hiWord (withLo v w) = hiWord v := hiWord_append ..

@[simp] theorem hiWord_withHi (v : U64) (w : U32) : hiWord (withHi v w) = w := hiWord_append ..

@[simp] theorem loWord_withHi (v : U64) (w : U32) : loWord (withHi v w) = loWord v := loWord_append ..

theorem and_ones (v : U32) : v &&& 0xFFFFFFFF = v := BitVec.and_allOnes

theorem getElem?_le32bytes (v : U32) {j : Nat} (hj : j < 4) : (le32bytes v)[j]? = some (byteOf v j) := by
  interval_cases j <;> rfl

/-- A buffer byte after a word was stored in `IN_BUF` (R64). -/
theorem bufByte_write_inBuf (i : Fin 128) (v : U32) (s : State) (a : Nat) :
    bufByte (writeRegIdle (.inBuf i) v s) a =
      if (Reg.inBuf i).offset ≤ a ∧ a < (Reg.inBuf i).offset + 4 then byteOf v (a - (Reg.inBuf i).offset)
      else bufByte s a := by
  have hread : (writeRegIdle (.inBuf i) v s).mem.read? a =
      if (Reg.inBuf i).offset ≤ a ∧ a < (Reg.inBuf i).offset + 4 then (le32bytes v)[a - (Reg.inBuf i).offset]?
      else s.mem.read? a := Memory.read?_writeBytes s.mem (le32bytes v) _ a
  rw [bufByte, hread]
  by_cases ha : (Reg.inBuf i).offset ≤ a ∧ a < (Reg.inBuf i).offset + 4
  · rw [if_pos ha, if_pos ha, getElem?_le32bytes v (by omega)]; rfl
  · rw [if_neg ha, if_neg ha]; rfl

theorem bufByte_writeRegIdle_outside {r : Reg} {v : U32} {s : State} {a : Nat}
    (ha : a < r.offset ∨ r.offset + 4 ≤ a) : bufByte (writeRegIdle r v s) a = bufByte s a := by
  cases r with
  | inBuf i => rw [bufByte_write_inBuf, if_neg (by omega)]
  | statusClr => simp only [writeRegIdle, writeStatusClr_eq]; rfl
  | _ => rfl

/-- A buffer word outside the written register is as before. -/
theorem bufWord_writeRegIdle_outside {r : Reg} {v : U32} {s : State} {a : Nat}
    (ha : a + 4 ≤ r.offset ∨ r.offset + 4 ≤ a) : bufWord (writeRegIdle r v s) a = bufWord s a := by
  have hbyte (k : Nat) (hk : k < 4) : bufByte (writeRegIdle r v s) (a + k) = bufByte s (a + k) :=
    bufByte_writeRegIdle_outside (by omega)
  simp only [bufWord, hbyte 1 (by decide), hbyte 2 (by decide), hbyte 3 (by decide)]
  rw [show bufByte (writeRegIdle r v s) a = bufByte s a from hbyte 0 (by decide)]

theorem bufWord_write_inBuf (i : Fin 128) (v : U32) (s : State) :
    bufWord (writeRegIdle (.inBuf i) v s) (Reg.inBuf i).offset = v := by
  have hbyte (k : Nat) (hk : k < 4) :
      bufByte (writeRegIdle (.inBuf i) v s) ((Reg.inBuf i).offset + k) = byteOf v k := by
    rw [bufByte_write_inBuf, if_pos (by omega), Nat.add_sub_cancel_left]
  rw [bufWord, hbyte 1 (by decide), hbyte 2 (by decide), hbyte 3 (by decide),
    show bufByte _ (Reg.inBuf i).offset = _ from hbyte 0 (by decide), wordOfBytes_byteOf]

/-- The low bits of a word, as a field of `k` bits reads them. -/
theorem setWidth_setWidth_eq_and (v : U32) (k : Nat) :
    (v.setWidth k).setWidth 32 = v &&& BitVec.ofNat 32 (2 ^ k - 1) := by
  apply BitVec.eq_of_getLsbD_eq
  intro i hi
  rw [BitVec.getLsbD_and, BitVec.getLsbD_ofNat, Nat.testBit_two_pow_sub_one]
  simp [hi, Bool.and_comm]

/-- A written register reads as the implemented bits written (R21). -/
theorem readReg_writeRegIdle_self {r : Reg} (hr : r.access = .readWrite) (v : U32) (s : State) :
    readReg r (writeRegIdle r v s) = v &&& r.implemented := by
  cases r with
  | cfg | af | srcPort | pktIndex | inLen | updOff | updLen => exact setWidth_setWidth_eq_and v _
  | minClientVersion | maxUtcOffset => exact (and_ones v).symm
  | nowLo | key0Lo | key1Lo => exact (loWord_withLo _ v).trans (and_ones v).symm
  | nowHi | key0Hi | key1Hi => exact (hiWord_withHi _ v).trans (and_ones v).symm
  | srcAddr i | dstAddr i => exact (Vector.getElem_set_self i.isLt).trans (and_ones v).symm
  | inBuf i => exact (bufWord_write_inBuf i v s).trans (and_ones v).symm
  | _ => simp [Reg.access] at hr

/-- Every register but the written one reads as before. Only the other half of a 64-bit register, another element of
the same array and the buffer words share storage with it. -/
theorem readReg_writeRegIdle_other {r r' : Reg} (hr : r.access = .readWrite) (hne : r' ≠ r) (v : U32) (s : State) :
    readReg r' (writeRegIdle r v s) = readReg r' s := by
  cases r with
  | cfg | af | srcPort | pktIndex | inLen | updOff | updLen | minClientVersion | maxUtcOffset =>
    cases r' <;> first | contradiction | rfl
  | nowLo | key0Lo | key1Lo => cases r' <;> first | contradiction | rfl | exact hiWord_withLo ..
  | nowHi | key0Hi | key1Hi => cases r' <;> first | contradiction | rfl | exact loWord_withHi ..
  | srcAddr i =>
    cases r' with
    | srcAddr j => exact Vector.getElem_set_ne i.isLt j.isLt fun h => hne (congrArg _ (Fin.ext h.symm))
    | _ => rfl
  | dstAddr i =>
    cases r' with
    | dstAddr j => exact Vector.getElem_set_ne i.isLt j.isLt fun h => hne (congrArg _ (Fin.ext h.symm))
    | _ => rfl
  | inBuf i =>
    have hi := i.isLt
    cases r' with
    | inBuf j =>
      have hij : j.val ≠ i.val := fun h => hne (congrArg _ (Fin.ext h))
      exact bufWord_writeRegIdle_outside (by simp only [Reg.offset, Config.inBufBase]; omega)
    | outBuf j => exact bufWord_writeRegIdle_outside (by simp only [Reg.offset, Config.outBufBase]; omega)
    | _ => rfl
  | _ => simp [Reg.access] at hr

theorem readReg_writeRegIdle {r : Reg} (hr : r.access = .readWrite) (v : U32) (s : State) (r' : Reg) :
    readReg r' (writeRegIdle r v s) = if r' = r then v &&& r.implemented else readReg r' s := by
  split
  · next h => rw [h, readReg_writeRegIdle_self hr]
  · next h => exact readReg_writeRegIdle_other hr h v s

/-- A register without reserved bits after a write: the word written, or what it held. -/
theorem readReg_writeRegIdle_word {r r' : Reg} (hr : r.access = .readWrite) (hfull : r'.implemented = 0xFFFFFFFF)
    (v : U32) (s : State) : readReg r' (writeRegIdle r v s) = if r = r' then v else readReg r' s := by
  rw [readReg_writeRegIdle hr]
  by_cases h : r = r'
  · rw [if_pos h, if_pos h.symm, h, hfull, and_ones]
  · rw [if_neg h, if_neg (Ne.symm h)]

/-- What a write of a read-write register leaves unchanged. -/
theorem writeRegIdle_frame {r : Reg} (hr : r.access = .readWrite) (v : U32) (s : State) :
    (writeRegIdle r v s).status = s.status ∧ (writeRegIdle r v s).cmd = s.cmd ∧ (writeRegIdle r v s).res = s.res ∧
    (writeRegIdle r v s).cache = s.cache ∧ (writeRegIdle r v s).sip = s.sip ∧
    (writeRegIdle r v s).regs.masterSeed = s.regs.masterSeed ∧ (writeRegIdle r v s).env = s.env := by
  cases r with
  | cmd | statusClr | masterSeed i => simp [Reg.access] at hr
  | _ => exact ⟨rfl, rfl, rfl, rfl, rfl, rfl, rfl⟩

theorem writeRegIdle_mem {r : Reg} (hr : ∀ i, r ≠ .inBuf i) (v : U32) (s : State) :
    (writeRegIdle r v s).mem = s.mem := by
  cases r with
  | inBuf i => exact absurd rfl (hr i)
  | statusClr => simp [writeRegIdle, writeStatusClr_eq]
  | _ => rfl

/-- The enables of `CFG` after a write of it (R25). -/
theorem enables_write_cfg (v : U32) (s : State) :
    zrs (writeRegIdle .cfg v s) = v.getLsbD 0 ∧ minverEn (writeRegIdle .cfg v s) = v.getLsbD 1 ∧
    utcEn (writeRegIdle .cfg v s) = v.getLsbD 2 ∧ cookieEn (writeRegIdle .cfg v s) = v.getLsbD 3 := by
  simp [zrs, minverEn, utcEn, cookieEn, writeRegIdle]

/-- Settles O17: what each register reads as after the write, and `RegisterFields` for the fields behind the registers. -/
theorem writesAffectOneRegister : Obligations.WritesAffectOneRegister := by
  intro s r v rest hb hr hp
  obtain ⟨hstatus, hcmd, hres, hcache, hsip, hseed, henv⟩ := writeRegIdle_frame hr v (takePending rest s)
  have hread (r' : Reg) (hfull : r'.implemented = 0xFFFFFFFF) :
      readReg r' (writeRegIdle r v (takePending rest s)) = if r = r' then v else readReg r' s := by
    rw [readReg_writeRegIdle_word hr hfull, readReg_takePending]
  have hfields := registerFields (writeRegIdle r v (takePending rest s))
  refine ⟨_, step_write_reg_idle hb hp, fun r' => ?_, hstatus, hcmd, hres, hcache, hsip, hseed, henv,
    fun a ha => bufByte_writeRegIdle_outside ha, fun hmem => writeRegIdle_mem hmem v _, ?_, ?_, ?_, ?_, ?_, ?_⟩
  · rw [readReg_writeRegIdle hr, readReg_takePending]
  · rintro rfl
    exact enables_write_cfg v _
  · rw [← hfields.now, hread .nowHi rfl, hread .nowLo rfl]; rfl
  · rw [← hfields.keys.1, hread .key0Hi rfl, hread .key0Lo rfl]; rfl
  · rw [← hfields.keys.2, hread .key1Hi rfl, hread .key1Lo rfl]; rfl
  · intro i j hj
    obtain ⟨hsrc, hdst⟩ := hfields.addresses i j hj
    constructor <;> rintro rfl
    · rw [hsrc, hread _ rfl, if_pos rfl]
    · rw [hdst, hread _ rfl, if_pos rfl]
  · rintro i j hj rfl
    rw [hfields.inBuf i j hj, hread _ rfl, if_pos rfl]
    exact ⟨rfl, rfl⟩

end Sys2Proof.Machine

namespace Sys2Proof.Machine

/-! ## Accesses the bus does not have (20_memory R60, R63) -/

/-- A step that completes no command performs the oldest pending access; only the time left may have changed before. -/
theorem step_of_pending {s : State} {a : HostAccess} {rest : List HostAccess} (hc : completesNow s = false)
    (hp : s.env.pending = a :: rest) :
    ∃ w, step s = perform a { s with env := { s.env with pending := rest, wait := w } } := by
  cases hb : s.status.busy with
  | false => exact ⟨_, step_idle hb hp⟩
  | true => exact ⟨_, step_busy hb (by simpa [completesNow, hb] using hc) hp⟩

theorem guardAccess_bad {off width : Nat} (h : width ≠ 4 ∨ off % 4 ≠ 0) (act : State → State) (s : State) :
    guardAccess off width act s = .refused (.badBusAccess off width) :=
  if_pos (by simpa only [wordAccess, Bool.and_eq_false_iff, beq_eq_false_iff_ne] using h)

theorem guardAccess_outside {off : Nat} (h4 : off % 4 = 0) (hout : 0x1000 ≤ off) (act : State → State) (s : State) :
    guardAccess off 4 act s = .fault (.outsideRegisterSpace off) := by
  have hspace : ¬ off < Config.registerSpaceSize := Nat.not_lt.2 hout
  rw [guardAccess, if_neg (by simp [wordAccess, h4]), if_neg hspace]

/-- Settles O14: the guard of a read or a write refuses before the access acts. -/
theorem nonWordAccessRefused : Obligations.NonWordAccessRefused := by
  intro s off width v rest hc hbad hp
  rcases hp with hp | hp <;> obtain ⟨w, e⟩ := step_of_pending hc hp <;> rw [e]
  · exact guardAccess_bad hbad ..
  · exact guardAccess_bad hbad ..

/-- Settles O15: the guard of an aligned read or write past the register space faults. -/
theorem outsideAccessFaults : Obligations.OutsideAccessFaults := by
  intro s off v rest hc h4 hout hp
  rcases hp with hp | hp <;> obtain ⟨w, e⟩ := step_of_pending hc hp <;> rw [e]
  · exact guardAccess_outside h4 hout ..
  · exact guardAccess_outside h4 hout ..

/-! ## Commands and register writes by the engine's mode (R71 to R73) -/

/-- Settles O6, by `step_of_completes`. -/
theorem stepRunsCommand : Obligations.StepRunsCommand :=
  fun s _ hb hw hd => step_of_completes (by simp [completesNow, hb, hw]) hd

/-- A busy engine drops a write of any register but `STATUS_CLR` (R73). -/
theorem writeRegBusy_dropped {r : Reg} (hr : r ≠ .statusClr) (v : U32) (s : State) :
    writeRegBusy r v s = setWerr s := by
  cases r with
  | statusClr => exact absurd rfl hr
  | _ => rfl

/-- An idle engine ignores a write of a read-only register (R73). -/
theorem writeRegIdle_readOnly {r : Reg} (hr : r.access = .readOnly) (v : U32) (s : State) :
    writeRegIdle r v s = s := by
  cases r with
  | status | refreshCount | resultLo | resultHi | resIndex | outLen | resKey0Lo | resKey0Hi | resKey1Lo | resKey1Hi
  | outBuf i => rfl
  | _ => simp [Reg.access] at hr

/-- Settles O9: the write is `accept` while idle, with the latency drawn there, and is dropped while busy. -/
theorem commandAcceptance : Obligations.CommandAcceptance := by
  intro s w rest hp
  refine ⟨fun hb => ⟨_, step_write_reg_idle (r := .cmd) hb hp⟩, fun hb hw => ?_⟩
  rw [step_write_reg_busy (r := .cmd) hb hw hp, writeRegBusy_dropped (by decide)]
  rfl

/-- Settles O10, from what a register write does in each mode. -/
theorem busyWritesDropped : Obligations.BusyWritesDropped := by
  intro s r v rest hp
  refine ⟨fun hb hw hr => ?_, fun hb hr => ?_⟩
  · rw [step_write_reg_busy hb hw hp, writeRegBusy_dropped hr]
    rfl
  · rw [step_write_reg_idle hb hp, writeRegIdle_readOnly hr]
    rfl

end Sys2Proof.Machine

namespace Sys2Proof.Machine

/-! ## Reserved space (R61) -/

/-- The reserved offsets of R61 hold no register. -/
theorem regAt_reserved {off : Nat}
    (h : off = 0x03C ∨ (0x090 ≤ off ∧ off ≤ 0x0FC) ∨ (0x13C ≤ off ∧ off ≤ 0x1FC) ∨ (0x500 ≤ off ∧ off ≤ 0xFFC)) :
    regAt off = none := by
  rw [Option.eq_none_iff_forall_ne_some]
  intro r hr
  have hoff := regAt_eq_some hr
  cases r <;> simp only [Reg.offset] at hoff <;> omega

theorem and_not_ones (v : U32) : v &&& ~~~(0xFFFFFFFF : U32) = 0 := BitVec.and_zero

/-- A field of `k` bits read as a word has no bit above them. -/
theorem setWidth_and_not_low {k : Nat} (x : BitVec k) :
    x.setWidth 32 &&& ~~~BitVec.ofNat 32 (2 ^ k - 1) = 0 := by
  apply BitVec.eq_of_getLsbD_eq
  intro i hi
  have hx : k ≤ i → x.getLsbD i = false := BitVec.getLsbD_of_ge x i
  simp only [BitVec.getLsbD_and, BitVec.getLsbD_setWidth, BitVec.getLsbD_not, BitVec.getLsbD_ofNat,
    Nat.testBit_two_pow_sub_one, hi]
  by_cases h : i < k
  · simp [h]
  · simp [hx (Nat.not_lt.1 h)]

/-- A word with no bit in the reserved places 4 to 7 and 9 to 15 of `STATUS` (R22) has none outside its fields. -/
theorem and_not_status {v : U32} (hlow : v.extractLsb' 4 4 = 0) (hhigh : v.extractLsb' 9 7 = 0) :
    v &&& ~~~Reg.status.implemented = 0 := by
  have hfields : ∀ i < 32, ¬ (4 ≤ i ∧ i < 8) → ¬ (9 ≤ i ∧ i < 16) → Reg.status.implemented.getLsbD i = true := by
    decide
  have hfield {a k i : Nat} (h : v.extractLsb' a k = 0) (ha : a ≤ i) (hk : i < a + k) : v.getLsbD i = false := by
    have hbit := congrArg (BitVec.getLsbD · (i - a)) h
    simpa [show i - a < k by omega, show a + (i - a) = i by omega] using hbit
  apply BitVec.eq_of_getLsbD_eq
  intro i hi
  rw [BitVec.getLsbD_and, BitVec.getLsbD_not]
  by_cases h4 : 4 ≤ i ∧ i < 8
  · simp [hfield hlow h4.1 h4.2]
  · by_cases h9 : 9 ≤ i ∧ i < 16
    · simp [hfield hhigh h9.1 h9.2]
    · simp [hfields i hi h4 h9]

/-- The reserved bits of every register read 0. -/
theorem readReg_reserved_bits (r : Reg) (s : State) : readReg r s &&& ~~~r.implemented = 0 := by
  cases r with
  | status => exact and_not_status (statusWord_reserved s).1 (statusWord_reserved s).2
  | cfg | af | srcPort | pktIndex | inLen | updOff | updLen | resIndex | outLen => exact setWidth_and_not_low _
  | cmd | statusClr | masterSeed i => exact BitVec.zero_and
  | _ => exact and_not_ones _

/-- A field of `k` bits takes the low `k` bits of a word. -/
theorem setWidth_and_low (v : U32) {k : Nat} (hk : k ≤ 32) :
    (v &&& BitVec.ofNat 32 (2 ^ k - 1)).setWidth k = v.setWidth k := by
  rw [← setWidth_setWidth_eq_and, BitVec.setWidth_setWidth_of_le _ hk, BitVec.setWidth_eq]

/-- The reserved bits of a word written to any register but `CMD` do not count. -/
theorem writeRegIdle_implemented {r : Reg} (hr : r ≠ .cmd) (v : U32) (s : State) :
    writeRegIdle r v s = writeRegIdle r (v &&& r.implemented) s := by
  cases r with
  | cmd => exact absurd rfl hr
  | status => rfl
  | statusClr => simp [writeRegIdle, writeStatusClr, Reg.implemented]
  | cfg | af | srcPort | pktIndex | inLen | updOff | updLen =>
    simp only [writeRegIdle]
    rw [← setWidth_and_low v (by decide)]
    rfl
  | resIndex | outLen => rfl
  | _ => exact congrArg (writeRegIdle _ · s) (and_ones v).symm

/-- Settles O13: a reserved offset holds no register, and a register's reserved bits are not stored. -/
theorem reservedSpaceInert : Obligations.ReservedSpaceInert := by
  refine ⟨fun off s v _ hoff => ?_, readReg_reserved_bits, fun r s v hr => writeRegIdle_implemented hr v s⟩
  simp [readOffset, writeOffset, regAt_reserved hoff]

end Sys2Proof.Machine

namespace Sys2Proof.Machine

/-! ## What every instruction keeps (R72, R300) -/

/-- A reply reaches no byte outside `OUT_BUF` (R39, R261). -/
theorem bufByte_writeReply_outside {B : List Byte} (hB : B.length ≤ 256) (s : State) {a : Nat}
    (ha : a < 0x400 ∨ 0x500 ≤ a) : bufByte (writeReply B s) a = bufByte s a := by
  rw [bufByte_writeReply, if_neg (by omega)]

/-- Settles O50, by the forms of an instruction's next state: only a reply writes a buffer. -/
theorem everyInstructionCompletes : Obligations.EveryInstructionCompletes := by
  intro i s
  obtain ⟨t, he, hform⟩ := exec_cases i s
  refine ⟨t, he, ?_⟩
  cases hform with
  | packet _ _ hv =>
    obtain ⟨m, r, c, -, -, -, rfl⟩ := hv
    exact ⟨rfl, rfl, rfl, rfl, rfl, rfl, fun _ _ => rfl⟩
  | reply _ B draws hB =>
    exact ⟨rfl, rfl, rfl, rfl, rfl, rfl, fun _ ha => bufByte_writeReply_outside hB _ ha⟩
  | cookieReply c p B _ hB =>
    exact ⟨rfl, rfl, rfl, rfl, rfl, rfl, fun _ ha => bufByte_writeReply_outside hB _ ha⟩
  | _ => exact ⟨rfl, rfl, rfl, rfl, rfl, rfl, fun _ _ => rfl⟩

/-- No instruction takes or issues a host access. -/
theorem exec_pending {i : Instr} {s t : State} (h : exec i s = .next t) : t.env.pending = s.env.pending := by
  cases execEffect_of_exec h with
  | packet _ _ hv => obtain ⟨m, r, c, -, -, -, rfl⟩ := hv; rfl
  | _ => rfl

/-! ## Progress (R63) -/

/-- An access the bus has is performed. -/
theorem perform_of_wf {a : HostAccess} (h : a.wf = true) (s : State) : ∃ t, perform a s = .next t := by
  have hword {off width : Nat} (h : (wordAccess off width && decide (off < Config.registerSpaceSize)) = true) :
      width = 4 ∧ off % 4 = 0 ∧ off < 0x1000 := by
    simp only [wordAccess, Bool.and_eq_true, beq_iff_eq, decide_eq_true_eq, and_assoc] at h
    exact h
  cases a with
  | read off width =>
    obtain ⟨rfl, h4, hl⟩ := hword h
    exact ⟨_, perform_read_word h4 hl s⟩
  | write off width v =>
    obtain ⟨rfl, h4, hl⟩ := hword h
    exact ⟨_, perform_write_word h4 hl v s⟩
  | reset => exact ⟨_, rfl⟩

theorem writeRegIdle_pending (r : Reg) (v : U32) (s : State) :
    (writeRegIdle r v s).env.pending = s.env.pending := by
  cases r with
  | statusClr => rw [writeRegIdle, writeStatusClr_eq]
  | _ => rfl

/-- An access that is performed issues none. -/
theorem perform_pending {a : HostAccess} {s t : State} (h : perform a s = .next t) :
    t.env.pending = s.env.pending := by
  rcases perform_cases h with ⟨off, -, -, -, rfl⟩ | ⟨off, v, -, -, -, rfl⟩ | ⟨-, rfl⟩
  · rfl
  · rcases writeOffset_cases off v s with ⟨-, e⟩ | ⟨r, -, ⟨-, e⟩ | ⟨-, -, e⟩ | ⟨-, -, e⟩⟩ <;> rw [e]
    · exact writeRegIdle_pending r v s
    · rw [writeStatusClr_eq]
    · rfl
  · rfl

theorem step_of_illegal {s : State} {e : CommandReject} (hc : completesNow s = true)
    (hd : decodeCommand s.cmd = .error e) : step s = .next (completeIllegal s) := by
  simp only [step, hc, hd, if_true]

/-- A completion goes on and leaves the issued accesses. -/
theorem step_of_completesNow {s : State} (hc : completesNow s = true) :
    ∃ t, step s = .next t ∧ t.env.pending = s.env.pending := by
  cases hd : decodeCommand s.cmd with
  | ok i =>
    obtain ⟨t, he, -⟩ := exec_cases i s
    exact ⟨t, (step_of_completes hc hd).trans he, exec_pending he⟩
  | error e => exact ⟨_, step_of_illegal hc hd, rfl⟩

/-- With no access issued, the host's turn is one step of time for a command in flight. -/
theorem step_of_no_pending {s : State} (hc : completesNow s = false) (hp : s.env.pending = []) :
    step s = .next (if s.status.busy then tick s else s) := by
  cases hb : s.status.busy <;> simp [step, hc, hostTurn, hb, hp]

/-- Settles O54: a completion goes on, and in the host's turn the oldest access is one the bus has. -/
theorem progressOnWordAccesses : Obligations.ProgressOnWordAccesses := by
  intro s h
  cases hc : completesNow s with
  | true =>
    obtain ⟨t, ht, e⟩ := step_of_completesNow hc
    exact ⟨t, ht, fun a ha => h a (e ▸ ha)⟩
  | false =>
    cases hp : s.env.pending with
    | nil =>
      refine ⟨_, step_of_no_pending hc hp, fun a ha => h a ?_⟩
      cases hb : s.status.busy <;> simpa [hb] using ha
    | cons a rest =>
      have hall : ∀ b ∈ a :: rest, b.wf = true := hp ▸ h
      obtain ⟨w, e⟩ := step_of_pending hc hp
      obtain ⟨t, ht⟩ := perform_of_wf (hall a List.mem_cons_self)
        { s with env := { s.env with pending := rest, wait := w } }
      have hrest : t.env.pending = rest := perform_pending ht
      exact ⟨t, e.trans ht, fun b hb => hall b (List.mem_cons_of_mem a (hrest ▸ hb))⟩

end Sys2Proof.Machine

namespace Sys2Proof.Machine

/-! ## The host's side of the state while a command is in flight (R75) -/

/-- The fields that the host's turns change while a command is in flight. -/
structure HostSide where
  werr : Bool
  pending : List HostAccess
  observed : List U32
  wait : Nat

/-- The host's side of a state. -/
def hostSide (s : State) : HostSide := ⟨s.status.werr, s.env.pending, s.env.observed, s.env.wait⟩

/-- A state with another host's side. -/
def withHost (h : HostSide) (s : State) : State :=
  { s with
    status := { s.status with werr := h.werr }
    env := { s.env with pending := h.pending, observed := h.observed, wait := h.wait } }

/-- The same for a step's outcome that goes on. -/
def outcomeWithHost (h : HostSide) : Host.Outcome State Fault Refusal → Host.Outcome State Fault Refusal
  | .next t => .next (withHost h t)
  | o => o

theorem withHost_hostSide (s : State) : withHost (hostSide s) s = s := rfl

theorem withHost_withHost (h g : HostSide) (s : State) : withHost h (withHost g s) = withHost h s := rfl

@[simp] theorem outcomeWithHost_next (h : HostSide) (t : State) :
    outcomeWithHost h (.next t) = .next (withHost h t) := rfl

@[simp] theorem withHost_regs (h : HostSide) (s : State) : (withHost h s).regs = s.regs := rfl
@[simp] theorem keyOperand_withHost (h : HostSide) (s : State) : keyOperand (withHost h s) = keyOperand s := rfl
@[simp] theorem hashInput_withHost (h : HostSide) (s : State) : hashInput (withHost h s) = hashInput s := rfl
@[simp] theorem packetOperand_withHost (h : HostSide) (s : State) :
    packetOperand (withHost h s) = packetOperand s := rfl
@[simp] theorem cookieOperand_withHost (h : HostSide) (s : State) (k : SipKey) :
    cookieOperand (withHost h s) k = cookieOperand s k := rfl
@[simp] theorem triggerError_withHost (h : HostSide) (s : State) : triggerError (withHost h s) = triggerError s := rfl
@[simp] theorem setCookieTrailer_withHost (h : HostSide) (s : State) :
    setCookieTrailer (withHost h s) = setCookieTrailer s := rfl
@[simp] theorem lookupSecret_withHost (now : U64) (p : Byte) (h : HostSide) (s : State) :
    lookupSecret now p (withHost h s) = ((lookupSecret now p s).1, withHost h (lookupSecret now p s).2) := rfl

@[simp] theorem getSecret_withHost (now : U64) (p : Byte) (h : HostSide) (s : State) :
    getSecret now p (withHost h s) = (getSecret now p s).map (Prod.map id (withHost h)) := by
  unfold getSecret
  split <;> rfl

/-! ## No instruction reads or writes the host's side -/

/-- An update of the state that neither reads nor writes the host's side. -/
def HostBlind (f : State → State) : Prop := ∀ h s, f (withHost h s) = withHost h (f s)

/-- A choice between two results, each the image of one under `g`, is the image of the choice between those. -/
theorem ite_eq_apply_ite {α β : Type} (g : α → β) {p q : Prop} [Decidable p] [Decidable q] (hpq : p ↔ q)
    {a b : α} {a' b' : β} (ha : a' = g a) (hb : b' = g b) : (if p then a' else b') = g (if q then a else b) :=
  (if_congr hpq ha hb).trans (apply_ite g q a b).symm

theorem hostBlind_acceptPacket : HostBlind acceptPacket := fun _ _ => rfl

theorem hostBlind_reply (B : List Byte) : HostBlind fun t => complete (writeReply B t) := fun _ _ => rfl

theorem hostBlind_cookieReply (c : U64) (p : Byte) (B : List Byte) :
    HostBlind fun t => complete (writeCookieResult c p (writeReply B t)) := fun _ _ => rfl

theorem hostBlind_checkTimestamp (payload : List Byte) : HostBlind (checkTimestamp payload) :=
  fun h _ => ite_eq_apply_ite (withHost h) Iff.rfl rfl rfl

theorem hostBlind_compareCookie (payload : List Byte) (c : U64) : HostBlind (compareCookie payload c) :=
  fun h _ => ite_eq_apply_ite (withHost h) Iff.rfl rfl rfl

theorem hostBlind_checkCookie (payload : List Byte) : HostBlind (checkCookie payload) := by
  intro h s
  refine ite_eq_apply_ite (withHost h) Iff.rfl rfl ?_
  simp only [withHost_regs, getSecret_withHost, cookieOperand_withHost]
  cases getSecret s.regs.now (payload.getD 8 0) s with
  | none => rfl
  | some kt =>
    simp only [Option.map_some, Prod.map, id]
    cases cookieOperand s kt.1 with
    | none => rfl
    | some c => exact hostBlind_compareCookie payload c h kt.2

theorem afterDispatch_withHost {own : State → State} (hown : HostBlind own) (size : Nat) (version : U32)
    (payload : List Byte) (h : HostSide) (s : State) :
    afterDispatch size version payload own (withHost h s) = withHost h (afterDispatch size version payload own s) :=
  ite_eq_apply_ite (withHost h) Iff.rfl rfl (ite_eq_apply_ite (withHost h) Iff.rfl rfl (hown h s))

theorem dispatchPacket_withHost (p : ClientPacket) (h : HostSide) (s : State) :
    dispatchPacket p (withHost h s) = outcomeWithHost h (dispatchPacket p s) := by
  obtain ⟨c, version, payload⟩ := p
  cases c with
  | getCookie => exact congrArg _ (afterDispatch_withHost (hostBlind_checkTimestamp payload) ..)
  | getPuzzle => exact congrArg _ (afterDispatch_withHost (hostBlind_checkCookie payload) ..)
  | setCookie | setPuzzle | resetPuzzle => exact congrArg _ (afterDispatch_withHost hostBlind_acceptPacket ..)
  | solvePuzzle | reset => rfl

/-- Every instruction does the same whatever the host's side is, and leaves it as it is (R75). -/
theorem exec_withHost (i : Instr) (h : HostSide) (s : State) :
    exec i (withHost h s) = outcomeWithHost h (exec i s) := by
  cases i with
  | sipSetup | getCurrentSecret => rfl
  | buildGetCookie =>
    exact congrArg Host.Outcome.next (hostBlind_reply (getCookieReply s.regs.now (draw4 s).1) h (draw4 s).2)
  | buildReset | buildResetPuzzle => exact congrArg Host.Outcome.next (hostBlind_reply _ h s)
  | sipUpdate =>
    refine ite_eq_apply_ite (outcomeWithHost h) Iff.rfl rfl ?_
    simp only [hashInput_withHost]
    cases hashInput s <;> rfl
  | sipFinalize => exact ite_eq_apply_ite (outcomeWithHost h) Iff.rfl rfl rfl
  | sipOneshot =>
    simp only [exec, execSipOneshot, hashInput_withHost]
    cases hashInput s <;> rfl
  | getSecret =>
    simp only [exec, execGetSecret, withHost_regs, getSecret_withHost]
    cases getSecret s.regs.now s.regs.pktIndex s <;> rfl
  | computeCookie =>
    simp only [exec, execComputeCookie, keyOperand_withHost, cookieOperand_withHost]
    cases cookieOperand s (keyOperand s) <;> rfl
  | validate =>
    refine ite_eq_apply_ite (outcomeWithHost h) Iff.rfl rfl ?_
    simp only [packetOperand_withHost]
    cases decodePacket (packetOperand s) with
    | error r => rfl
    | ok p => exact dispatchPacket_withHost p h s
  | buildSetCookie =>
    simp only [exec, execBuildSetCookie, withHost_regs, lookupSecret_withHost, cookieOperand_withHost,
      triggerError_withHost, setCookieTrailer_withHost]
    cases cookieOperand s (lookupSecret s.regs.now (currentIndex s.regs.now) s).1 with
    | none => rfl
    | some c =>
      cases triggerError s with
      | some e => rfl
      | none => exact congrArg Host.Outcome.next (hostBlind_cookieReply _ _ _ h _)
  | wireGetCookie v payload => exact dispatchPacket_withHost ⟨.getCookie, v, payload⟩ h s
  | wireSetCookie v payload => exact dispatchPacket_withHost ⟨.setCookie, v, payload⟩ h s
  | wireGetPuzzle v payload => exact dispatchPacket_withHost ⟨.getPuzzle, v, payload⟩ h s
  | wireSetPuzzle v payload => exact dispatchPacket_withHost ⟨.setPuzzle, v, payload⟩ h s
  | wireSolvePuzzle v payload => exact dispatchPacket_withHost ⟨.solvePuzzle, v, payload⟩ h s
  | wireResetPuzzle v payload => exact dispatchPacket_withHost ⟨.resetPuzzle, v, payload⟩ h s
  | wireReset v payload => exact dispatchPacket_withHost ⟨.reset, v, payload⟩ h s

/-! ## The run of a command in flight (R72, R347) -/

/-- A host write while a command is in flight reaches `WERR` alone (R73). -/
theorem writeOffset_busy (off : Nat) (v : U32) {s : State} (hb : s.status.busy = true) :
    ∃ werr, writeOffset off v s = withHost { hostSide s with werr := werr } s := by
  rcases writeOffset_cases off v s with ⟨-, e⟩ | ⟨r, -, ⟨hidle, -⟩ | ⟨-, -, e⟩ | ⟨-, -, e⟩⟩
  · exact ⟨s.status.werr, e⟩
  · simp [hb] at hidle
  · exact ⟨_, e.trans (writeStatusClr_eq v s)⟩
  · exact ⟨true, e⟩

/-- What an access other than the reset input does while a command is in flight. -/
theorem perform_busy {a : HostAccess} (hwf : a.wf = true) (hreset : a ≠ .reset) {s : State}
    (hb : s.status.busy = true) :
    ∃ werr observed, perform a s = .next (withHost ⟨werr, s.env.pending, observed, s.env.wait⟩ s) := by
  obtain ⟨t, ht⟩ := perform_of_wf hwf s
  rw [ht]
  rcases perform_cases ht with ⟨off, -, -, -, rfl⟩ | ⟨off, v, -, -, -, rfl⟩ | ⟨rfl, -⟩
  · exact ⟨_, _, rfl⟩
  · obtain ⟨werr, e⟩ := writeOffset_busy off v hb
    exact ⟨werr, _, congrArg _ e⟩
  · exact absurd rfl hreset

/-- A step of a command in flight whose time is not up changes the host's side alone: the time left is one less, and no
access is issued. -/
theorem step_in_flight {s : State} (hb : s.status.busy = true) (hw : s.env.wait ≠ 0)
    (hp : ∀ a ∈ s.env.pending, a.wf = true ∧ a ≠ .reset) :
    ∃ h : HostSide, step s = .next (withHost h s) ∧ h.wait = s.env.wait - 1 ∧
      ∀ a ∈ h.pending, a ∈ s.env.pending := by
  cases hpend : s.env.pending with
  | nil =>
    refine ⟨{ hostSide s with wait := s.env.wait - 1 }, ?_, rfl, by simp [hostSide, hpend]⟩
    rw [step_of_no_pending (by simp [completesNow, hw]) hpend, if_pos hb]
    rfl
  | cons a rest =>
    obtain ⟨hwf, hreset⟩ := hp a (by simp [hpend])
    obtain ⟨werr, observed, e⟩ := perform_busy hwf hreset
      (s := { s with env := { s.env with pending := rest, wait := s.env.wait - 1 } }) hb
    exact ⟨_, (step_busy hb hw hpend).trans e, rfl, fun _ => List.mem_cons_of_mem a⟩

theorem run_one (s : State) : Host.Core.run core 1 s = step s := by
  cases h : core.step s <;> exact Eq.trans (by simp only [Host.Core.run, h]) h.symm

theorem run_succ_of_next {s t : State} (h : step s = .next t) (n : Nat) :
    Host.Core.run core (n + 1) s = Host.Core.run core n t := by
  have h' : core.step s = .next t := h
  simp only [Host.Core.run, h']

/-- A command in flight comes to its completion step with the host's side alone changed. -/
theorem run_in_flight {s : State} (hb : s.status.busy = true)
    (hp : ∀ a ∈ s.env.pending, a.wf = true ∧ a ≠ .reset) :
    ∃ h : HostSide, h.wait = 0 ∧ Host.Core.run core (s.env.wait + 1) s = step (withHost h s) := by
  induction hn : s.env.wait generalizing s with
  | zero => exact ⟨hostSide s, hn, by rw [withHost_hostSide, run_one]⟩
  | succ n ih =>
    obtain ⟨g, hstep, hwait, hmem⟩ := step_in_flight hb (by omega) hp
    obtain ⟨h, h0, hrun⟩ := ih (s := withHost g s) hb (fun a ha => hp a (hmem a ha)) (by show g.wait = n; omega)
    rw [withHost_withHost] at hrun
    exact ⟨h, h0, (run_succ_of_next hstep (n + 1)).trans hrun⟩

/-- Settles O55: the run ends with the completion step of the state it starts from, but for the host's side. -/
theorem commandsAreAtomic : Obligations.CommandsAreAtomic := by
  intro s hb hp hreset
  obtain ⟨h, h0, hrun⟩ := run_in_flight hb fun a ha => ⟨hp a ha, fun e => hreset (e ▸ ha)⟩
  have hc : completesNow (withHost h s) = true := by simp [completesNow, withHost, hb, h0]
  rw [hrun]
  cases hd : decodeCommand s.cmd with
  | ok i =>
    obtain ⟨u, hu, hbusy, hdone, -⟩ := everyInstructionCompletes i s
    refine ⟨withHost h u, ?_, hbusy, hdone, fun j hj => ?_, by simp⟩
    · show step (withHost h s) = .next (withHost h u)
      rw [step_of_completes hc hd, exec_withHost, hu, outcomeWithHost_next]
    · obtain rfl : i = j := Except.ok.inj hj
      exact ⟨u, hu, rfl, rfl, rfl, rfl, rfl, rfl, rfl, rfl⟩
  | error e =>
    exact ⟨_, step_of_illegal hc hd, rfl, rfl, by simp, fun _ _ => ⟨rfl, rfl, rfl, rfl, rfl, rfl, rfl, rfl, rfl⟩⟩

end Sys2Proof.Machine

namespace Sys2Proof

/-! ## Command words (30_encoding R90 to R93) -/

@[simp] theorem extractLsb'_commandWord_op (op : Byte) : (commandWord op).extractLsb' 0 8 = op := by
  apply BitVec.eq_of_toNat_eq
  have : op.toNat < 256 := op.isLt
  simpa [commandWord]

@[simp] theorem extractLsb'_commandWord_rsvd (op : Byte) : (commandWord op).extractLsb' 8 24 = 0 := by
  apply BitVec.eq_of_toNat_eq
  have : op.toNat < 256 := op.isLt
  simp [commandWord, Nat.shiftRight_eq_div_pow]
  omega

/-- No opcode stands twice in the opcode map, so a lookup finds each entry. -/
theorem opcodeMap_lookup : ∀ e ∈ opcodeMap, opcodeMap.lookup e.1 = some e.2 := by decide

theorem opcodeMap_encode : ∀ e ∈ opcodeMap, encode e.2 = .command (commandWord e.1) := by decide

theorem decodeCommand_eq_ok {w : U32} {i : Instr} :
    decodeCommand w = .ok i ↔ ∃ op, (op, i) ∈ opcodeMap ∧ w = commandWord op := by
  constructor
  · intro h
    unfold decodeCommand at h
    split at h
    · cases h
    · next hrsvd =>
      split at h
      · next j hop =>
        obtain rfl : j = i := Except.ok.inj h
        exact ⟨_, mem_of_lookup hop, (commandWord_of_rsvd (not_not.mp hrsvd)).symm⟩
      · cases h
  · rintro ⟨op, hop, rfl⟩
    simp [decodeCommand, opcodeMap_lookup _ hop]

/-- The two forms of an encoding: the word of an entry of the opcode map, or the bytes of a client packet. -/
theorem encode_cases (i : Instr) :
    (∃ op, (op, i) ∈ opcodeMap ∧ encode i = .command (commandWord op)) ∨
    ∃ p : ClientPacket, p.toInstr = i ∧ encode i = .packet (encodePacket p) := by
  cases i with
  | wireGetCookie v q | wireSetCookie v q | wireGetPuzzle v q | wireSetPuzzle v q | wireSolvePuzzle v q
  | wireResetPuzzle v q | wireReset v q => exact .inr ⟨⟨_, v, q⟩, rfl, rfl⟩
  | _ => exact .inl ⟨_, by decide, rfl⟩

theorem encode_eq_command {w : U32} {i : Instr} :
    encode i = .command w ↔ ∃ op, (op, i) ∈ opcodeMap ∧ w = commandWord op := by
  constructor
  · intro h
    rcases encode_cases i with ⟨op, hop, e⟩ | ⟨p, -, e⟩
    · exact ⟨op, hop, Encoded.command.inj (h.symm.trans e)⟩
    · cases h.symm.trans e
  · rintro ⟨op, hop, rfl⟩
    exact opcodeMap_encode _ hop

/-! ## Client packets (30_encoding R100 to R110) -/

/-- A packet decodes when every header check passes, and its fields are then those at the offsets of R100. -/
theorem decodePacket_eq_ok {P : List Byte} {p : ClientPacket} :
    decodePacket P = .ok p ↔
      18 ≤ P.length ∧ slice P 0 8 = tagBytes ∧ be16 (slice P 8 10) = packetId ∧ be16 (slice P 10 12) = clientId ∧
      P.getD 12 0 = flagsByte ∧ wireCommandOf (P.getD 17 0) = some p.command ∧
      be32 (slice P 13 17) = p.version ∧ P.drop 18 = p.payload := by
  obtain ⟨c, v, q⟩ := p
  unfold decodePacket
  split_ifs with hlen htag hid hclient hflags
  · have : ¬ 18 ≤ P.length := Nat.not_le.mpr hlen
    simp [this]
  · simp [htag]
  · simp [hid]
  · simp [hclient]
  · simp only [hflags, false_and, and_false]
  · have : 18 ≤ P.length := Nat.not_lt.mp hlen
    rw [not_not] at htag hid hclient hflags
    cases wireCommandOf (P.getD 17 0) with
    | none => simp
    | some d => simp only [this, htag, hid, hclient, hflags, Except.ok.injEq, ClientPacket.mk.injEq,
        Option.some.injEq, true_and]

theorem decodePacket_encodePacket (p : ClientPacket) : decodePacket (encodePacket p) = .ok p := by
  refine decodePacket_eq_ok.mpr ⟨by simp, ?_⟩
  rw [encodePacket_eq]
  exact ⟨rfl, rfl, rfl, rfl, wireCommandOf_code _, be32_be32bytes _, rfl⟩

theorem eq_encodePacket_of_decodePacket {P : List Byte} {p : ClientPacket} (h : decodePacket P = .ok p) :
    P = encodePacket p := by
  obtain ⟨hlen, htag, hid, hclient, hflags, hcmd, hver, hpay⟩ := decodePacket_eq_ok.mp h
  rw [encodePacket, headerConstants, ← htag, ← hid, ← hclient, ← hflags, ← hver, ← hpay,
    ← wireCommandOf_eq_some hcmd]
  obtain ⟨_, _, _, _, _, _, _, _, _, _, _, _, _, _, _, _, _, _, _, rfl⟩ := eighteen_bytes hlen
  simp [slice, be16bytes_be16, be32bytes_be32]

theorem decode_command {w : U32} {i : Instr} (h : decodeCommand w = .ok i) : decode (.command w) = .ok i := by
  simp only [decode, h]

theorem decode_packet {P : List Byte} {p : ClientPacket} (h : decodePacket P = .ok p) :
    decode (.packet P) = .ok p.toInstr := by
  simp only [decode, h]

end Sys2Proof

namespace Sys2Proof.Machine

/-- Settles O2: both sides say that the word is that of the instruction's entry in the opcode map. -/
theorem commandWordsExact : Obligations.CommandWordsExact :=
  fun _ _ => decodeCommand_eq_ok.trans encode_eq_command.symm

/-- Settles O3: the header checks pin the 18 header bytes of R100, and the rest is the payload. -/
theorem packetDecodingExact : Obligations.PacketDecodingExact :=
  fun _ p => ⟨eq_encodePacket_of_decodePacket, fun h => h ▸ decodePacket_encodePacket p⟩

/-- Settles O1, by the two forms of an encoding. -/
theorem decodeEncodeAgree : Obligations.DecodeEncodeAgree := by
  intro i
  rcases encode_cases i with ⟨op, hop, e⟩ | ⟨p, rfl, e⟩ <;> rw [e]
  · exact decode_command (decodeCommand_eq_ok.mpr ⟨op, hop, rfl⟩)
  · exact decode_packet (decodePacket_encodePacket p)

/-- Settles O5: the legal words and the packet are encodings; the two illegal words are evaluated. -/
theorem specWordsDecode : Obligations.SpecWordsDecode := by
  have hpacket := decodeEncodeAgree
    (.wireGetCookie 0x5F5E1000 [0x65, 0x53, 0xF1, 0x00, 0xA1, 0xB2, 0xC3, 0xD4, 0, 0, 0, 0, 0, 0, 0, 0])
  rw [encode, encodePacket_eq] at hpacket
  exact ⟨(commandWordsExact _ .sipSetup).mpr rfl, (commandWordsExact _ .getCurrentSecret).mpr rfl,
    (commandWordsExact _ .computeCookie).mpr rfl, (commandWordsExact _ .validate).mpr rfl,
    (commandWordsExact _ .buildResetPuzzle).mpr rfl, by decide, by decide, hpacket⟩

/-! ## The illegal command (R93) -/

/-- The words of the opcode map as R93 speaks of them: `RSVD` is 0 and `OP` is an assigned code. -/
theorem opcodeMap_legal : ∀ e ∈ opcodeMap,
    commandWord e.1 >>> 8 = 0 ∧ commandWord e.1 &&& 0xFF ∈
      ([0x01, 0x02, 0x03, 0x04, 0x10, 0x11, 0x20, 0x30, 0x40, 0x41, 0x42, 0x43] : List U32) := by decide

/-- Settles O8: an illegal word is the word of no entry of the opcode map, so its decode is an error. -/
theorem illegalCommandEffect : Obligations.IllegalCommandEffect := by
  intro w hw
  have hnone : ∀ i, encode i ≠ .command w := by
    intro i h
    obtain ⟨op, hop, rfl⟩ := encode_eq_command.mp h
    obtain ⟨hrsvd, hassigned⟩ := opcodeMap_legal _ hop
    exact hw.elim (· hrsvd) (· hassigned)
  refine ⟨hnone, fun s rest hb hp => (commandAcceptance s w rest hp).1 hb, ?_⟩
  rintro s hb hwait rfl
  cases hd : decodeCommand s.cmd with
  | ok i => exact absurd ((commandWordsExact _ i).mp hd) (hnone i)
  | error e => exact step_of_illegal (by simp [completesNow, hb, hwait]) hd

/-! ## Wire commands with a length check only, and those without a size (R228, R237) -/

theorem versionTooOld_eq_true {version : U32} {s : State} :
    versionTooOld version s = true ↔ minverEn s = true ∧ version < s.regs.minClientVersion := by
  simp [versionTooOld]

/-- With the table's payload size and a version that passes, the command's own check decides. -/
theorem afterDispatch_passed {size : Nat} {version : U32} {payload : List Byte} {own : State → State} {s : State}
    (hlen : payload.length = size) (hver : ¬ (minverEn s = true ∧ version < s.regs.minClientVersion)) :
    afterDispatch size version payload own s = own s := by
  have hpass : ¬ versionTooOld version s = true := mt versionTooOld_eq_true.mp hver
  rw [afterDispatch, if_neg (not_not.mpr hlen), if_neg hpass]

/-- Settles O39: the own check of each of the three commands is acceptance. -/
theorem lengthOnlyCommandsAccepted : Obligations.LengthOnlyCommandsAccepted := by
  intro s version payload hver
  have accepted {size : Nat} (hlen : payload.length = size) :=
    (afterDispatch_passed hlen hver).trans (acceptPacket_eq s)
  exact ⟨fun h => congrArg Host.Outcome.next (accepted h), fun h => congrArg Host.Outcome.next (accepted h),
    fun h => congrArg Host.Outcome.next (accepted h)⟩

/-- Settles O43: dispatch rejects both commands before any other check. -/
theorem sizelessCommandsRejected : Obligations.SizelessCommandsRejected := by
  rintro s version payload i (rfl | rfl) <;> exact congrArg Host.Outcome.next (reject_eq .unknownCommand s)

end Sys2Proof.Machine

namespace Sys2Proof.Machine

/-! ## The hash input (R31, R143) -/

theorem hashInput_of_le {s : State} (h : s.regs.updOff.toNat + s.regs.updLen.toNat ≤ 512) :
    hashInput s = some (hashedBytes s) := if_pos h

theorem hashInput_of_gt {s : State} (h : 512 < s.regs.updOff.toNat + s.regs.updLen.toNat) :
    hashInput s = none := if_neg (Nat.not_le.2 h)

/-! ## The SipHash commands (R140 to R146) -/

/-- Settles O20: the constants of R130 are those of `sipInit`. -/
theorem sipSetupResult : Obligations.SipSetupResult := fun _ => rfl

theorem exec_sip_inactive {s : State} (ha : s.sip.active = false) :
    exec .sipUpdate s = .next (raise .sipNotActive s) ∧ exec .sipFinalize s = .next (raise .sipNotActive s) :=
  ⟨if_pos ha, if_pos ha⟩

theorem exec_sipUpdate_input {s : State} (ha : s.sip.active = true) {B : List Byte} (hB : hashInput s = some B) :
    exec .sipUpdate s = .next (complete { s with sip := sipAbsorb s.sip B }) := by
  simp [exec, execSipUpdate, ha, hB]

theorem exec_sipUpdate_range {s : State} (ha : s.sip.active = true) (hB : hashInput s = none) :
    exec .sipUpdate s = .next (raise .range s) := by
  simp [exec, execSipUpdate, ha, hB]

theorem exec_sipFinalize_active {s : State} (ha : s.sip.active = true) :
    exec .sipFinalize s = .next (complete { s with
      res := { s.res with result := sipFinal s.sip.v s.sip.tail s.sip.count }
      sip := { s.sip with active := false } }) := if_neg (by simp [ha])

/-- Settles O21, by `SIP_ACTIVE` first and then by the range of the input. -/
theorem sipUpdateResult : Obligations.SipUpdateResult := by
  refine fun s => ⟨fun ha hle => ?_, fun ha => (exec_sip_inactive ha).1, fun ha hgt => ?_⟩
  · exact exec_sipUpdate_input ha (hashInput_of_le hle)
  · exact exec_sipUpdate_range ha (hashInput_of_gt hgt)

/-- Settles O23, by `SIP_ACTIVE`. -/
theorem sipFinalizeResult : Obligations.SipFinalizeResult :=
  fun _ => ⟨exec_sipFinalize_active, fun ha => (exec_sip_inactive ha).2⟩

/-- Settles O24, by the range of the input. -/
theorem sipOneshotResult : Obligations.SipOneshotResult := by
  refine fun s => ⟨fun hle => ?_, fun hgt => ?_⟩
  · simp only [exec, execSipOneshot, hashInput_of_le hle]
    rfl
  · simp only [exec, execSipOneshot, hashInput_of_gt hgt]
    rfl

/-! ## Absorbing one byte (R137) -/

/-- A tail of `n` bytes with one more byte set above them: the places do not overlap, so the value is the sum. -/
theorem toNat_tail_or_byte {tail : U64} {n : Nat} (hn : n < 8) (h : tail.toNat < 2 ^ (8 * n)) (x : Byte) :
    (tail ||| (x.setWidth 64 <<< (8 * n))).toNat = tail.toNat + x.toNat * 2 ^ (8 * n) := by
  have hfits : x.toNat * 2 ^ (8 * n) < 2 ^ 64 :=
    calc x.toNat * 2 ^ (8 * n) < 2 ^ 8 * 2 ^ (8 * n) := Nat.mul_lt_mul_of_pos_right x.isLt (Nat.two_pow_pos _)
      _ = 2 ^ (8 + 8 * n) := (Nat.pow_add ..).symm
      _ ≤ 2 ^ 64 := Nat.pow_le_pow_right (by decide) (by omega)
  rw [BitVec.toNat_or, BitVec.toNat_shiftLeft, BitVec.toNat_setWidth_of_le (by decide), Nat.shiftLeft_eq,
    Nat.mod_eq_of_lt hfits, ← Nat.shiftLeft_eq, Nat.or_comm, ← Nat.shiftLeft_add_eq_or_of_lt h, Nat.add_comm]

theorem sipAbsorbByte_partial {st : Sip} (h : st.ntail.toNat < 7) (x : Byte) :
    sipAbsorbByte st x = { st with
      tail := st.tail ||| (x.setWidth 64 <<< (8 * st.ntail.toNat)), ntail := st.ntail + 1, count := st.count + 1 } :=
  if_neg (by omega)

theorem sipAbsorbByte_full {st : Sip} (h : st.ntail.toNat = 7) (x : Byte) :
    sipAbsorbByte st x = { st with
      v := sipCompress st.v (st.tail ||| (x.setWidth 64 <<< (8 * 7)))
      tail := 0, ntail := 0, count := st.count + 1 } := by
  rw [← h]
  exact if_pos (by rw [h])

/-- Settles O22, by whether the byte is the eighth of its block. -/
theorem sipAbsorbsByByte : Obligations.SipAbsorbsByByte := by
  rintro st x ⟨-, htail⟩
  refine ⟨fun hlt => ?_, fun hfull => ?_, sipAbsorbByte_count st x, sipAbsorbByte_active st x⟩
  · rw [sipAbsorbByte_partial hlt]
    refine ⟨toNat_tail_or_byte (by omega) htail x, ?_, rfl⟩
    rw [BitVec.toNat_add, show (1 : BitVec 3).toNat = 1 from rfl]
    omega
  · rw [sipAbsorbByte_full hfull]
    rw [hfull] at htail
    refine ⟨congrArg (sipCompress st.v) ?_, rfl, rfl⟩
    rw [← toNat_tail_or_byte (by decide) htail x, BitVec.ofNat_toNat, BitVec.setWidth_eq]

end Sys2Proof.Machine

namespace Sys2Proof.Machine

/-! ## The incremental hash of a whole message (R135, R138) -/

/-- The incremental state that stands for a message absorbed under a key: the blocks of R135 compressed, the bytes after
them in the tail. -/
def sipAfter (k : SipKey) (M : List Byte) : Sip where
  v := sipBlocks (M.length / 8) M (sipInit k)
  tail := le64 (M.drop (8 * (M.length / 8)))
  ntail := BitVec.ofNat 3 M.length
  count := BitVec.ofNat 64 M.length
  active := true

theorem sipFinal_sipAfter (k : SipKey) (M : List Byte) :
    sipFinal (sipAfter k M).v (sipAfter k M).tail (sipAfter k M).count = sipHash k M := rfl

theorem sipAfter_ntail_toNat (k : SipKey) (M : List Byte) : (sipAfter k M).ntail.toNat = M.length % 8 :=
  BitVec.toNat_ofNat ..

/-- Bytes past the blocks do not matter to them. -/
theorem sipBlocks_append {n : Nat} {A : List Byte} (h : 8 * n ≤ A.length) (B : List Byte) (v : SipV) :
    sipBlocks n (A ++ B) v = sipBlocks n A v := by
  induction n generalizing A v with
  | zero => rfl
  | succ n ih =>
    rw [sipBlocks, sipBlocks, List.take_append_of_le_length (by omega), List.drop_append_of_le_length (by omega)]
    exact ih (by rw [List.length_drop]; omega) _

/-- The last block is compressed after the others. -/
theorem sipBlocks_succ (n : Nat) (M : List Byte) (v : SipV) :
    sipBlocks (n + 1) M v = sipCompress (sipBlocks n M v) (le64 ((M.drop (8 * n)).take 8)) := by
  induction n generalizing M v with
  | zero => rfl
  | succ n ih =>
    rw [sipBlocks, ih, List.drop_drop, show 8 + 8 * n = 8 * (n + 1) by omega]
    rfl

/-- Up to eight bytes fit the word. -/
theorem toNat_le64 {B : List Byte} (h : B.length ≤ 8) : (le64 B).toNat = leNat B := by
  rw [le64, BitVec.toNat_ofNat, Nat.mod_eq_of_lt]
  exact Nat.lt_of_lt_of_le (leNat_lt B) (Nat.pow_le_pow_right (by decide) h)

/-- One more byte stands above the bytes buffered. -/
theorem le64_snoc {B : List Byte} (h : B.length < 8) (x : Byte) :
    le64 (B ++ [x]) = le64 B ||| (x.setWidth 64 <<< (8 * B.length)) := by
  have hpow : 256 ^ B.length = 2 ^ (8 * B.length) := by rw [Nat.pow_mul]
  have hB : (le64 B).toNat < 2 ^ (8 * B.length) := by
    rw [toNat_le64 (Nat.le_of_lt h), ← hpow]
    exact leNat_lt B
  apply BitVec.eq_of_toNat_eq
  rw [toNat_tail_or_byte h hB, toNat_le64 (Nat.le_of_lt h), toNat_le64 (by simpa using h), leNat_append, hpow, leNat,
    leNat, Nat.mul_zero, Nat.add_zero, Nat.mul_comm]

/-- The bytes of a message from its last block boundary on, with one byte more: it stands above the tail. -/
theorem le64_drop_snoc (k : SipKey) (M : List Byte) (x : Byte) :
    le64 ((M ++ [x]).drop (8 * (M.length / 8))) =
      (sipAfter k M).tail ||| (x.setWidth 64 <<< (8 * (M.length % 8))) := by
  have hbuffered : (M.drop (8 * (M.length / 8))).length = M.length % 8 := by rw [List.length_drop]; omega
  rw [List.drop_append_of_le_length (by omega), le64_snoc (by omega), hbuffered]
  rfl

/-- Inside a block the next byte joins the tail. -/
theorem sipAfter_snoc_partial (k : SipKey) {M : List Byte} (h : M.length % 8 < 7) (x : Byte) :
    sipAfter k (M ++ [x]) = { sipAfter k M with
      tail := (sipAfter k M).tail ||| (x.setWidth 64 <<< (8 * (M.length % 8)))
      ntail := (sipAfter k M).ntail + 1, count := (sipAfter k M).count + 1 } := by
  have hlength : (M ++ [x]).length = M.length + 1 := by simp
  have hquot : (M.length + 1) / 8 = M.length / 8 := by omega
  rw [sipAfter, hlength, hquot, sipBlocks_append (by omega), le64_drop_snoc k, BitVec.ofNat_add, BitVec.ofNat_add]
  rfl

/-- The eighth byte of a block ends it. -/
theorem sipAfter_snoc_full (k : SipKey) {M : List Byte} (h : M.length % 8 = 7) (x : Byte) :
    sipAfter k (M ++ [x]) = { sipAfter k M with
      v := sipCompress (sipAfter k M).v ((sipAfter k M).tail ||| (x.setWidth 64 <<< (8 * 7)))
      tail := 0, ntail := 0, count := (sipAfter k M).count + 1 } := by
  have hlength : (M ++ [x]).length = M.length + 1 := by simp
  have hquot : (M.length + 1) / 8 = M.length / 8 + 1 := by omega
  have hblock : ((M ++ [x]).drop (8 * (M.length / 8))).take 8 = (M ++ [x]).drop (8 * (M.length / 8)) :=
    List.take_of_length_le (by rw [List.length_drop, hlength]; omega)
  have hrest : (M ++ [x]).drop (8 * (M.length / 8 + 1)) = [] := List.drop_of_length_le (by rw [hlength]; omega)
  have hntail : BitVec.ofNat 3 (M.length + 1) = 0 :=
    BitVec.eq_of_toNat_eq ((BitVec.toNat_ofNat ..).trans (show (M.length + 1) % 2 ^ 3 = 0 by omega))
  rw [sipAfter, hlength, hquot, hrest, sipBlocks_succ, hblock, sipBlocks_append (by omega), le64_drop_snoc k, h, hntail,
    BitVec.ofNat_add]
  rfl

theorem sipAbsorbByte_sipAfter (k : SipKey) (M : List Byte) (x : Byte) :
    sipAbsorbByte (sipAfter k M) x = sipAfter k (M ++ [x]) := by
  have hntail := sipAfter_ntail_toNat k M
  rcases Nat.lt_or_eq_of_le (show M.length % 8 ≤ 7 by omega) with hlt | hfull
  · rw [sipAbsorbByte_partial (hntail.trans_lt hlt), hntail, sipAfter_snoc_partial k hlt]
  · rw [sipAbsorbByte_full (hntail.trans hfull), sipAfter_snoc_full k hfull]

theorem sipAbsorb_sipStart (k : SipKey) (M : List Byte) : sipAbsorb (sipStart k) M = sipAfter k M := by
  induction M using List.reverseRecOn with
  | nil => rfl
  | append_singleton M x ih => rw [sipAbsorb_append, ih, sipAbsorb_cons, sipAbsorbByte_sipAfter, sipAbsorb_nil]

/-- Settles O25: the chunks one after the other are their concatenation, and that leaves the state of the whole. -/
theorem chunkedHashEqualsWhole : Obligations.ChunkedHashEqualsWhole := by
  intro k chunks
  have hwhole : chunks.foldl sipAbsorb (sipStart k) = sipAfter k chunks.flatten :=
    List.foldl_flatten.symm.trans (sipAbsorb_sipStart k chunks.flatten)
  simp only [hwhole]
  exact sipFinal_sipAfter k chunks.flatten

/-! ## The streaming contract (R136) -/

theorem writeRegIdle_sip (r : Reg) (v : U32) (s : State) : (writeRegIdle r v s).sip = s.sip := by
  cases r with
  | statusClr => rw [writeRegIdle, writeStatusClr_eq]
  | _ => rfl

/-- No host write reaches the incremental state (R50). -/
theorem writeOffset_sip (off : Nat) (v : U32) (s : State) : (writeOffset off v s).sip = s.sip := by
  rcases writeOffset_cases off v s with ⟨-, e⟩ | ⟨r, -, ⟨-, e⟩ | ⟨-, -, e⟩ | ⟨-, -, e⟩⟩ <;> rw [e]
  · exact writeRegIdle_sip r v s
  · rw [writeStatusClr_eq]
  · exact setWerr_sip s

/-- Only the three incremental commands and the reset input change the incremental state (R50, R52). -/
theorem step_sip {s t : State} (h1 : ¬ Completes .sipSetup s) (h2 : ¬ Completes .sipUpdate s)
    (h3 : ¬ Completes .sipFinalize s) (hr : ¬ TakesReset s) (h : step s = .next t) : t.sip = s.sip := by
  rcases step_cases h with ⟨hc, i, hd, he⟩ | ⟨-, -, rfl⟩ | ⟨hc, hh⟩
  · have hne {j : Instr} (hj : ¬ Completes j s) : i ≠ j := fun hij => hj ⟨hc, hij ▸ hd⟩
    exact (incrementalStatePrivate i s t s.sip (hne h1) (hne h2) (hne h3) he).1
  · exact completeIllegal_sip s
  · cases stepEffect_of_hostTurn hc hh with
    | executes _ _ hc' | illegal hc' => rw [hc] at hc'; cases hc'
    | quiet => rfl
    | writes e off v => exact writeOffset_sip off v _
    | resets _ hreset => exact absurd hreset hr

theorem Completes.step_eq {i : Instr} {s : State} (h : Completes i s) : step s = exec i s :=
  step_of_completes h.1 h.2

/-- A hash in progress holds the state of the bytes its updates absorbed. -/
theorem sip_of_hashRun {k : SipKey} {M : List Byte} {s : State} (h : HashRun k M s) : s.sip = sipAfter k M := by
  induction h with
  | setup hc hk hs =>
    rw [hc.step_eq] at hs
    obtain rfl := Host.Outcome.next.inj hs
    exact (congrArg sipStart hk).trans (sipAbsorb_sipStart _ [])
  | update _ hc hB hs ih =>
    rw [hc.step_eq, exec_sipUpdate_input (by rw [ih]; rfl) hB] at hs
    obtain rfl := Host.Outcome.next.inj hs
    rw [complete_sip, ih, ← sipAbsorb_sipStart, ← sipAbsorb_append, sipAbsorb_sipStart]
  | other _ h1 h2 h3 hr hs ih => exact (step_sip h1 h2 h3 hr hs).trans ih
  | arrival _ _ ih => exact ih

/-- Settles O26: the state of a hash in progress stands for `M`, so ending it gives the hash of `M`. -/
theorem streamingContract : Obligations.StreamingContract := by
  intro k M s hrun hc
  have hsip := sip_of_hashRun hrun
  refine ⟨_, hc.step_eq.trans (exec_sipFinalize_active (by rw [hsip]; rfl)), ?_, rfl, rfl⟩
  rw [complete_res, hsip]
  exact sipFinal_sipAfter k M

end Sys2Proof.Machine

namespace Sys2Proof.Machine

/-! ## What a lookup answers (41_seed_cache R177, R182) -/

/-- Settles O28: by the cache invariant the serving slot holds the window's digest, hit or miss. -/
theorem cacheTransparency : Obligations.CacheTransparency := by
  intro s now p hok hp
  rcases getSecret_cases now p s with ⟨h8, -⟩ | ⟨-, e⟩
  · exact absurd h8 (BitVec.not_le.2 hp)
  · exact ⟨{ s with cache := lookupCache now p s }, by rw [e, key_lookupCache hok], rfl⟩

/-- The window of the index of issuance is the current one (R182). -/
theorem packetCacheTime_currentIndex (now : U64) : packetCacheTime now (currentIndex now) = floor4 now := by
  apply BitVec.eq_of_toNat_eq
  rw [packetCacheTime_toNat now (currentIndex_lt now), currentIndex_toNat, if_pos rfl, floor4_toNat]

/-- Settles O30: a lookup reads its index from its argument, not from the index register. -/
theorem getCurrentSecretDelegates : Obligations.GetCurrentSecretDelegates := by
  intro s _
  refine ⟨_, currentIndex s.regs.now, exec_getSecret_of_lt (currentIndex_lt _), rfl, currentIndex_toNat _, rfl, rfl,
    ?_⟩
  rw [packetCacheTime_currentIndex, floor4_toNat]

/-! ## The window of an index over time (41_seed_cache R183, R184) -/

theorem packetCacheTime_congr {now now' : U64} {p : Byte} (hp : p < 8) (h : now.toNat / 4 = now'.toNat / 4) :
    packetCacheTime now p = packetCacheTime now' p := by
  have hhalf : now.toNat % 8 / 4 = now'.toNat % 8 / 4 := by omega
  apply BitVec.eq_of_toNat_eq
  rw [packetCacheTime_toNat now hp, packetCacheTime_toNat now' hp, h, hhalf]

/-- Settles O31: the key depends on the time through the window alone. -/
theorem windowDependsOnBucket : Obligations.WindowDependsOnBucket := by
  intro s now now' p hp h
  have hwin := packetCacheTime_congr hp h
  exact ⟨hwin, by rw [windowKey, windowKey, hwin]⟩

/-- Settles O32: at `tv` the index of `t0` names the window of `tv` when both times lie in the same half of their 8
seconds, and else the window before it, which for `tv` below 4 is the last before 2^64 that the premise leaves out. -/
theorem issuedWindowLifetime : Obligations.IssuedWindowLifetime := by
  intro t0 tv hcorner
  have h0 := t0.isLt
  have hv := tv.isLt
  rw [← BitVec.toNat_inj, packetCacheTime_toNat tv (currentIndex_lt t0), currentIndex_toNat, floor4_toNat]
  split
  case isTrue sameHalf => omega
  case isFalse otherHalf => omega

end Sys2Proof.Machine

namespace Sys2Proof.Machine

/-! ## A cookie minted without an error (44_reply_builder R264, R265) -/

/-- The cookie that `BUILD_SET_COOKIE` mints, whatever the cache holds: that of the identity under the key of
issuance. -/
def mintedCookie (s : State) : U64 := identityCookie s (windowKey s s.regs.now (currentIndex s.regs.now))

/-- `BUILD_SET_COOKIE` without an error: the reply with the minted cookie, and the cache that the lookup left. -/
theorem exec_buildSetCookie_of_err_zero {s t : State} (hok : CacheOk s) (h : exec .buildSetCookie s = .next t)
    (herr : t.status.err = 0) :
    t = complete (writeCookieResult (mintedCookie s) (currentIndex s.regs.now)
      (writeReply (setCookieReply (mintedCookie s) (currentIndex s.regs.now) (setCookieTrailer s))
        { s with cache := lookupCache s.regs.now (currentIndex s.regs.now) s })) := by
  have hraise : ∀ e, t ≠ raise e s := by
    rintro e rfl
    have hcode := e.code_range.1
    rw [show e.code = 0 from herr] at hcode
    exact absurd hcode (by decide)
  simp only [exec, execBuildSetCookie, lookupSecret, key_lookupCache hok] at h
  rcases cookieOperand_cases s (windowKey s s.regs.now (currentIndex s.regs.now)) with ⟨-, hc⟩ | ⟨-, hc⟩ <;>
    rw [hc] at h
  · cases htrig : triggerError s with
    | some e => simp only [htrig] at h; exact absurd (Host.Outcome.next.inj h).symm (hraise e)
    | none => simp only [htrig] at h; exact (Host.Outcome.next.inj h).symm
  · exact absurd (Host.Outcome.next.inj h).symm (hraise .afUnsupported)

/-- A shorter read of `OUT_BUF` is the front of a longer one. -/
theorem take_outBytes (s : State) {n m : Nat} (h : n ≤ m) : (outBytes s 0 m).take n = outBytes s 0 n := by
  rw [outBytes, outBytes, ← List.map_take, List.take_range, Nat.min_eq_left h]

/-- The SET_COOKIE packet up to its index byte is fixed by the cookie and the index (R105, R264). -/
theorem outBytes_setCookieReply (c : U64) (p : Byte) (trailer : List Byte) (s : State) :
    outBytes (writeReply (setCookieReply c p trailer) s) 0 23 = serverHeader .setCookie ++ le64bytes c ++ [p] := by
  have hfront : (serverHeader .setCookie ++ le64bytes c ++ [p]).length = 23 := rfl
  have hlen : 23 ≤ (setCookieReply c p trailer).length := by
    rw [setCookieReply, List.length_append, hfront]
    exact Nat.le_add_right ..
  rw [← take_outBytes _ hlen, outBytes_writeReply, setCookieReply, ← hfront, List.take_left]

/-- What a `BUILD_SET_COOKIE` without an error leaves in `RESULT`, in `RES_INDEX` and in the reply up to the index. -/
theorem buildSetCookie_outputs {s t : State} (hok : CacheOk s) (h : exec .buildSetCookie s = .next t)
    (herr : t.status.err = 0) :
    t.res.result = mintedCookie s ∧ t.res.resIndex = currentIndex s.regs.now ∧
      outBytes t 0 23 = serverHeader .setCookie ++ le64bytes (mintedCookie s) ++ [currentIndex s.regs.now] := by
  obtain rfl := exec_buildSetCookie_of_err_zero hok h herr
  refine ⟨rfl, rfl, ?_⟩
  rw [outBytes_congr (fun a => (bufByte_complete _ a).trans (bufByte_writeCookieResult _ _ _ a))]
  exact outBytes_setCookieReply ..

theorem windowKey_congr {s s' : State} (h : s'.regs.masterSeed = s.regs.masterSeed) (now : U64) (p : Byte) :
    windowKey s' now p = windowKey s now p := by
  rw [windowKey, windowKey, masterSeedBytes_congr h]

/-- Settles O60: by transparency the cookie minted depends on the seed, the time and the identity alone. -/
theorem instancesAgree : Obligations.InstancesAgree := by
  intro s s' t t' hok hok' hseed hnow haf hsrc hdst hport h h' herr herr'
  obtain ⟨hres, hidx, hout⟩ := buildSetCookie_outputs hok h herr
  obtain ⟨hres', hidx', hout'⟩ := buildSetCookie_outputs hok' h' herr'
  have hminted : mintedCookie s' = mintedCookie s := by
    simp only [mintedCookie, identityCookie, identityMessage, identityLength, srcAddrBytes, dstAddrBytes,
      windowKey_congr hseed, hnow, haf, hsrc, hdst, hport]
  rw [hres, hres', hidx, hidx', hout, hout', hminted, hnow]
  exact ⟨rfl, rfl, rfl⟩

end Sys2Proof.Machine

namespace Sys2Proof.Machine

/-! ## The cookie of the identity operands (42_cookie R201 to R205) -/

theorem familySupported_eq_true {s : State} : familySupported s = true ↔ s.regs.af = 4 ∨ s.regs.af = 6 := by
  simp [familySupported]

theorem cookieOperand_of_supported {s : State} (h : familySupported s = true) (k : SipKey) :
    cookieOperand s k = some (identityCookie s k) := by
  rcases cookieOperand_cases s k with ⟨-, e⟩ | ⟨hno, -⟩
  · exact e
  · rw [h] at hno; cases hno

theorem cookieOperand_of_unsupported {s : State} (h : familySupported s = false) (k : SipKey) :
    cookieOperand s k = none := by
  rcases cookieOperand_cases s k with ⟨hyes, -⟩ | ⟨-, e⟩
  · rw [h] at hyes; cases hyes
  · exact e

theorem identityCookie_ipv4 {s : State} (h : s.regs.af = 4) (k : SipKey) :
    identityCookie s k = sipHash k (identityMessage s 4) := by
  rw [identityCookie, identityLength, if_pos h]

theorem identityCookie_ipv6 {s : State} (h : s.regs.af = 6) (k : SipKey) :
    identityCookie s k = sipHash k (identityMessage s 16) := by
  rw [identityCookie, identityLength, h, if_neg (by decide), if_pos rfl]

theorem exec_computeCookie_supported {s : State} (h : familySupported s = true) :
    exec .computeCookie s =
      .next (complete { s with res := { s.res with result := identityCookie s (keyOperand s) } }) := by
  simp only [exec, execComputeCookie, cookieOperand_of_supported h]

theorem exec_computeCookie_unsupported {s : State} (h : familySupported s = false) :
    exec .computeCookie s = .next (raise .afUnsupported s) := by
  simp only [exec, execComputeCookie, cookieOperand_of_unsupported h]

/-- Settles O34, by the family: a supported one has a cookie, whose message takes the address length of the family. -/
theorem computeCookieResult : Obligations.ComputeCookieResult := by
  refine fun s => ⟨fun h4 => ?ipv4, fun h6 => ?ipv6, fun hne4 hne6 => ?other⟩
  case ipv4 =>
    rw [exec_computeCookie_supported (familySupported_eq_true.2 (.inl h4)), identityCookie_ipv4 h4]
    rfl
  case ipv6 =>
    rw [exec_computeCookie_supported (familySupported_eq_true.2 (.inr h6)), identityCookie_ipv6 h6]
    rfl
  case other =>
    have hno : familySupported s = false :=
      Bool.eq_false_iff.2 fun h => (familySupported_eq_true.1 h).elim hne4 hne6
    exact exec_computeCookie_unsupported hno

end Sys2Proof.Machine

namespace Sys2Proof.Machine

/-! ## What `VALIDATE` runs (43_validator R221, R228, R230) -/

theorem exec_validate_range {s : State} (h : 512 < s.regs.inLen.toNat) :
    exec .validate s = .next (raiseLenRange s) := if_pos h

theorem exec_validate_malformed {s : State} (hlen : s.regs.inLen.toNat ≤ 512) {r : PacketReject}
    (hP : decodePacket (packetOperand s) = .error r) : exec .validate s = .next (reject (rejectReasonOf r) s) := by
  have hfits : ¬ s.regs.inLen.toNat > Config.inBufSize := Nat.not_lt.2 hlen
  simp only [exec, execValidate, if_neg hfits, hP]

theorem exec_validate_decoded {s : State} (hlen : s.regs.inLen.toNat ≤ 512) {p : ClientPacket}
    (hP : decodePacket (packetOperand s) = .ok p) : exec .validate s = dispatchPacket p s := by
  have hfits : ¬ s.regs.inLen.toNat > Config.inBufSize := Nat.not_lt.2 hlen
  simp only [exec, execValidate, if_neg hfits, hP]

theorem exec_toInstr (p : ClientPacket) (s : State) : exec p.toInstr s = dispatchPacket p s := by
  obtain ⟨c, v, payload⟩ := p
  cases c <;> rfl

theorem decode_packet_eq_ok {P : List Byte} {i : Instr} (h : decode (.packet P) = .ok i) :
    ∃ p, decodePacket P = .ok p ∧ p.toInstr = i := by
  simp only [decode] at h
  cases hP : decodePacket P with
  | error r => simp [hP] at h
  | ok p => exact ⟨p, rfl, by simpa [hP] using h⟩

@[simp] theorem packetOperand_length (s : State) : (packetOperand s).length = s.regs.inLen.toNat :=
  inBytes_length ..

/-- Settles O7: `VALIDATE` dispatches the decoded packet, which is what the packet's instruction does. -/
theorem stepRunsPacket : Obligations.StepRunsPacket := by
  intro s i hb hw hcmd hlen hdec
  obtain ⟨p, hP, rfl⟩ := decode_packet_eq_ok hdec
  have hvalidate : decodeCommand s.cmd = .ok .validate := by
    rw [hcmd]
    exact (commandWordsExact _ .validate).mpr rfl
  rw [stepRunsCommand s .validate hb hw hvalidate, exec_validate_decoded hlen hP, exec_toInstr]

/-- Settles O36, by the range check alone. -/
theorem validateLengthRange : Obligations.ValidateLengthRange :=
  fun s h => (exec_validate_range h).trans (congrArg Host.Outcome.next (raiseLenRange_eq s))

/-! ## Length, then version (R229, R231) -/

theorem afterDispatch_badLength {size : Nat} {payload : List Byte} (h : payload.length ≠ size) (version : U32)
    (own : State → State) (s : State) : afterDispatch size version payload own s = reject .badLength s := if_pos h

theorem afterDispatch_oldVersion {size : Nat} {version : U32} {payload : List Byte} {s : State}
    (hlen : payload.length = size) (hen : minverEn s = true) (hver : version < s.regs.minClientVersion)
    (own : State → State) : afterDispatch size version payload own s = reject .oldVersion s := by
  rw [afterDispatch, if_neg (not_not.mpr hlen), if_pos (versionTooOld_eq_true.mpr ⟨hen, hver⟩)]

/-- Settles O42: each of the five commands is `afterDispatch` with its table size. -/
theorem lengthThenVersionRejects : Obligations.LengthThenVersionRejects := by
  intro s version payload i size hi
  have hown : ∃ own, exec i s = .next (afterDispatch size version payload own s) := by
    simp only [List.mem_cons, Prod.mk.injEq, List.not_mem_nil, or_false] at hi
    obtain ⟨rfl, rfl⟩ | ⟨rfl, rfl⟩ | ⟨rfl, rfl⟩ | ⟨rfl, rfl⟩ | ⟨rfl, rfl⟩ := hi <;> exact ⟨_, rfl⟩
  obtain ⟨own, e⟩ := hown
  refine ⟨fun hlen => ?_, fun hlen hen hver => ?_⟩
  · rw [e, afterDispatch_badLength hlen]
    rfl
  · rw [e, afterDispatch_oldVersion hlen hen hver]
    rfl

/-! ## A verdict by its reason (R222, R223, R238) -/

/-- The state after a packet's treatment that ended with the reason `r` (0 for acceptance) and left the cache `c`. -/
def withVerdict (r : Byte) (c : Cache) (s : State) : State :=
  { s with
    cache := c
    status := { s.status with busy := false, done := true, err := 0, matched := r == 0, reason := r } }

theorem reject_withCache (r : RejectReason) (c : Cache) (s : State) :
    reject r { s with cache := c } = withVerdict r.code c s := by
  have hmatch : (r.code == 0) = false := by cases r <;> rfl
  simp only [withVerdict, hmatch]
  rfl

theorem reject_eq_withVerdict (r : RejectReason) (s : State) : reject r s = withVerdict r.code s.cache s :=
  reject_withCache r s.cache s

theorem acceptPacket_withCache (c : Cache) (s : State) :
    acceptPacket { s with cache := c } = withVerdict 0 c s := rfl

theorem acceptPacket_eq_withVerdict (s : State) : acceptPacket s = withVerdict 0 s.cache s := rfl

@[simp] theorem firstFailure_nil : firstFailure [] = 0 := rfl

/-- The first check decides if it fails, else the later ones do (R222). -/
theorem firstFailure_cons (b : Bool) (r : Byte) (later : List (Bool × Byte)) :
    firstFailure ((b, r) :: later) = if b then r else firstFailure later := by
  cases b <;> rfl

/-! ## The GET_COOKIE check (R233, R234) -/

theorem timeOffsetTooBig_eq (s : State) (ts : U32) :
    timeOffsetTooBig s ts = decide (s.regs.maxUtcOffset.toNat < Nat.dist s.regs.now.toNat ts.toNat) := by
  have hdist : ((s.regs.now.toNat : Int) - (ts.toNat : Int)).natAbs = Nat.dist s.regs.now.toNat ts.toNat := by
    rw [Nat.dist]
    omega
  rw [timeOffsetTooBig, hdist]

/-- The check of GET_COOKIE in the flat list. -/
def timestampFailures (payload : List Byte) (s : State) : List (Bool × Byte) :=
  [(utcEn s && decide (s.regs.maxUtcOffset.toNat < Nat.dist s.regs.now.toNat (be32 (slice payload 0 4)).toNat), 0x09)]

theorem checkTimestamp_eq_withVerdict (payload : List Byte) (s : State) :
    checkTimestamp payload s = withVerdict (firstFailure (timestampFailures payload s)) s.cache s := by
  rw [timestampFailures, ← timeOffsetTooBig_eq, firstFailure_cons]
  rcases checkTimestamp_cases payload s with ⟨hc, e⟩ | ⟨hc, e⟩ <;> rw [e, hc]
  · rfl
  · exact reject_eq_withVerdict ..

/-- `BE32` of the first four bytes, as a number (R12). -/
theorem toNat_be32_slice {B : List Byte} (h : 4 ≤ B.length) :
    (be32 (slice B 0 4)).toNat = 256 ^ 3 * (B.getD 0 0).toNat + 256 ^ 2 * (B.getD 1 0).toNat +
      256 * (B.getD 2 0).toNat + (B.getD 3 0).toNat := by
  match B, h with
  | a :: b :: c :: d :: _, _ =>
    have := a.isLt
    have := b.isLt
    have := c.isLt
    have := d.isLt
    simp [be32, slice, beNat]
    omega

/-- Settles O40: the own check of GET_COOKIE decides, on the big-endian value of the first four payload bytes. -/
theorem getCookieTimestampVerdict : Obligations.GetCookieTimestampVerdict := by
  intro s version payload hlen hver
  have hts := toNat_be32_slice (B := payload) (by omega)
  refine ⟨utcEn s && timeOffsetTooBig s (be32 (slice payload 0 4)), ?_, ?_⟩
  · rw [Bool.and_eq_true, timeOffsetTooBig_eq, decide_eq_true_iff, hts]
  · have hown := (afterDispatch_passed hlen hver).trans (checkTimestamp_eq_withVerdict payload s)
    rw [timestampFailures, ← timeOffsetTooBig_eq, firstFailure_cons] at hown
    refine congrArg Host.Outcome.next (hown.trans ?_)
    cases utcEn s && timeOffsetTooBig s (be32 (slice payload 0 4)) <;> rfl

/-! ## The GET_PUZZLE check (R235, R236) -/

/-- The checks of GET_PUZZLE in the flat list. -/
def cookieFailures (payload : List Byte) (s : State) : List (Bool × Byte) :=
  let p := payload.getD 8 0
  [(cookieEn s && decide (8 ≤ p), 0x0A),
   (cookieEn s && !familySupported s, 0x0B),
   (cookieEn s && decide (slice payload 0 8 ≠ le64bytes (identityCookie s (windowKey s s.regs.now p))), 0x0C)]

/-- The cache after the GET_PUZZLE check: only a comparison looks a key up (R236). -/
def cookieCache (payload : List Byte) (s : State) : Cache :=
  if cookieEn s = true ∧ payload.getD 8 0 < 8 ∧ familySupported s = true
    then lookupCache s.regs.now (payload.getD 8 0) s else s.cache

theorem cookieVerdict_disabled {s : State} (hen : cookieEn s = false) (payload : List Byte) :
    firstFailure (cookieFailures payload s) = 0x00 ∧ cookieCache payload s = s.cache := by
  simp [cookieFailures, firstFailure_cons, cookieCache, hen]

theorem cookieVerdict_badIndex {payload : List Byte} {s : State} (hen : cookieEn s = true)
    (hp : 8 ≤ payload.getD 8 0) :
    firstFailure (cookieFailures payload s) = 0x0A ∧ cookieCache payload s = s.cache := by
  simp only [cookieFailures, firstFailure_cons, cookieCache, hen, hp, BitVec.not_lt.2 hp, false_and, and_false]
  exact ⟨rfl, rfl⟩

theorem cookieVerdict_badFamily {payload : List Byte} {s : State} (hen : cookieEn s = true)
    (hp : payload.getD 8 0 < 8) (haf : familySupported s = false) :
    firstFailure (cookieFailures payload s) = 0x0B ∧ cookieCache payload s = s.cache := by
  simp only [cookieFailures, firstFailure_cons, cookieCache, hen, BitVec.not_le.2 hp, haf, Bool.false_eq_true,
    and_false]
  exact ⟨rfl, rfl⟩

theorem cookieVerdict_compares {payload : List Byte} {s : State} (hen : cookieEn s = true)
    (hp : payload.getD 8 0 < 8) (haf : familySupported s = true) :
    firstFailure (cookieFailures payload s) =
        (if slice payload 0 8 = le64bytes (identityCookie s (windowKey s s.regs.now (payload.getD 8 0)))
          then 0x00 else 0x0C) ∧
      cookieCache payload s = lookupCache s.regs.now (payload.getD 8 0) s := by
  refine ⟨?_, if_pos ⟨hen, hp, haf⟩⟩
  simp only [cookieFailures, firstFailure_cons, hen, BitVec.not_le.2 hp, haf]
  simp

theorem checkCookie_disabled {s : State} (hen : cookieEn s = false) (payload : List Byte) :
    checkCookie payload s = withVerdict 0 s.cache s := if_pos hen

theorem checkCookie_badIndex {payload : List Byte} {s : State} (hen : cookieEn s = true)
    (hp : 8 ≤ payload.getD 8 0) : checkCookie payload s = withVerdict 0x0A s.cache s := by
  rcases getSecret_cases s.regs.now (payload.getD 8 0) s with ⟨-, e⟩ | ⟨hlt, -⟩
  · simp only [checkCookie, hen, e]
    exact reject_eq_withVerdict ..
  · exact absurd hp (BitVec.not_le.2 hlt)

theorem checkCookie_badFamily {payload : List Byte} {s : State} (hen : cookieEn s = true)
    (hp : payload.getD 8 0 < 8) (haf : familySupported s = false) :
    checkCookie payload s = withVerdict 0x0B s.cache s := by
  rcases getSecret_cases s.regs.now (payload.getD 8 0) s with ⟨hge, -⟩ | ⟨-, e⟩
  · exact absurd hge (BitVec.not_le.2 hp)
  · simp only [checkCookie, hen, e, cookieOperand_of_unsupported haf]
    exact reject_eq_withVerdict ..

theorem compareCookie_withCache (payload : List Byte) (k : U64) (c : Cache) (s : State) :
    compareCookie payload k { s with cache := c } =
      withVerdict (if slice payload 0 8 = le64bytes k then 0x00 else 0x0C) c s := by
  by_cases h : slice payload 0 8 = le64bytes k
  · rw [compareCookie, if_neg (not_not.mpr h), if_pos h, acceptPacket_withCache]
  · rw [compareCookie, if_pos h, if_neg h, reject_withCache]
    rfl

/-- The comparison is against the cookie of the index's window, and the cache is what the lookup left (R235, R236). -/
theorem checkCookie_compares {payload : List Byte} {s : State} (hok : CacheOk s) (hen : cookieEn s = true)
    (hp : payload.getD 8 0 < 8) (haf : familySupported s = true) :
    checkCookie payload s = withVerdict
      (if slice payload 0 8 = le64bytes (identityCookie s (windowKey s s.regs.now (payload.getD 8 0)))
        then 0x00 else 0x0C)
      (lookupCache s.regs.now (payload.getD 8 0) s) s := by
  rcases getSecret_cases s.regs.now (payload.getD 8 0) s with ⟨hge, -⟩ | ⟨-, e⟩
  · exact absurd hge (BitVec.not_le.2 hp)
  · simp only [checkCookie, hen, e, key_lookupCache hok, cookieOperand_of_supported haf]
    exact compareCookie_withCache ..

/-- The GET_PUZZLE check as a verdict, by how far it gets. -/
theorem checkCookie_eq_withVerdict (payload : List Byte) {s : State} (hok : CacheOk s) :
    checkCookie payload s = withVerdict (firstFailure (cookieFailures payload s)) (cookieCache payload s) s := by
  cases hen : cookieEn s with
  | false =>
    obtain ⟨hr, hc⟩ := cookieVerdict_disabled hen payload
    rw [hr, hc, checkCookie_disabled hen]
  | true =>
    by_cases hp : payload.getD 8 0 < 8
    · cases haf : familySupported s with
      | false =>
        obtain ⟨hr, hc⟩ := cookieVerdict_badFamily hen hp haf
        rw [hr, hc, checkCookie_badFamily hen hp haf]
      | true =>
        obtain ⟨hr, hc⟩ := cookieVerdict_compares hen hp haf
        rw [hr, hc, checkCookie_compares hok hen hp haf]
    · have hge := BitVec.not_lt.1 hp
      obtain ⟨hr, hc⟩ := cookieVerdict_badIndex hen hge
      rw [hr, hc, checkCookie_badIndex hen hge]

/-- Settles O41: the own check of GET_PUZZLE decides, by how far it gets. -/
theorem getPuzzleCookieVerdict : Obligations.GetPuzzleCookieVerdict := by
  intro s version payload hok hlen hver
  refine ⟨_, _, congrArg Host.Outcome.next
      ((afterDispatch_passed hlen hver).trans (checkCookie_eq_withVerdict payload hok)),
    fun hen => cookieVerdict_disabled hen payload, cookieVerdict_badIndex, cookieVerdict_badFamily,
    fun hen hp haf => (cookieVerdict_compares hen hp haf).symm⟩

/-! ## The flat list of checks (R221) -/

/-- The checks left for a packet whose header passed, in the order of the flat list. -/
def commandFailures (p : ClientPacket) (s : State) : List (Bool × Byte) :=
  let afterLength (size : Nat) (own : List (Bool × Byte)) :=
    (decide (p.payload.length ≠ size), 0x07) :: (versionTooOld p.version s, 0x08) :: own
  match p.command with
  | .getCookie => afterLength 16 (timestampFailures p.payload s)
  | .getPuzzle => afterLength 20 (cookieFailures p.payload s)
  | .setCookie => afterLength 20 []
  | .setPuzzle => afterLength 244 []
  | .resetPuzzle => afterLength 1 []
  | .solvePuzzle | .reset => [(true, 0x06)]

/-- The header checks of the flat list all pass on a client packet (R100). -/
theorem encodePacket_header (p : ClientPacket) :
    slice (encodePacket p) 0 8 = [0x54, 0x53, 0x33, 0x49, 0x4E, 0x49, 0x54, 0x31] ∧
    be16 (slice (encodePacket p) 8 10) = 101 ∧ be16 (slice (encodePacket p) 10 12) = 0 ∧
    (encodePacket p).getD 12 0 = 0x88 ∧ be32 (slice (encodePacket p) 13 17) = p.version ∧
    (encodePacket p).getD 17 0 = p.command.code := by
  rw [encodePacket_eq]
  exact ⟨rfl, rfl, rfl, rfl, be32_be32bytes _, rfl⟩

/-- Offsets of the payload in a client packet are 18 up (R100, R109). -/
theorem encodePacket_payload (p : ClientPacket) :
    (encodePacket p).length - 18 = p.payload.length ∧ slice (encodePacket p) 18 22 = slice p.payload 0 4 ∧
    slice (encodePacket p) 18 26 = slice p.payload 0 8 ∧ (encodePacket p).getD 26 0 = p.payload.getD 8 0 := by
  rw [encodePacket_eq]
  exact ⟨rfl, rfl, rfl, rfl⟩

/-- The flat list of a packet whose header passed comes down to the checks of its command. -/
theorem firstFailure_encodePacket (p : ClientPacket) (s : State) :
    firstFailure (packetFailures s (encodePacket p)) = firstFailure (commandFailures p s) := by
  obtain ⟨htag, hid, hclient, hflags, hver, hcmd⟩ := encodePacket_header p
  obtain ⟨hlen, hts, hcookie, hindex⟩ := encodePacket_payload p
  have hlong : ¬ (encodePacket p).length < 18 := by simp
  simp only [packetFailures, htag, hid, hclient, hflags, hver, hcmd, hlen, hts, hcookie, hindex, hlong]
  simp only [commandFailures, timestampFailures, cookieFailures, versionTooOld]
  generalize p.payload.getD 8 0 = index
  obtain ⟨c, v, payload⟩ := p
  cases c <;> simp [WireCommand.code, payloadSize, firstFailure_cons]

/-- The codes with a table size are assigned (R103). -/
theorem not_mem_of_wireCommandOf_none {b : Byte} (h : wireCommandOf b = none) : b ∉ ([0, 1, 2, 3, 5] : List Byte) := by
  have hassigned : ∀ b ∈ ([0, 1, 2, 3, 5] : List Byte), wireCommandOf b ≠ none := by decide
  exact fun hb => hassigned b hb h

/-- A packet that does not decode fails the flat list where the decoder stopped. -/
theorem firstFailure_of_decode_error {P : List Byte} {r : PacketReject} (h : decodePacket P = .error r) (s : State) :
    firstFailure (packetFailures s P) = (rejectReasonOf r).code := by
  simp only [packetFailures, firstFailure_cons, decide_eq_true_eq]
  unfold decodePacket at h
  split_ifs at h with hlen htag hid hclient hflags
  · obtain rfl := Except.error.inj h
    exact if_pos hlen
  · obtain rfl := Except.error.inj h
    exact (if_neg hlen).trans (if_pos htag)
  · obtain rfl := Except.error.inj h
    exact (if_neg hlen).trans <| (if_neg htag).trans (if_pos hid)
  · obtain rfl := Except.error.inj h
    exact (if_neg hlen).trans <| (if_neg htag).trans <| (if_neg hid).trans (if_pos hclient)
  · obtain rfl := Except.error.inj h
    exact (if_neg hlen).trans <| (if_neg htag).trans <| (if_neg hid).trans <| (if_neg hclient).trans (if_pos hflags)
  · cases hcmd : wireCommandOf (P.getD 17 0) with
    | some c => simp only [hcmd] at h; cases h
    | none =>
      simp only [hcmd] at h
      obtain rfl := Except.error.inj h
      exact (if_neg hlen).trans <| (if_neg htag).trans <| (if_neg hid).trans <| (if_neg hclient).trans <|
        (if_neg hflags).trans (if_pos (not_mem_of_wireCommandOf_none hcmd))

/-- Dispatch as a verdict: the length, the version, then the own check and the cache it leaves (R229, R231). -/
theorem afterDispatch_eq_withVerdict {own : State → State} {later : List (Bool × Byte)} {c : Cache} {s : State}
    (hown : own s = withVerdict (firstFailure later) c s) (size : Nat) (version : U32) (payload : List Byte) :
    ∃ c', afterDispatch size version payload own s = withVerdict
        (firstFailure ((decide (payload.length ≠ size), 0x07) :: (versionTooOld version s, 0x08) :: later)) c' s ∧
      (c' = s.cache ∨ c' = c) := by
  simp only [firstFailure_cons, decide_eq_true_eq]
  rcases afterDispatch_cases size version payload own s with ⟨hlen, e⟩ | ⟨hlen, hver, e⟩ | ⟨hlen, hver, e⟩ <;> rw [e]
  · exact ⟨_, by rw [if_pos hlen]; exact reject_eq_withVerdict .., .inl rfl⟩
  · exact ⟨_, by rw [if_neg (not_not.mpr hlen), if_pos hver]; exact reject_eq_withVerdict .., .inl rfl⟩
  · exact ⟨c, by rw [if_neg (not_not.mpr hlen), hver, hown]; rfl, .inr rfl⟩

/-- The same for an own check that leaves the cache. -/
theorem afterDispatch_keeps_cache {own : State → State} {later : List (Bool × Byte)} {s : State}
    (hown : own s = withVerdict (firstFailure later) s.cache s) (size : Nat) (version : U32) (payload : List Byte) :
    afterDispatch size version payload own s = withVerdict
      (firstFailure ((decide (payload.length ≠ size), 0x07) :: (versionTooOld version s, 0x08) :: later))
      s.cache s := by
  obtain ⟨c, e, hc⟩ := afterDispatch_eq_withVerdict hown size version payload
  rw [e, or_self_iff.1 hc]

/-- The treatment of a packet whose header passed, as a verdict; only the GET_PUZZLE check may change the cache. -/
theorem dispatchPacket_eq_withVerdict (p : ClientPacket) {s : State} (hok : CacheOk s) :
    ∃ c, dispatchPacket p s = .next (withVerdict (firstFailure (commandFailures p s)) c s) ∧
      (c = s.cache ∨ p.command = .getPuzzle ∧ c = cookieCache p.payload s) := by
  obtain ⟨command, v, payload⟩ := p
  cases command with
  | getPuzzle =>
    obtain ⟨c, e, hc⟩ := afterDispatch_eq_withVerdict (checkCookie_eq_withVerdict payload hok) 20 v payload
    exact ⟨c, congrArg Host.Outcome.next e, hc.imp_right fun h => ⟨rfl, h⟩⟩
  | getCookie =>
    have e := afterDispatch_keeps_cache (checkTimestamp_eq_withVerdict payload s) 16 v payload
    exact ⟨s.cache, congrArg Host.Outcome.next e, .inl rfl⟩
  | setCookie | setPuzzle | resetPuzzle =>
    have e (size : Nat) := afterDispatch_keeps_cache (later := []) (acceptPacket_eq_withVerdict s) size v payload
    exact ⟨s.cache, congrArg Host.Outcome.next (e _), .inl rfl⟩
  | solvePuzzle | reset =>
    exact ⟨s.cache, congrArg Host.Outcome.next (reject_eq_withVerdict .unknownCommand s), .inl rfl⟩

theorem cookieCache_cases (payload : List Byte) (s : State) :
    cookieCache payload s = s.cache ∨
    (cookieEn s = true ∧ familySupported s = true ∧ payload.getD 8 0 < 8 ∧
      cookieCache payload s = lookupCache s.regs.now (payload.getD 8 0) s) := by
  by_cases h : cookieEn s = true ∧ payload.getD 8 0 < 8 ∧ familySupported s = true
  · obtain ⟨hen, hp, haf⟩ := h
    exact .inr ⟨hen, haf, hp, if_pos ⟨hen, hp, haf⟩⟩
  · exact .inl (if_neg h)

/-- Settles O35: where the decoder stops the flat list fails first, and past the header it is the command's list. -/
theorem validateReportsFirstFailure : Obligations.ValidateReportsFirstFailure := by
  intro s hok hlen
  cases hP : decodePacket (packetOperand s) with
  | error r =>
    refine ⟨s.cache, ?_, .inl rfl⟩
    rw [exec_validate_malformed hlen hP, reject_eq_withVerdict, firstFailure_of_decode_error hP]
    rfl
  | ok p =>
    obtain ⟨c, e, hc⟩ := dispatchPacket_eq_withVerdict p hok
    rw [exec_validate_decoded hlen hP, e, eq_encodePacket_of_decodePacket hP, firstFailure_encodePacket]
    obtain ⟨-, -, -, -, -, hcmd⟩ := encodePacket_header p
    obtain ⟨-, -, -, hindex⟩ := encodePacket_payload p
    refine ⟨c, rfl, ?_⟩
    rw [hcmd, hindex]
    obtain hc | ⟨hpuzzle, rfl⟩ := hc
    · exact .inl hc
    · refine (cookieCache_cases p.payload s).imp_right fun ⟨hen, haf, hp, hlookup⟩ => ?_
      exact ⟨hen, haf, by rw [hpuzzle]; rfl, hp, hlookup⟩

/-! ## The rejection invariants (R239) -/

theorem afterDispatch_matched {size : Nat} {version : U32} {payload : List Byte} {own : State → State} {s : State}
    (h : (afterDispatch size version payload own s).status.matched = true) : payload.length = size := by
  by_contra hlen
  rw [afterDispatch_badLength hlen] at h
  cases h

/-- A dispatched packet that matches has the payload size of its command's table entry. -/
theorem dispatchPacket_matched {p : ClientPacket} {s t : State} (h : dispatchPacket p s = .next t)
    (hm : t.status.matched = true) :
    p.command.code ∈ ([0, 1, 2, 3, 5] : List Byte) ∧ p.payload.length = payloadSize p.command.code := by
  obtain ⟨command, v, payload⟩ := p
  cases command with
  | solvePuzzle | reset =>
    obtain rfl := Host.Outcome.next.inj h
    cases hm
  | _ =>
    obtain rfl := Host.Outcome.next.inj h
    exact ⟨by simp [WireCommand.code], afterDispatch_matched hm⟩

/-- Only a packet that decodes can match. -/
theorem decodes_of_matched {s t : State} (h : exec .validate s = .next t) (hm : t.status.matched = true) :
    ∃ p, packetOperand s = encodePacket p ∧ dispatchPacket p s = .next t := by
  by_cases hlen : s.regs.inLen.toNat ≤ 512
  · cases hP : decodePacket (packetOperand s) with
    | error r =>
      rw [exec_validate_malformed hlen hP] at h
      obtain rfl := Host.Outcome.next.inj h
      cases hm
    | ok p => exact ⟨p, eq_encodePacket_of_decodePacket hP, (exec_validate_decoded hlen hP).symm.trans h⟩
  · rw [exec_validate_range (Nat.lt_of_not_le hlen)] at h
    obtain rfl := Host.Outcome.next.inj h
    cases hm

/-- Byte `a` of the packet under validation is `IN_BUF[a]` (R109). -/
theorem packetOperand_getElem? {s : State} {a : Nat} (h : a < s.regs.inLen.toNat) :
    (packetOperand s)[a]? = some (inByte s a) := by
  simp [packetOperand, inBytes, h]

theorem inByte_of_packetOperand_eq {s : State} {P : List Byte} (hP : packetOperand s = P) {a : Nat}
    (h : a < P.length) : inByte s a = P.getD a 0 := by
  have hin : a < s.regs.inLen.toNat := by rwa [← packetOperand_length, hP]
  rw [List.getD_eq_getElem?_getD, ← hP, packetOperand_getElem? hin]
  rfl

/-- Settles O37: only a packet that decodes matches, its header is that of its encoding, and dispatch checks the
length. -/
theorem matchImpliesWellFormedPacket : Obligations.MatchImpliesWellFormedPacket := by
  intro s t h hm
  obtain ⟨p, hP, hdispatch⟩ := decodes_of_matched h hm
  obtain ⟨hcmd, hsize⟩ := dispatchPacket_matched hdispatch hm
  have hbyte {a : Nat} (ha : a < 18) : inByte s a = (encodePacket p).getD a 0 :=
    inByte_of_packetOperand_eq hP (by rw [encodePacket_length]; omega)
  have htag : (List.range 8).map (inByte s) = (List.range 8).map ((encodePacket p).getD · 0) :=
    List.map_congr_left fun a ha => hbyte (by have := List.mem_range.1 ha; omega)
  have hlen : s.regs.inLen.toNat = 18 + p.payload.length := by
    rw [← packetOperand_length, hP, encodePacket_length]
  have hcode : inByte s 17 = p.command.code := by
    rw [hbyte (by decide), encodePacket_eq]
    rfl
  rw [htag, hbyte (by decide), hbyte (by decide), hbyte (by decide), hbyte (by decide), hbyte (by decide), hcode, hlen,
    hsize, encodePacket_eq]
  exact ⟨rfl, rfl, rfl, rfl, rfl, rfl, hcmd, rfl⟩

/-! ## Statelessness (R240) -/

theorem identityCookie_congr {s s' : State} (haf : s'.regs.af = s.regs.af) (hsrc : s'.regs.srcAddr = s.regs.srcAddr)
    (hdst : s'.regs.dstAddr = s.regs.dstAddr) (hport : s'.regs.srcPort = s.regs.srcPort) (k : SipKey) :
    identityCookie s' k = identityCookie s k := by
  simp only [identityCookie, identityMessage, identityLength, srcAddrBytes, dstAddrBytes, haf, hsrc, hdst, hport]

/-- The flat list reads the packet, the configuration, the time, the identity and the seed alone. -/
theorem packetFailures_congr {s s' : State} (hcfg : s'.regs.cfg = s.regs.cfg)
    (hmin : s'.regs.minClientVersion = s.regs.minClientVersion) (hmax : s'.regs.maxUtcOffset = s.regs.maxUtcOffset)
    (hnow : s'.regs.now = s.regs.now) (haf : s'.regs.af = s.regs.af) (hsrc : s'.regs.srcAddr = s.regs.srcAddr)
    (hdst : s'.regs.dstAddr = s.regs.dstAddr) (hport : s'.regs.srcPort = s.regs.srcPort)
    (hseed : s'.regs.masterSeed = s.regs.masterSeed) (P : List Byte) :
    packetFailures s' P = packetFailures s P := by
  unfold packetFailures minverEn utcEn cookieEn familySupported
  rw [hcfg, hmin, hmax, hnow, haf]
  simp only [identityCookie_congr haf hsrc hdst hport, windowKey_congr hseed]

theorem packetOperand_congr {s s' : State} (hlen : s'.regs.inLen = s.regs.inLen)
    (hbytes : ∀ a, a < s.regs.inLen.toNat → inByte s' a = inByte s a) : packetOperand s' = packetOperand s := by
  rw [packetOperand, packetOperand, hlen, inBytes, inBytes]
  refine List.map_congr_left fun a ha => ?_
  rw [Nat.zero_add]
  exact hbytes a (List.mem_range.1 ha)

/-- Settles O38: past the buffer the verdict is fixed, and else it is that of the flat list, which reads no more. -/
theorem verdictStateless : Obligations.VerdictStateless := by
  intro s s' t t' hok hok' hlen hbytes hcfg hmin hmax hnow haf hsrc hdst hport hseed h h'
  by_cases hfit : s.regs.inLen.toNat ≤ 512
  · obtain ⟨c, e, -⟩ := validateReportsFirstFailure s hok hfit
    obtain ⟨c', e', -⟩ := validateReportsFirstFailure s' hok' (by rwa [hlen])
    obtain rfl := Host.Outcome.next.inj (h.symm.trans e)
    obtain rfl := Host.Outcome.next.inj (h'.symm.trans e')
    rw [packetOperand_congr hlen fun a ha => hbytes a ha (Nat.lt_of_lt_of_le ha hfit),
      packetFailures_congr hcfg hmin hmax hnow haf hsrc hdst hport hseed]
    exact ⟨rfl, rfl, rfl⟩
  · have hlong := Nat.lt_of_not_le hfit
    obtain rfl := Host.Outcome.next.inj (h.symm.trans (exec_validate_range hlong))
    obtain rfl := Host.Outcome.next.inj (h'.symm.trans (exec_validate_range (by rwa [hlen])))
    exact ⟨rfl, rfl, rfl⟩

/-! ## The cookie round trip (R241, R272) -/

/-- A cookie is minted without an error only for a supported family (R264). -/
theorem familySupported_of_err_zero {s t : State} (h : exec .buildSetCookie s = .next t) (herr : t.status.err = 0) :
    familySupported s = true := by
  by_contra hno
  have haf := Bool.eq_false_iff.2 hno
  simp only [exec, execBuildSetCookie, cookieOperand_of_unsupported haf] at h
  obtain rfl := Host.Outcome.next.inj h
  cases herr

/-- The cookie and the index that `BUILD_SET_COOKIE` wrote, as the 9 reply bytes after the server header. -/
theorem outBytes_minted {s t : State} (hok : CacheOk s) (h : exec .buildSetCookie s = .next t)
    (herr : t.status.err = 0) :
    outBytes t 14 9 = le64bytes (mintedCookie s) ++ [currentIndex s.regs.now] := by
  obtain ⟨-, -, hout⟩ := buildSetCookie_outputs hok h herr
  have hdrop : outBytes t 14 9 = (outBytes t 0 23).drop 14 := rfl
  rw [hdrop, hout]
  rfl

/-- Within its 8 seconds the verifier of the same identity and seed recomputes the minted cookie (R184, R272). -/
theorem identityCookie_eq_mintedCookie {s u : State} (hseed : u.regs.masterSeed = s.regs.masterSeed)
    (haf : u.regs.af = s.regs.af) (hsrc : u.regs.srcAddr = s.regs.srcAddr) (hdst : u.regs.dstAddr = s.regs.dstAddr)
    (hport : u.regs.srcPort = s.regs.srcPort) (hlo : s.regs.now.toNat / 4 * 4 ≤ u.regs.now.toNat)
    (hhi : u.regs.now.toNat < s.regs.now.toNat / 4 * 4 + 8) :
    identityCookie u (windowKey u u.regs.now (currentIndex s.regs.now)) = mintedCookie s := by
  have hwindow : packetCacheTime u.regs.now (currentIndex s.regs.now) =
      packetCacheTime s.regs.now (currentIndex s.regs.now) := by
    rw [packetCacheTime_currentIndex]
    exact (issuedWindowLifetime s.regs.now u.regs.now (by omega)).2 ⟨hlo, hhi⟩
  have hkey : windowKey u u.regs.now (currentIndex s.regs.now) = windowKey s s.regs.now (currentIndex s.regs.now) := by
    rw [windowKey_congr hseed, windowKey, windowKey, hwindow]
  rw [mintedCookie, hkey, identityCookie_congr haf hsrc hdst hport]

/-- A GET_PUZZLE payload that holds the recomputed cookie and its index passes, whether or not the check is on. -/
theorem checkCookie_accepts {payload : List Byte} {s : State} (hok : CacheOk s) (hp : payload.getD 8 0 < 8)
    (haf : familySupported s = true)
    (hcookie : slice payload 0 8 = le64bytes (identityCookie s (windowKey s s.regs.now (payload.getD 8 0)))) :
    ∃ c, checkCookie payload s = withVerdict 0 c s := by
  cases hen : cookieEn s with
  | false => exact ⟨_, checkCookie_disabled hen payload⟩
  | true => exact ⟨_, by rw [checkCookie_compares hok hen hp haf, if_pos hcookie]⟩

/-- Settles O49: the echoed packet decodes, its length and version pass, and the cookie recomputed for its index is the
minted one. -/
theorem cookieRoundTrip : Obligations.CookieRoundTrip := by
  intro s t u version rest hok hoku h herr hseed haf hsrc hdst hport hP hrest hver hlo hhi
  rw [outBytes_minted hok h herr] at hP
  generalize hpayload : le64bytes (mintedCookie s) ++ [currentIndex s.regs.now] ++ rest = payload at hP
  have hfront : slice payload 0 8 = le64bytes (mintedCookie s) := by rw [← hpayload]; rfl
  have hindex : payload.getD 8 0 = currentIndex s.regs.now := by rw [← hpayload]; rfl
  have hlength : payload.length = 20 := by simp [← hpayload, hrest]
  have hfits : u.regs.inLen.toNat ≤ 512 := by
    rw [← packetOperand_length, hP, encodePacket_length, hlength]
    decide
  have hfamily : familySupported u = true := by
    rw [familySupported, haf]
    exact familySupported_of_err_zero h herr
  obtain ⟨c, haccept⟩ := checkCookie_accepts (payload := payload) hoku (by rw [hindex]; exact currentIndex_lt _) hfamily
    (by rw [hfront, hindex, identityCookie_eq_mintedCookie hseed haf hsrc hdst hport hlo hhi])
  refine ⟨withVerdict 0 c u, ?_, rfl, rfl, rfl⟩
  rw [exec_validate_decoded hfits (by rw [hP]; exact decodePacket_encodePacket _)]
  exact congrArg Host.Outcome.next ((afterDispatch_passed hlength hver).trans haccept)

end Sys2Proof.Machine

namespace Sys2Proof.Machine

/-! ## A reply in `OUT_BUF` (44_reply_builder R260, R261) -/

/-- The 14-byte server header, written out (R101). -/
theorem serverHeader_eq (c : WireCommand) : serverHeader c =
    [0x54, 0x53, 0x33, 0x49, 0x4E, 0x49, 0x54, 0x31, 0x00, 0x65, 0x00, 0x00, 0x88, c.code] := by
  rw [serverHeader, headerConstants_eq]
  rfl

@[simp] theorem serverHeader_length (c : WireCommand) : (serverHeader c).length = 14 := rfl

@[simp] theorem bufByte_draw4 (s : State) (a : Nat) : bufByte (draw4 s).2 a = bufByte s a :=
  bufByte_congr rfl rfl rfl a

@[simp] theorem outBytes_complete (s : State) (off len : Nat) :
    outBytes (complete s) off len = outBytes s off len := outBytes_congr (bufByte_complete s) off len

@[simp] theorem outBytes_writeCookieResult (c : U64) (p : Byte) (s : State) (off len : Nat) :
    outBytes (writeCookieResult c p s) off len = outBytes s off len :=
  outBytes_congr (bufByte_writeCookieResult c p s) off len

theorem outBytes_writeReply_of_length {B : List Byte} {n : Nat} (h : B.length = n) (s : State) :
    outBytes (writeReply B s) 0 n = B := h ▸ outBytes_writeReply B s

/-- A reply of `n` bytes writes `OUT_BUF[0 .. n)` only. -/
theorem bufByte_writeReply_of_length {B : List Byte} {n : Nat} (h : B.length = n) (s : State) {a : Nat}
    (ha : a < 0x400 ∨ 0x400 + n ≤ a) : bufByte (writeReply B s) a = bufByte s a := by
  rw [bufByte_writeReply, if_neg (by omega)]

/-! ## `BUILD_RESET` and `BUILD_RESET_PUZZLE` (R268 to R270) -/

theorem resetPayload_length_le : Config.resetPayload.length ≤ 242 := List.length_take_le ..

/-- Settles O47: the payload is the parameter `RESET_PAYLOAD`, which fits `OUT_BUF` behind the header. -/
theorem buildResetReply : Obligations.BuildResetReply := by
  have hlen : (serverHeader .reset ++ Config.resetPayload).length = 14 + Config.resetPayload.length := by simp
  refine ⟨Config.resetPayload, resetPayload_length_le, fun s => ⟨_, rfl, ?packet, ?outside, ?outLen, rfl, rfl, rfl, rfl,
    rfl, rfl, rfl⟩⟩
  case packet =>
    rw [outBytes_complete, outBytes_writeReply_of_length hlen, serverHeader_eq]
    rfl
  case outside => exact fun a ha => (bufByte_complete _ a).trans (bufByte_writeReply_of_length hlen s ha)
  case outLen =>
    have hfits := resetPayload_length_le
    rw [complete_res, writeReply_res, hlen, BitVec.toNat_ofNat, Nat.mod_eq_of_lt (by omega)]

/-- Settles O48: the payload is the parameter `RESET_PUZZLE_BYTE`. -/
theorem buildResetPuzzleReply : Obligations.BuildResetPuzzleReply := by
  have hlen : (serverHeader .resetPuzzle ++ [Config.resetPuzzleByte]).length = 15 := rfl
  refine ⟨Config.resetPuzzleByte, fun s => ⟨_, rfl, ?packet, ?outside, rfl, rfl, rfl, rfl, rfl, rfl, rfl⟩⟩
  case packet =>
    rw [outBytes_complete, outBytes_writeReply_of_length hlen, serverHeader_eq]
    rfl
  case outside => exact fun a ha => (bufByte_complete _ a).trans (bufByte_writeReply_of_length hlen s ha)

/-! ## `BUILD_GET_COOKIE` (R262, R263) -/

/-- The low four bytes of a 64-bit word are those of its low half. -/
theorem byteOf_setWidth_low (v : U64) {i : Nat} (hi : i < 4) : byteOf (v.setWidth 32) i = v.extractLsb' (8 * i) 8 := by
  ext j hj
  simp [byteOf, show 8 * i + j < 32 by omega]

theorem draw4_fst_four_bytes (s : State) : ∃ r0 r1 r2 r3 : Byte, (draw4 s).1 = [r0, r1, r2, r3] := ⟨_, _, _, _, rfl⟩

/-- The GET_COOKIE packet, written out (R104). -/
theorem getCookieReply_eq (now : U64) (r0 r1 r2 r3 : Byte) : getCookieReply now [r0, r1, r2, r3] =
    [0x54, 0x53, 0x33, 0x49, 0x4E, 0x49, 0x54, 0x31, 0x00, 0x65, 0x00, 0x00, 0x88, 0x00,
     now.extractLsb' 24 8, now.extractLsb' 16 8, now.extractLsb' 8 8, now.extractLsb' 0 8,
     r0, r1, r2, r3, 0, 0, 0, 0, 0, 0, 0, 0] := by
  have htime : be32bytes (now.setWidth 32) =
      [now.extractLsb' 24 8, now.extractLsb' 16 8, now.extractLsb' 8 8, now.extractLsb' 0 8] := by
    rw [be32bytes, byteOf_setWidth_low now (i := 3) (by decide), byteOf_setWidth_low now (i := 2) (by decide),
      byteOf_setWidth_low now (i := 1) (by decide), byteOf_setWidth_low now (i := 0) (by decide)]
  rw [getCookieReply, serverHeader_eq, htime]
  rfl

theorem exec_buildGetCookie (s : State) :
    exec .buildGetCookie s = .next (complete (writeReply (getCookieReply s.regs.now (draw4 s).1) (draw4 s).2)) := rfl

/-- Settles O44: the four free bytes are those of the draw. -/
theorem buildGetCookieReply : Obligations.BuildGetCookieReply := by
  intro s
  obtain ⟨r0, r1, r2, r3, hdraw⟩ := draw4_fst_four_bytes s
  have hlen : (getCookieReply s.regs.now (draw4 s).1).length = 30 := rfl
  refine ⟨r0, r1, r2, r3, _, exec_buildGetCookie s, ?packet, ?outside, rfl, rfl, rfl, rfl, rfl, rfl⟩
  case packet =>
    rw [outBytes_complete, outBytes_writeReply_of_length hlen, hdraw, getCookieReply_eq]
  case outside =>
    intro a ha
    rw [bufByte_complete, bufByte_writeReply_of_length hlen _ ha, bufByte_draw4]

/-! ## `BUILD_SET_COOKIE` (R264 to R267) -/

theorem exec_buildSetCookie_unsupported {s : State} (haf : familySupported s = false) :
    exec .buildSetCookie s = .next (raise .afUnsupported s) := by
  simp only [exec, execBuildSetCookie, cookieOperand_of_unsupported haf]

theorem exec_buildSetCookie_badTrigger {s : State} (haf : familySupported s = true) {e : CmdError}
    (htrigger : triggerError s = some e) : exec .buildSetCookie s = .next (raise e s) := by
  simp only [exec, execBuildSetCookie, cookieOperand_of_supported haf, htrigger]

/-- With a supported family and a usable trigger the minted cookie is sent, and the cache is what the lookup left. -/
theorem exec_buildSetCookie_minted {s : State} (hok : CacheOk s) (haf : familySupported s = true)
    (htrigger : triggerError s = none) :
    exec .buildSetCookie s = .next (complete (writeCookieResult (mintedCookie s) (currentIndex s.regs.now)
      (writeReply (setCookieReply (mintedCookie s) (currentIndex s.regs.now) (setCookieTrailer s))
        { s with cache := lookupCache s.regs.now (currentIndex s.regs.now) s }))) := by
  simp only [exec, execBuildSetCookie, lookupSecret, key_lookupCache hok, cookieOperand_of_supported haf, htrigger]
  rfl

/-- The trigger's range is checked before its shortness. -/
theorem triggerError_range {s : State} (hz : zrs s = false) (h : 512 < s.regs.inLen.toNat) :
    triggerError s = some .range := by
  rcases triggerError_cases s with ⟨hz', -⟩ | ⟨-, -, e⟩ | ⟨-, hlt, -⟩ | ⟨-, -, hle, -⟩
  · rw [hz] at hz'; cases hz'
  · exact e
  · omega
  · omega

theorem triggerError_short {s : State} (hz : zrs s = false) (h : s.regs.inLen.toNat < 26) :
    triggerError s = some .shortTrigger := by
  rcases triggerError_cases s with ⟨hz', -⟩ | ⟨-, hgt, -⟩ | ⟨-, -, e⟩ | ⟨-, hge, -, -⟩
  · rw [hz] at hz'; cases hz'
  · omega
  · exact e
  · omega

/-- No trigger is needed with `ZRS = 1`; with `ZRS = 0` one of 26 to 512 bytes will do. -/
theorem triggerError_none {s : State} (h : zrs s = true ∨ (26 ≤ s.regs.inLen.toNat ∧ s.regs.inLen.toNat ≤ 512)) :
    triggerError s = none := by
  rcases triggerError_cases s with ⟨-, e⟩ | ⟨hz, hgt, -⟩ | ⟨hz, hlt, -⟩ | ⟨-, -, -, e⟩
  · exact e
  · have hrange := h.resolve_left (Bool.eq_false_iff.1 hz); omega
  · have hrange := h.resolve_left (Bool.eq_false_iff.1 hz); omega
  · exact e

/-- Settles O46, by the family and then by the trigger's length. -/
theorem buildSetCookieErrors : Obligations.BuildSetCookieErrors := by
  refine fun s => ⟨fun haf => ?family, fun haf hz hlen => ?range, fun haf hz hlen => ?short⟩
  case family => exact exec_buildSetCookie_unsupported haf
  case range => exact exec_buildSetCookie_badTrigger haf (triggerError_range hz hlen)
  case short => exact exec_buildSetCookie_badTrigger haf (triggerError_short hz hlen)

/-- The end of the SET_COOKIE payload, written out: seven zeros, then the trigger's random field reversed or zeros. -/
theorem setCookieTrailer_eq (s : State) : setCookieTrailer s =
    [0, 0, 0, 0, 0, 0, 0] ++
      (if zrs s then [0, 0, 0, 0] else [inByte s 25, inByte s 24, inByte s 23, inByte s 22]) := by
  rw [setCookieTrailer]
  cases zrs s <;> rfl

@[simp] theorem setCookieTrailer_length (s : State) : (setCookieTrailer s).length = 11 := by
  rw [setCookieTrailer_eq]
  cases zrs s <;> rfl

theorem setCookieReply_length (c : U64) (p : Byte) (trailer : List Byte) :
    (setCookieReply c p trailer).length = 23 + trailer.length := by
  simp [setCookieReply]; omega

/-- Settles O45: by transparency the key of issuance is that of the window of `NOW mod 8`, so the cookie is the minted
one. -/
theorem buildSetCookieReply : Obligations.BuildSetCookieReply := by
  intro s hok haf htrigger
  have hlen : (setCookieReply (mintedCookie s) (currentIndex s.regs.now) (setCookieTrailer s)).length = 34 := by
    rw [setCookieReply_length, setCookieTrailer_length]
  refine ⟨currentIndex s.regs.now, _, currentIndex_toNat _,
    exec_buildSetCookie_minted hok haf (triggerError_none htrigger), ?packet, ?outside, ?results, rfl, rfl, rfl, rfl,
    rfl, rfl⟩
  case packet =>
    rw [outBytes_complete, outBytes_writeCookieResult, outBytes_writeReply_of_length hlen, setCookieReply,
      serverHeader_eq, setCookieTrailer_eq, List.append_assoc _ [(0 : Byte), 0, 0, 0, 0, 0, 0]]
    rfl
  case outside =>
    intro a ha
    rw [bufByte_complete, bufByte_writeCookieResult, bufByte_writeReply_of_length hlen _ ha, bufByte_withCache]
  case results =>
    rw [complete_res, writeCookieResult_res, writeReply_res, hlen]
    rfl

end Sys2Proof.Machine

namespace Sys2Proof.Machine

/-! ## Commands that end with an error (60_exceptions R300, R301) -/

/-- A command ends with an error in two ways: it raises one, or `VALIDATE` raises its range error (R230). Every other form
of a next state completes with `ERR = 0`. -/
theorem raises_of_err_ne_zero {i : Instr} {s t : State} (h : exec i s = .next t) (herr : t.status.err ≠ 0) :
    (∃ e, t = raise e s) ∨ (i = .validate ∧ t = raiseLenRange s) := by
  cases execEffect_of_exec h with
  | error _ e => exact .inl ⟨e, rfl⟩
  | lenRange => exact .inr ⟨rfl, rfl⟩
  | packet _ _ hv => obtain ⟨m, r, c, -, -, -, rfl⟩ := hv; exact absurd rfl herr
  | _ => exact absurd rfl herr

/-- Settles O51: both ways to end with an error rewrite `STATUS` alone, and only the range error sets `REASON`. -/
theorem errorsChangeOnlyStatus : Obligations.ErrorsChangeOnlyStatus := by
  intro i s t h herr
  rcases raises_of_err_ne_zero h herr with ⟨e, rfl⟩ | ⟨rfl, rfl⟩
  · exact ⟨rfl, .inl rfl⟩
  · exact ⟨rfl, .inr ⟨rfl, rfl, rfl⟩⟩

/-! ## Instances side by side (60_exceptions R312) -/

/-- A step of a node the system does not have does nothing; a step of one it has replaces that node's state by its own
next state. -/
theorem stepNode_cases {k : Nat} {sys sys' : System} (h : stepNode k sys = .next sys') :
    (sys[k]? = none ∧ sys' = sys) ∨
    ∃ n t, sys[k]? = some n ∧ step n.engine = .next t ∧ sys' = sys.set k { n with engine := t } := by
  unfold stepNode at h
  cases hn : sys[k]? with
  | none => simp only [hn] at h; exact .inl ⟨rfl, (Host.Outcome.next.inj h).symm⟩
  | some n =>
    cases ht : step n.engine with
    | next t => simp only [hn, ht] at h; exact .inr ⟨n, t, rfl, ht, (Host.Outcome.next.inj h).symm⟩
    | fault f => simp only [hn, ht] at h; cases h
    | refused r => simp only [hn, ht] at h; cases h

/-- Settles O59: a step of node `k` replaces the entry at `k` or none. -/
theorem instancesIndependent : Obligations.InstancesIndependent := by
  intro sys sys' j k hjk h
  rcases stepNode_cases h with ⟨-, rfl⟩ | ⟨n, t, -, -, rfl⟩
  · exact ⟨rfl, rfl⟩
  · exact ⟨List.getElem?_set_ne hjk.symm, List.length_set⟩

end Sys2Proof.Machine

namespace Sys2Proof.Machine

/-! ## The state after reset (70_reset_and_hazards R330) -/

/-- Settles O52: the reset input leaves the state after reset but for the model's own fields, which the invariant does not
read. -/
theorem resetSatisfiesInvariant : Obligations.ResetSatisfiesInvariant :=
  inv_withEnv (inv_resetInput State.reset) Env.start

/-- Every register outside the buffers reads its reset value, 0 (R21, R330). -/
theorem readReg_reset {r : Reg} (hin : ∀ i, r ≠ .inBuf i) (hout : ∀ i, r ≠ .outBuf i) :
    readReg r State.reset = 0 := by
  cases r with
  | inBuf i => exact absurd rfl (hin i)
  | outBuf i => exact absurd rfl (hout i)
  | srcAddr i | dstAddr i => exact Vector.getElem_replicate i.isLt
  | _ => rfl

/-- An array of `n` zero registers holds `4 * n` zero bytes. -/
theorem registerBytes_replicate_zero (n : Nat) :
    registerBytes (Vector.replicate n (0 : U32)) = List.replicate (n * 4) 0 := by
  have hword : le32bytes 0 = List.replicate 4 0 := rfl
  rw [registerBytes, Vector.toList_replicate, List.flatMap_replicate, hword, List.flatten_replicate_replicate]

/-- Settles O56: the registers and the seed bytes are zero by the two lemmas above, and `State.reset` states the rest. -/
theorem resetState : Obligations.ResetState :=
  ⟨fun _ => readReg_reset, rfl, rfl, rfl, rfl, registerBytes_replicate_zero 15, rfl⟩

end Sys2Proof.Machine
